-- ==== Sys2Proof/Word.lean ====
section
/-! DEFINITION. The word types of BCDEC and the two plain arithmetic notions every rule uses. -/

namespace Sys2Proof

/-- A 32-bit word: a register, a palette entry, a texel, an address of a host transaction (R14, R24, R64, R66). -/
abbrev Word := BitVec 32

/-- A byte (R5). -/
abbrev Byte := BitVec 8

/-- `ceil(a/b)`, which R7 defines as `(a + b - 1) div b`. -/
def ceilDiv (a b : Nat) : Nat := (a + b - 1) / b

/-- The unsigned number of little-endian bytes, the lowest offset first: `LE_n` of R6. -/
def leNat : List Byte → Nat
  | [] => 0
  | b :: bs => b.toNat + 256 * leNat bs

end Sys2Proof
end

