-- ==== Sys2Proof/Config.lean ====
section
/-! DEFINITION. What an implementation fixes (R4) and the one free value (R74). -/

namespace Sys2Proof

/-- The implementation parameters of R4, which a model takes as arguments.
`State` holds one as a constant field that no step writes (notes/assumptions/1). -/
structure Config where
  /-- `SRC_CAP`: size of SRCMEM in bytes. -/
  srcCap : Nat
  /-- `DST_CAP`: size of DSTMEM in 32-bit words. -/
  dstCap : Nat
  /-- `N_INST`: number of BCDEC engines in the system. -/
  nInst : Nat
  deriving DecidableEq, Repr

/-- The constraints R4 puts on the parameters. -/
structure Config.Valid (c : Config) : Prop where
  srcLow : 16 ≤ c.srcCap
  srcHigh : c.srcCap ≤ 2 ^ 32
  dstLow : 16 ≤ c.dstCap
  dstHigh : c.dstCap ≤ 2 ^ 32 - 1
  inst : 1 ≤ c.nInst

/-- The parameters of 95_test_vectors.md, which `State.reset` takes.
DESIGN CHOICE: R4 gives no value (notes/assumptions/1). -/
def Config.vectors : Config := { srcCap := 256, dstCap := 256, nInst := 1 }

/-- The draws of R74: the value of a DSTMEM read made while a job runs, "any 32-bit value, a free input of the step".
A constant with no body, so nothing can be proved of its values; `State.draws` says which draw is next
(notes/assumptions/5). -/
opaque Config.draw : Nat → Word

end Sys2Proof
end

