-- ==== Sys2Proof/Syntax.lean ====
section
/-! DEFINITION. The instructions of BCDEC: one constructor per row of spec/opcode_table.json. -/

namespace Sys2Proof

/-- The seven job kinds (R48). -/
inductive JobKind where
  | bc1 | bc2 | bc3 | pal0 | pal1 | pal4 | pal8
  deriving DecidableEq, Repr

/-- The two classes of illegal FORMAT words (R49). -/
inductive FormatError where
  | unsupportedFormat | unsupportedAlphaDepth
  deriving DecidableEq, Repr

/-- The host-visible registers (R14), the reserved offset 0x1C among them (R21). -/
inductive Reg where
  | ctrl | status | format | width | height | srcLen | outCount | reserved
  deriving DecidableEq, Repr

/-- An instruction of BCDEC.

The first nine are FORMAT words (R48, R49), which the engine runs; their operands are the byte fields the row leaves
open (`comp`: COMP, `adepth`: ADEPTH, `acomp`: ACOMP, `mips`: MIPS), all of which the kind ignores (R50).
The other nine are host transactions (R66); `data` is the data word, also where the row ignores it. -/
inductive Instr where
  /-- BC1 (R98). -/
  | bc1 (adepth mips : Byte)
  /-- BC2 (R99). -/
  | bc2 (adepth mips : Byte)
  /-- BC3 (R101). -/
  | bc3 (adepth mips : Byte)
  /-- PAL0 (R87). -/
  | pal0 (comp acomp mips : Byte)
  /-- PAL1 (R88). -/
  | pal1 (comp acomp mips : Byte)
  /-- PAL4 (R89). -/
  | pal4 (comp acomp mips : Byte)
  /-- PAL8 (R90). -/
  | pal8 (comp acomp mips : Byte)
  /-- A FORMAT word with COMP = 2 and an ACOMP that names no kind (R49). -/
  | illegalFormat (adepth acomp mips : Byte)
  /-- A FORMAT word with COMP other than 2 and an ADEPTH that names no kind (R49). -/
  | illegalAlphaDepth (comp adepth acomp mips : Byte)
  /-- `rd` (R69): register read. -/
  | rd (off data : Word)
  /-- `wr` (R68): register write. -/
  | wr (off v : Word)
  /-- `start` (R75): `wr CTRL` with bit 0 set; `high` is bits 31:1 of the data word, which are ignored (R15). -/
  | start (high : BitVec 31)
  /-- `wrsrc` (R70): SRCMEM write. -/
  | wrsrc (a data : Word)
  /-- `rdsrc` (R71): SRCMEM read. -/
  | rdsrc (a data : Word)
  /-- `wrpal` (R72): PALMEM write. -/
  | wrpal (i w : Word)
  /-- `rdpal` (R73): PALMEM read. -/
  | rdpal (i data : Word)
  /-- `rddst` (R74): DSTMEM read. -/
  | rddst (j data : Word)
  /-- The reserved transaction kind 7 (R66, R109). -/
  | reservedKind7 (addr data : Word)
  deriving DecidableEq, Repr

end Sys2Proof
end

