-- ==== Sys2Proof/WellFormed.lean ====
section
/-! DEFINITION. Which terms of `Instr` an encoding stands for: the constraints of spec/opcode_table.json's rows. -/

namespace Sys2Proof

/-- COMP selects the palette path: it is not 2 (R48: "other = indexed/palette"). -/
def paletteComp (comp : Byte) : Bool := comp != 2

/-- ACOMP names a block kind (R48: 0, 1 and 7). -/
def blockAcomp (acomp : Byte) : Bool := acomp == 0 || acomp == 1 || acomp == 7

/-- ADEPTH names a palette kind (R48: 0, 1, 4 and 8). -/
def paletteDepth (adepth : Byte) : Bool := adepth == 0 || adepth == 1 || adepth == 4 || adepth == 8

/-- The instruction is the meaning of some word: a palette row has COMP other than 2, an illegal row has a
field that names no kind (R49), and a `wr` to CTRL with bit 0 set is written `start` (R67, R75). -/
def Instr.wellFormed : Instr → Bool
  | .bc1 _ _ | .bc2 _ _ | .bc3 _ _ => true
  | .pal0 comp _ _ | .pal1 comp _ _ | .pal4 comp _ _ | .pal8 comp _ _ => paletteComp comp
  | .illegalFormat _ acomp _ => !blockAcomp acomp
  | .illegalAlphaDepth comp adepth _ _ => paletteComp comp && !paletteDepth adepth
  | .wr off v => !(off == 0 && v.getLsbD 0)
  | .rd _ _ | .start _ | .wrsrc _ _ | .rdsrc _ _ | .wrpal _ _ | .rdpal _ _ | .rddst _ _
  | .reservedKind7 _ _ => true

end Sys2Proof
end

