-- ==== Sys2Proof/Decode.lean ====
section
/-! DEFINITION. Decoding of FORMAT words (R48) and host transactions (R66), total, with rejections by name;
then the encoder and the assembler's expansions (R67). -/

namespace Sys2Proof

/-! ### FORMAT words (R17, R48) -/

/-- COMP, FORMAT bits 7:0 (R17). -/
def fmtComp (w : Word) : Byte := w.extractLsb' 0 8

/-- ADEPTH, FORMAT bits 15:8 (R17, C8). -/
def fmtAdepth (w : Word) : Byte := w.extractLsb' 8 8

/-- ACOMP, FORMAT bits 23:16 (R17, C8). -/
def fmtAcomp (w : Word) : Byte := w.extractLsb' 16 8

/-- MIPS, FORMAT bits 31:24 (R17), which no rule reads. -/
def fmtMips (w : Word) : Byte := w.extractLsb' 24 8

/-- `kindOf` of R48. -/
def kindOf (w : Word) : Except FormatError JobKind :=
  if fmtComp w = 0x02 then
    if fmtAcomp w = 0x00 then .ok .bc1
    else if fmtAcomp w = 0x01 then .ok .bc2
    else if fmtAcomp w = 0x07 then .ok .bc3
    else .error .unsupportedFormat
  else
    if fmtAdepth w = 0x00 then .ok .pal0
    else if fmtAdepth w = 0x01 then .ok .pal1
    else if fmtAdepth w = 0x04 then .ok .pal4
    else if fmtAdepth w = 0x08 then .ok .pal8
    else .error .unsupportedAlphaDepth

/-- The instruction of a kind, with the ignored fields of the word it stands in. -/
def kindInstr (k : JobKind) (w : Word) : Instr :=
  match k with
  | .bc1 => .bc1 (fmtAdepth w) (fmtMips w)
  | .bc2 => .bc2 (fmtAdepth w) (fmtMips w)
  | .bc3 => .bc3 (fmtAdepth w) (fmtMips w)
  | .pal0 => .pal0 (fmtComp w) (fmtAcomp w) (fmtMips w)
  | .pal1 => .pal1 (fmtComp w) (fmtAcomp w) (fmtMips w)
  | .pal4 => .pal4 (fmtComp w) (fmtAcomp w) (fmtMips w)
  | .pal8 => .pal8 (fmtComp w) (fmtAcomp w) (fmtMips w)

/-- The instruction a FORMAT word stands for; total, since the two illegal classes are rows of the table (R49). -/
def decodeFormat (w : Word) : Instr :=
  match kindOf w with
  | .ok k => kindInstr k w
  | .error .unsupportedFormat => .illegalFormat (fmtAdepth w) (fmtAcomp w) (fmtMips w)
  | .error .unsupportedAlphaDepth => .illegalAlphaDepth (fmtComp w) (fmtAdepth w) (fmtAcomp w) (fmtMips w)

/-! ### Host transactions (R66) -/

/-- A host transaction as one 67-bit value `{kind, addr, data}` (R66). -/
abbrev Txn := BitVec 67

/-- The kind code, bits 66:64. -/
def txnKind (t : Txn) : BitVec 3 := t.extractLsb' 64 3

/-- The address, bits 63:32. -/
def txnAddr (t : Txn) : Word := t.extractLsb' 32 32

/-- The data word, bits 31:0. -/
def txnData (t : Txn) : Word := t.extractLsb' 0 32

/-- Kind 1: `start` where the address is CTRL's and bit 0 of the data is set, else `wr` (R67, R75). -/
def decodeWr (off v : Word) : Instr :=
  if off = 0 ∧ v.getLsbD 0 = true then .start (v.extractLsb' 1 31) else .wr off v

/-- The instruction a transaction stands for, by its kind code (R66); total, since kind 7 is a row of the table. -/
def decodeTxn (t : Txn) : Instr :=
  match (txnKind t).toNat with
  | 0 => .rd (txnAddr t) (txnData t)
  | 1 => decodeWr (txnAddr t) (txnData t)
  | 2 => .wrsrc (txnAddr t) (txnData t)
  | 3 => .rdsrc (txnAddr t) (txnData t)
  | 4 => .wrpal (txnAddr t) (txnData t)
  | 5 => .rdpal (txnAddr t) (txnData t)
  | 6 => .rddst (txnAddr t) (txnData t)
  | _ => .reservedKind7 (txnAddr t) (txnData t)

/-! ### Words of both shapes, and bytes -/

/-- The words of an instruction: a FORMAT word or a host transaction. -/
inductive Encoded where
  | format (w : Word)
  | txn (t : Txn)
  deriving DecidableEq, Repr

/-- The instruction a word stands for. -/
def decode : Encoded → Instr
  | .format w => decodeFormat w
  | .txn t => decodeTxn t

/-- Why bytes stand for no instruction. -/
inductive DecodeError where
  /-- Neither the 4 bytes of a FORMAT word nor the 9 bytes of a transaction. -/
  | badLength (n : Nat)
  /-- Nine bytes with a bit set above the transaction's 67. -/
  | highBits
  deriving DecidableEq, Repr

/-- Bytes to an instruction: four are a FORMAT word, little-endian (R17, R32: header bytes 8 to 11).
Nine are a transaction, little-endian, with the five bits above its 67 zero
(DESIGN CHOICE: the spec gives a transaction no bytes; notes/assumptions/15). -/
def decodeBytes (bs : List Byte) : Except DecodeError Instr :=
  if bs.length = 4 then .ok (decodeFormat (BitVec.ofNat 32 (leNat bs)))
  else if bs.length = 9 then
    if leNat bs < 2 ^ 67 then .ok (decodeTxn (BitVec.ofNat 67 (leNat bs))) else .error .highBits
  else .error (.badLength bs.length)

/-- `n` bytes of a number, little-endian. -/
def bytesOfNat : Nat → Nat → List Byte
  | 0, _ => []
  | n + 1, w => BitVec.ofNat 8 w :: bytesOfNat n (w / 256)

/-- How many bytes hold a word of a table row of `nbits` bits: 4 for a FORMAT word, 9 for a transaction. -/
def tableBytes (nbits : Nat) : Nat := if nbits ≤ 32 then 4 else 9

/-- What the decoder reads from a table row's word `w`, numbered as the table numbers it. -/
def decodeTableWord (nbits w : Nat) : Option Instr :=
  if w < 2 ^ (8 * tableBytes nbits) then
    match decodeBytes (bytesOfNat (tableBytes nbits) w) with
    | .ok i => some i
    | .error _ => none
  else none

/-- The FORMAT word of a container header: its bytes 8 to 11 as one little-endian word (R17, R47). -/
def headerFormat (header : List Byte) : Option Word :=
  if 12 ≤ header.length then some (BitVec.ofNat 32 (leNat ((header.drop 8).take 4))) else none

/-! ### The encoder -/

/-- A FORMAT word from its four bytes (R17). -/
def formatWord (comp adepth acomp mips : Byte) : Word := mips ++ acomp ++ adepth ++ comp

/-- A transaction `{kind, addr, data}` (R66). -/
def txnWord (kind : BitVec 3) (addr data : Word) : Txn := kind ++ addr ++ data

/-- The word of an instruction. -/
def encode : Instr → Encoded
  | .bc1 adepth mips => .format (formatWord 0x02 adepth 0x00 mips)
  | .bc2 adepth mips => .format (formatWord 0x02 adepth 0x01 mips)
  | .bc3 adepth mips => .format (formatWord 0x02 adepth 0x07 mips)
  | .pal0 comp acomp mips => .format (formatWord comp 0x00 acomp mips)
  | .pal1 comp acomp mips => .format (formatWord comp 0x01 acomp mips)
  | .pal4 comp acomp mips => .format (formatWord comp 0x04 acomp mips)
  | .pal8 comp acomp mips => .format (formatWord comp 0x08 acomp mips)
  | .illegalFormat adepth acomp mips => .format (formatWord 0x02 adepth acomp mips)
  | .illegalAlphaDepth comp adepth acomp mips => .format (formatWord comp adepth acomp mips)
  | .rd off data => .txn (txnWord 0 off data)
  | .wr off v => .txn (txnWord 1 off v)
  | .start high => .txn (txnWord 1 0 (high ++ 1#1))
  | .wrsrc a data => .txn (txnWord 2 a data)
  | .rdsrc a data => .txn (txnWord 3 a data)
  | .wrpal i w => .txn (txnWord 4 i w)
  | .rdpal i data => .txn (txnWord 5 i data)
  | .rddst j data => .txn (txnWord 6 j data)
  | .reservedKind7 addr data => .txn (txnWord 7 addr data)

/-! ### Mask and match (the tables of R48 and R66, spec/opcode_table.json) -/

/-- A row of the table: the bits `mask` of a word are those of `pattern`. -/
structure TableRow where
  mask : Nat
  pattern : Nat
  deriving DecidableEq, Repr

/-- The row of an instruction. -/
def Instr.row : Instr → TableRow
  | .bc1 _ _ => ⟨0x00FF00FF, 0x00000002⟩
  | .bc2 _ _ => ⟨0x00FF00FF, 0x00010002⟩
  | .bc3 _ _ => ⟨0x00FF00FF, 0x00070002⟩
  | .pal0 _ _ _ => ⟨0x0000FF00, 0x00000000⟩
  | .pal1 _ _ _ => ⟨0x0000FF00, 0x00000100⟩
  | .pal4 _ _ _ => ⟨0x0000FF00, 0x00000400⟩
  | .pal8 _ _ _ => ⟨0x0000FF00, 0x00000800⟩
  | .illegalFormat _ _ _ => ⟨0x000000FF, 0x00000002⟩
  | .illegalAlphaDepth _ _ _ _ => ⟨0x00000000, 0x00000000⟩
  | .rd _ _ => ⟨0x70000000000000000, 0x0⟩
  | .wr _ _ => ⟨0x70000000000000000, 0x10000000000000000⟩
  | .start _ => ⟨0x7FFFFFFFF00000001, 0x10000000000000001⟩
  | .wrsrc _ _ => ⟨0x70000000000000000, 0x20000000000000000⟩
  | .rdsrc _ _ => ⟨0x70000000000000000, 0x30000000000000000⟩
  | .wrpal _ _ => ⟨0x70000000000000000, 0x40000000000000000⟩
  | .rdpal _ _ => ⟨0x70000000000000000, 0x50000000000000000⟩
  | .rddst _ _ => ⟨0x70000000000000000, 0x60000000000000000⟩
  | .reservedKind7 _ _ => ⟨0x70000000000000000, 0x70000000000000000⟩

/-- A word meets the bits its row fixes. -/
def Encoded.meets : Encoded → TableRow → Prop
  | .format w, r => w &&& BitVec.ofNat 32 r.mask = BitVec.ofNat 32 r.pattern
  | .txn t, r => t &&& BitVec.ofNat 67 r.mask = BitVec.ofNat 67 r.pattern

/-! ### The assembler of host programs (R67) -/

/-- The offset of a register (R14). -/
def regOffset : Reg → Word
  | .ctrl => 0x00
  | .status => 0x04
  | .format => 0x08
  | .width => 0x0C
  | .height => 0x10
  | .srcLen => 0x14
  | .outCount => 0x18
  | .reserved => 0x1C

/-- `rd REG`. -/
def asmRd (r : Reg) : Txn := txnWord 0 (regOffset r) 0

/-- `wr REG, imm32`. -/
def asmWr (r : Reg) (v : Word) : Txn := txnWord 1 (regOffset r) v

/-- `wrsrc a, b`. -/
def asmWrsrc (a : Word) (b : Byte) : Txn := txnWord 2 a (b.setWidth 32)

/-- `rdsrc a`. -/
def asmRdsrc (a : Word) : Txn := txnWord 3 a 0

/-- `wrpal i, w`. -/
def asmWrpal (i w : Word) : Txn := txnWord 4 i w

/-- `rdpal i`. -/
def asmRdpal (i : Word) : Txn := txnWord 5 i 0

/-- `rddst j`. -/
def asmRddst (j : Word) : Txn := txnWord 6 j 0

/-- The pseudo-instruction `start`: `wr CTRL, 0x00000001`. -/
def asmStart : Txn := asmWr .ctrl 1

/-- The pseudo-instruction `wrsrcs a, b0 b1 ... bm`. DESIGN CHOICE: past address 2^32 - 1 the addresses go on from 0
(notes/assumptions/28). -/
def asmWrsrcs (a : Word) : List Byte → List Txn
  | [] => []
  | b :: bs => asmWrsrc a b :: asmWrsrcs (a + 1) bs

/-- The pseudo-instruction `job FMT, W, H, LEN`. -/
def asmJob (fmt w h len : Word) : List Txn :=
  [asmWr .format fmt, asmWr .width w, asmWr .height h, asmWr .srcLen len]

/-- The pseudo-instruction `poll`, read `n` times: its branch back is host software (R67, R84). -/
def asmPoll (n : Nat) : List Txn := List.replicate n (asmRd .status)

/-- The pseudo-instruction `rddsts j, m`. DESIGN CHOICE: past index 2^32 - 1 the indices go on from 0
(notes/assumptions/28). -/
def asmRddsts (j : Word) : Nat → List Txn
  | 0 => []
  | m + 1 => asmRddst j :: asmRddsts (j + 1) m

end Sys2Proof
end

