-- ==== Sys2Proof/Machine/State.lean ====
section
/-! DEFINITION. The state of a system of BCDEC engines (R11, R115), the outcomes of a step, and the state after reset (R30). -/

namespace Sys2Proof.Machine

/-- A buffer whose cells are each a value or unwritten (R23, R24, R25): the written cells as (index, value) pairs,
indices strictly rising. An unlisted cell is unwritten. SRCMEM is a list of `Host.Cell`. -/
abbrev Memory (w : Nat) := List (Nat × BitVec w)

/-- The canonical form: indices strictly rising. Every written value is listed, since an unlisted cell has none. -/
abbrev Memory.wf {w : Nat} (m : Memory w) : Prop := m.Pairwise (fun c d => c.1 < d.1)

/-- The engine's phase (R27). -/
inductive Phase where
  | idle | check | run
  deriving DecidableEq, Repr

/-- The hardware errors BCDEC raises (R104). Codes 4 and 5 are never raised and have no constructor. -/
inductive JobError where
  | malformedHeader | unsupportedFormat | unsupportedAlphaDepth | badDimensions
  deriving DecidableEq, Repr

/-- The fields of STATUS (R16); its reserved bits hold nothing. -/
structure Status where
  busy : Bool
  done : Bool
  error : Bool
  wbusy : Bool
  errcode : Byte
  deriving DecidableEq, Repr

/-- The job latches and cursor, JOB (R27). `w` and `h` are read as signed. -/
structure Job where
  phase : Phase
  fmt : Word
  w : Word
  h : Word
  len : Word
  kind : JobKind
  total : Nat
  cur : Nat
  deriving DecidableEq, Repr

/-- The reasons a step or an instruction stops with a fault. -/
inductive Fault where
  /-- `UNWRITTEN_SRC(a)` (R108): raised by `srcRead`, for the engine's units and for `rdsrc`.
  Safe: the chip returns some byte, the model none. -/
  | unwrittenSrc (a : Nat)
  /-- `UNWRITTEN_PAL(i)` (R108): raised by `palRead`, for the palette kinds and for `rdpal`. Safe, as above. -/
  | unwrittenPal (i : Nat)
  /-- `UNWRITTEN_DST(j)` (R108): raised by `rddst` while idle. Safe, as above. -/
  | unwrittenDst (j : Nat)
  /-- A reserved error code stands in ERRCODE (93 U13, "stuck"): raised by `step` alone, in states no run reaches. Safe. -/
  | reservedErrCode (code : Byte)
  deriving DecidableEq, Repr

/-- The reasons an instruction has no meaning. -/
inductive Refusal where
  /-- Not modelled yet: raised by `exec` alone. Safe. No arm of `exec` raises it. -/
  | notModelled (mnemonic : String)
  /-- `REG_ACCESS` (R109): a register offset that is no multiple of 4 or is 0x20 or more, in `rd` and `wr`. Safe. -/
  | regAccess
  /-- `SRC_RANGE` (R109): an SRCMEM offset of SRC_CAP or more, in `wrsrc` and `rdsrc`. Safe. -/
  | srcRange
  /-- `PAL_RANGE` (R109): a palette index of 256 or more, in `wrpal` and `rdpal`. Safe. -/
  | palRange
  /-- `DST_RANGE` (R109): a DSTMEM index of DST_CAP or more, in `rddst`. Safe. -/
  | dstRange
  /-- `TXN_KIND` (R109): transaction kind 7. Safe. -/
  | txnKind
  /-- A turn names an engine the system does not have (R115: indices 0 to N_INST - 1): raised by the fetch and by
  `withSel`. DESIGN CHOICE (notes/assumptions/16). Safe. -/
  | noInst (i : Nat)
  deriving DecidableEq, Repr

/-- What FAULTS records (R29): a model fault or a refusal. -/
inductive Mark where
  | fault (f : Fault)
  | refusal (r : Refusal)
  deriving DecidableEq, Repr

/-- The model faults that FAULTS records are those of R108; a stuck state (93 U13) is not one of them. -/
def Fault.recorded : Fault → Bool
  | .unwrittenSrc _ | .unwrittenPal _ | .unwrittenDst _ => true
  | .reservedErrCode _ => false

/-- The refusals that FAULTS records are those of R109. -/
def Refusal.recorded : Refusal → Bool
  | .regAccess | .srcRange | .palRange | .dstRange | .txnKind => true
  | .notModelled _ | .noInst _ => false

/-- One BCDEC engine with its registers and buffers (R11). ROM is the constants of Machine/Ops.lean, and the
scratch of R28 exists only inside a step. -/
structure Bcdec where
  status : Status
  format : Word
  width : Word
  height : Word
  srcLen : Word
  outCount : Word
  /-- SRCMEM (R23). -/
  src : Memory 8
  /-- PALMEM (R24). -/
  pal : Memory 32
  /-- DSTMEM (R25). -/
  dst : Memory 32
  job : Job
  /-- FAULTS (R29): a set, so a list without repeats. -/
  faults : List Mark
  deriving DecidableEq, Repr

/-- One step of one agent (R9, R41): a host transaction to an engine, an engine's own step, or a reset (R118). -/
inductive Turn where
  | host (inst : Nat) (txn : Txn)
  | engine (inst : Nat)
  | reset (inst : Nat)
  deriving DecidableEq, Repr

/-- The state of the system. `cfg`, `turns`, `sel`, `draws` and `replies` are the model's own fields. -/
structure State where
  /-- The parameters of R4 (notes/assumptions/1). -/
  cfg : Config
  /-- The engines, by index (R115). -/
  insts : List Bcdec
  /-- The order of the steps to come, which R41 leaves open (notes/assumptions/2). -/
  turns : List Turn
  /-- The engine that the instruction in hand acts on. -/
  sel : Nat
  /-- How many draws (R74) have been taken (notes/assumptions/5). -/
  draws : Nat
  /-- The values read transactions returned, with the engine each came from, newest first (notes/assumptions/9). -/
  replies : List (Nat × Word)
  deriving DecidableEq, Repr

/-- STATUS after reset, 0x00000000 (R30). -/
def Status.reset : Status := { busy := false, done := false, error := false, wbusy := false, errcode := 0 }

/-- JOB after reset: PHASE is IDLE (R30); the other fields are unspecified and unread while IDLE.
DESIGN CHOICE: zero, and the kind that FORMAT 0 selects (notes/assumptions/6). -/
def Job.reset : Job :=
  { phase := .idle, fmt := 0, w := 0, h := 0, len := 0, kind := .pal0, total := 0, cur := 0 }

/-- An engine after reset, with FAULTS empty (R30). -/
def Bcdec.reset : Bcdec :=
  { status := .reset, format := 0, width := 0, height := 0, srcLen := 0, outCount := 0
    src := [], pal := [], dst := [], job := .reset, faults := [] }

/-- The system after reset, for the parameters of an implementation (R4, R30, R115, R128).
The model's own fields start empty (notes/assumptions/21). -/
def State.resetWith (cfg : Config) : State :=
  { cfg := cfg, insts := List.replicate cfg.nInst .reset, turns := [], sel := 0, draws := 0, replies := [] }

/-- The system right after reset, with the parameters of 95_test_vectors.md (notes/assumptions/1). -/
def State.reset : State := State.resetWith .vectors

/-- The outcome of an instruction or a step. -/
abbrev Result := Host.Outcome State Fault Refusal

end Sys2Proof.Machine
end

