-- ==== Sys2Proof/Machine/Flags.lean ====
section
/-! DEFINITION. STATUS: its 32-bit view and every way its fields change (R16, R22). -/

namespace Sys2Proof.Machine

/-- One bit of a word. -/
def bit (b : Bool) (k : Nat) : Word := if b then BitVec.twoPow 32 k else 0

/-- STATUS as a host reads it: ERRCODE in bits 15:8, WBUSY, ERROR, DONE, BUSY in bits 3:0, the others 0 (R16, R69). -/
def statusWord (t : Status) : Word :=
  (t.errcode.setWidth 32 <<< 8) ||| bit t.wbusy 3 ||| bit t.error 2 ||| bit t.done 1 ||| bit t.busy 0

/-- The code of an error (R104). -/
def errorCode : JobError → Byte
  | .malformedHeader => 1
  | .unsupportedFormat => 2
  | .unsupportedAlphaDepth => 3
  | .badDimensions => 6

/-- The codes R104 calls reserved or never raised: 4, 5 and 7 to 255 (93 U13). -/
def reservedCode (c : Byte) : Bool :=
  !(c == 0 || c == 1 || c == 2 || c == 3 || c == 6)

/-- STATUS when a START is accepted (R75). -/
def statusStarted (_t : Status) : Status :=
  { busy := true, done := false, error := false, wbusy := false, errcode := 0 }

/-- STATUS when a job ends well (R80): WBUSY is left as it stands. -/
def statusOk (t : Status) : Status :=
  { t with busy := false, done := true, error := false, errcode := 0 }

/-- STATUS when a job ends with an error (R105): WBUSY is left as it stands. -/
def statusFailed (e : JobError) (t : Status) : Status :=
  { t with busy := false, done := true, error := true, errcode := errorCode e }

/-- STATUS when the host writes while BUSY (R16, R68): WBUSY is set. -/
def statusWbusy (t : Status) : Status := { t with wbusy := true }

end Sys2Proof.Machine
end

