-- ==== Sys2Proof/Machine/Operands.lean ====
section
/-! DEFINITION. The operand forms: register offsets, data fields, and the bit fields of blocks and alpha planes. -/

namespace Sys2Proof.Machine

/-- The register at an offset, if the access is legal: a multiple of 4 below 0x20 (R14, R37, R68, R69). -/
def regOf (off : Word) : Option Reg :=
  match off.toNat with
  | 0x00 => some .ctrl
  | 0x04 => some .status
  | 0x08 => some .format
  | 0x0C => some .width
  | 0x10 => some .height
  | 0x14 => some .srcLen
  | 0x18 => some .outCount
  | 0x1C => some .reserved
  | _ => none

/-- The byte of an SRC_WR data word, bits 7:0 (R70). -/
def srcByte (data : Word) : Byte := data.extractLsb' 0 8

/-- START, bit 0 of a CTRL write (R15). -/
def startBit (v : Word) : Bool := v.getLsbD 0

/-- The field F0 of an endpoint, bits 4:0 (R54). -/
def endpointF0 (c : BitVec 16) : BitVec 5 := c.extractLsb' 0 5

/-- The field F1 of an endpoint, bits 10:5 (R54). -/
def endpointF1 (c : BitVec 16) : BitVec 6 := c.extractLsb' 5 6

/-- The field F2 of an endpoint, bits 15:11 (R54). -/
def endpointF2 (c : BitVec 16) : BitVec 5 := c.extractLsb' 11 5

/-- Pixel p's colour index, `idx[2p+1:2p]` (R55). -/
def colorIndex (idx : BitVec 32) (p : Nat) : BitVec 2 := idx.extractLsb' (2 * p) 2

/-- Pixel p's BC2 alpha, `A64[4p+3:4p]` (R58). -/
def alphaNibble (a64 : BitVec 64) (p : Nat) : BitVec 4 := a64.extractLsb' (4 * p) 4

/-- Pixel p's BC3 alpha index, `I48[3p+2:3p]` (R60). -/
def alphaIndex (i48 : BitVec 48) (p : Nat) : BitVec 3 := i48.extractLsb' (3 * p) 3

/-- Pixel i's bit of a depth-1 plane byte, bit `i mod 8` (R62). -/
def planeBit (b : Byte) (i : Nat) : BitVec 1 := b.extractLsb' (i % 8) 1

/-- Pixel i's nibble of a depth-4 plane byte, bits `4*(i mod 2)+3 : 4*(i mod 2)` (R62). -/
def planeNibble (b : Byte) (i : Nat) : BitVec 4 := b.extractLsb' (4 * (i % 2)) 4

end Sys2Proof.Machine
end

