-- ==== Sys2Proof/Machine/Ops.lean ====
section
/-! DEFINITION. The shared operations: memory, ROM, the access primitives (R34 to R36), the job's start, checks and
ends (R75 to R80, R105), reset (R118), and how the outcome of an instruction reaches the state (R29). -/

namespace Sys2Proof.Machine

/-! ### Memory -/

/-- The value of a cell, `none` where it is unwritten. -/
def Memory.read {w : Nat} : Memory w → Nat → Option (BitVec w)
  | [], _ => none
  | c :: m, a => if c.1 = a then some c.2 else Memory.read m a

/-- Write a cell, which becomes written. Keeps `Memory.wf`. -/
def Memory.write {w : Nat} : Memory w → Nat → BitVec w → Memory w
  | [], a, v => [(a, v)]
  | c :: m, a, v =>
    if a < c.1 then (a, v) :: c :: m
    else if a = c.1 then (a, v) :: m
    else c :: Memory.write m a v

/-! ### ROM (R26) -/

/-- ALPHA1: bit value 0 is alpha 0x00, 1 is alpha 0xFF. -/
def romAlpha1 (b : BitVec 1) : Byte := if b = 0 then 0x00 else 0xFF

/-- ALPHA4[v] = 17 * v. -/
def romAlpha4 (v : BitVec 4) : Byte := BitVec.ofNat 8 (17 * v.toNat)

/-! ### The engine's access primitives -/

/-- `SrcRead(a)` (R34). -/
def srcRead (x : Bcdec) (a : Nat) : Except Fault Byte :=
  match Memory.read x.src a with
  | some b => .ok b
  | none => .error (.unwrittenSrc a)

/-- `PalRead(i)` (R35). -/
def palRead (x : Bcdec) (i : Nat) : Except Fault Word :=
  match Memory.read x.pal i with
  | some v => .ok v
  | none => .error (.unwrittenPal i)

/-- `DstWrite(j, v)` (R36). -/
def dstWrite (x : Bcdec) (j : Nat) (v : Word) : Bcdec := { x with dst := Memory.write x.dst j v }

/-- The `n` SRCMEM bytes from offset `o`, read in rising order (R6, R32). -/
def srcBytes (x : Bcdec) (o : Nat) : Nat → Except Fault (List Byte)
  | 0 => .ok []
  | n + 1 => do
    let b ← srcRead x o
    let bs ← srcBytes x (o + 1) n
    .ok (b :: bs)

/-- `LE_n(SRCMEM, o)` (R6): the number of the `n` bytes from offset `o`. -/
def srcLE (x : Bcdec) (o n : Nat) : Except Fault Nat := do
  let bs ← srcBytes x o n
  .ok (leNat bs)

/-- Byte `b` of DSTMEM's byte view: byte `4*j + k` is bits `8k+7:8k` of cell `j` (R33). -/
def dstByte (x : Bcdec) (b : Nat) : Option Byte :=
  (Memory.read x.dst (b / 4)).map (fun v => v.extractLsb' (8 * (b % 4)) 8)

/-! ### Dimensions (R52, R61, R76, R77) -/

/-- The width of a job in pixels. A job in RUN has no negative width (R78); one would count as 0
(notes/assumptions/23). -/
def jobW (x : Bcdec) : Nat := x.job.w.toInt.toNat

/-- The height of a job in pixels, as `jobW`. -/
def jobH (x : Bcdec) : Nat := x.job.h.toInt.toNat

/-- `n = W * H` (R61). -/
def jobPixels (x : Bcdec) : Nat := jobW x * jobH x

/-- The bytes of a block: 8 for BC1 and 16 for BC2 and BC3 (R51); a palette job has no block. -/
def blockBytes : JobKind → Nat
  | .bc1 => 8
  | .bc2 | .bc3 => 16
  | .pal0 | .pal1 | .pal4 | .pal8 => 0

/-- `alphaBytes(depth, n)` (R61); a block kind has no plane. -/
def alphaBytes : JobKind → Nat → Nat
  | .pal1, n => ceilDiv n 8
  | .pal4, n => ceilDiv n 2
  | .pal8, n => n
  | .pal0, _ | .bc1, _ | .bc2, _ | .bc3, _ => 0

/-- `units(kind, W, H)` (R77). -/
def units (k : JobKind) (w h : Nat) : Nat :=
  match k with
  | .bc1 | .bc2 | .bc3 => ceilDiv w 4 * ceilDiv h 4
  | .pal0 | .pal1 | .pal4 | .pal8 => w * h

/-- `reqLen(kind, W, H)` in bytes (R76). -/
def reqLen (k : JobKind) (w h : Nat) : Nat :=
  match k with
  | .bc1 | .bc2 | .bc3 => ceilDiv w 4 * ceilDiv h 4 * blockBytes k
  | .pal0 | .pal1 | .pal4 | .pal8 => w * h + alphaBytes k (w * h)

/-! ### The job: start, error, end, check, advance -/

/-- `doStart()` (R75): the START command. -/
def doStart (x : Bcdec) : Bcdec :=
  if x.status.busy then { x with status := statusWbusy x.status }
  else
    { x with
      status := statusStarted x.status
      outCount := 0
      job := { x.job with phase := .check, fmt := x.format, w := x.width, h := x.height, len := x.srcLen } }

/-- `raise e` (R105): the one way a job ends with an error. BCDEC takes no trap; this is its exception entry. -/
def raiseError (e : JobError) (x : Bcdec) : Bcdec :=
  { x with status := statusFailed e x.status, outCount := 0, job := { x.job with phase := .idle } }

/-- `finishOk()` (R80): a job ends well. -/
def finishOk (x : Bcdec) : Bcdec :=
  { x with
    status := statusOk x.status
    outCount := BitVec.ofInt 32 (x.job.w.toInt * x.job.h.toInt)
    job := { x.job with phase := .idle } }

/-- W < 0, H < 0 or W * H > DST_CAP (R78). -/
abbrev badDimensions (cfg : Config) (x : Bcdec) : Prop :=
  x.job.w.toInt < 0 ∨ x.job.h.toInt < 0 ∨ (cfg.dstCap : Int) < x.job.w.toInt * x.job.h.toInt

/-- JOB.LEN > SRC_CAP or reqLen > JOB.LEN (R78). -/
abbrev badLength (cfg : Config) (k : JobKind) (x : Bcdec) : Prop :=
  cfg.srcCap < x.job.len.toNat ∨ x.job.len.toNat < reqLen k (jobW x) (jobH x)

/-- The job latches that CHECK sets (R78). -/
def latchUnits (k : JobKind) (x : Bcdec) : Bcdec :=
  { x with job := { x.job with kind := k, total := units k (jobW x) (jobH x), cur := 0 } }

/-- A job goes on to RUN, or ends at once when it has no unit (R78). -/
def beginRun (x : Bcdec) : Bcdec :=
  if x.job.total = 0 then finishOk x else { x with job := { x.job with phase := .run } }

/-- `check()` of R78 once the kind is known: dimensions, then length, then the latches. -/
def checkJob (cfg : Config) (k : JobKind) (x : Bcdec) : Bcdec :=
  if badDimensions cfg x then raiseError .badDimensions x
  else if badLength cfg k x then raiseError .malformedHeader x
  else beginRun (latchUnits k x)

/-- The end of a RUN step (R79): the cursor advances, and at TOTAL the job ends well. -/
def advance (x : Bcdec) : Bcdec :=
  let y := { x with job := { x.job with cur := x.job.cur + 1 } }
  if y.job.cur = y.job.total then finishOk y else y

/-! ### Reset (R118) -/

/-- Reset of one engine: every register and buffer at its reset value, FAULTS left as it stands. -/
def resetBcdec (x : Bcdec) : Bcdec := { Bcdec.reset with faults := x.faults }

/-! ### The state around the selected engine -/

/-- Act on the selected engine. -/
def withSel (s : State) (f : Bcdec → Result) : Result :=
  match s.insts[s.sel]? with
  | none => .refused (.noInst s.sel)
  | some x => f x

/-- Store the selected engine. -/
def putSel (s : State) (x : Bcdec) : State := { s with insts := s.insts.set s.sel x }

/-- Return a value to the host (R69). -/
def reply (s : State) (v : Word) : State := { s with replies := (s.sel, v) :: s.replies }

/-- Return a draw to the host (R74): the next free value. -/
def replyDraw (s : State) : State := reply { s with draws := s.draws + 1 } (Config.draw s.draws)

/-- One engine step for a FORMAT word of kind `k` (R78, R79): CHECK, or one unit by `unit`.
An idle engine takes no step and holds its state (R117; notes/assumptions/13). -/
def engineStep (k : JobKind) (unit : Bcdec → Except Fault Bcdec) (s : State) : Result :=
  withSel s fun x =>
    match x.job.phase with
    | .idle => .next s
    | .check => .next (putSel s (checkJob s.cfg k x))
    | .run =>
      match unit x with
      | .ok y => .next (putSel s (advance y))
      | .error f => .fault f

/-- One engine step for an illegal FORMAT word (R49, R78): CHECK raises the error. Such a word has no other step
(notes/assumptions/13). -/
def engineRaise (e : JobError) (s : State) : Result :=
  withSel s fun x =>
    match x.job.phase with
    | .check => .next (putSel s (raiseError e x))
    | .idle | .run => .next s

/-! ### FAULTS (R29) -/

/-- Add a mark to FAULTS, a set. -/
def addMark (m : Mark) (x : Bcdec) : Bcdec :=
  if m ∈ x.faults then x else { x with faults := x.faults ++ [m] }

/-- Record a mark in the selected engine's FAULTS. -/
def markSel (s : State) (m : Mark) : State :=
  match s.insts[s.sel]? with
  | none => s
  | some x => putSel s (addMark m x)

/-- What the outcome of an instruction makes of the state it ran in: a model fault or a refusal "changes no state but
FAULTS", which records it (R108, R109); the run goes on with the mark (notes/assumptions/4). -/
def settle (s : State) (r : Result) : Result :=
  match r with
  | .next t => .next t
  | .fault f => if f.recorded then .next (markSel s (.fault f)) else .fault f
  | .refused f => if f.recorded then .next (markSel s (.refusal f)) else .refused f

end Sys2Proof.Machine
end

