-- ==== Sys2Proof/Machine/BlockColor.lean ====
section
/-! DEFINITION. The colour half of a block, shared by BC1, BC2 and BC3 (42_bc_color.md). -/

namespace Sys2Proof.Machine

/-- A colour: the 8-bit components of F0, F1 and F2 (R92). -/
structure Colour where
  x0 : Byte
  x1 : Byte
  x2 : Byte
  deriving DecidableEq, Repr

/-- The two endpoints and the index field of a colour block (R53). -/
structure ColorFields where
  c1 : BitVec 16
  c2 : BitVec 16
  idx : BitVec 32
  deriving DecidableEq, Repr

/-- The colour table `pal[0..3]` of a block (R96). -/
structure ColourTable where
  p0 : Colour
  p1 : Colour
  p2 : Colour
  p3 : Colour
  deriving DecidableEq, Repr

/-- `colorFields(o)` (R91). -/
def colorFields (x : Bcdec) (o : Nat) : Except Fault ColorFields := do
  let c1 ← srcLE x o 2
  let c2 ← srcLE x (o + 2) 2
  let idx ← srcLE x (o + 4) 4
  .ok { c1 := BitVec.ofNat 16 c1, c2 := BitVec.ofNat 16 c2, idx := BitVec.ofNat 32 idx }

/-- `expand5` (R92). -/
def expand5 (v : BitVec 5) : Byte := BitVec.ofNat 8 (((v.toNat <<< 3) ||| (v.toNat >>> 2)) &&& 0xFF)

/-- `expand6` (R92). -/
def expand6 (v : BitVec 6) : Byte := BitVec.ofNat 8 (((v.toNat <<< 2) ||| (v.toNat >>> 4)) &&& 0xFF)

/-- `expand(c)` (R92). -/
def expand (c : BitVec 16) : Colour :=
  { x0 := expand5 (endpointF0 c), x1 := expand6 (endpointF1 c), x2 := expand5 (endpointF2 c) }

/-- The mode (R93): an unsigned compare of the packed endpoints. -/
def fourColour (c1 c2 : BitVec 16) : Bool := decide (c2.toNat < c1.toNat)

/-- `(2*a + b) div 3` on components (R94). -/
def twoThirds (a b : Byte) : Byte := BitVec.ofNat 8 ((2 * a.toNat + b.toNat) / 3)

/-- `(a + b) div 2` on components (R95). -/
def half (a b : Byte) : Byte := BitVec.ofNat 8 ((a.toNat + b.toNat) / 2)

/-- A component-wise mix of two colours. -/
def mixColour (f : Byte → Byte → Byte) (a b : Colour) : Colour :=
  { x0 := f a.x0 b.x0, x1 := f a.x1 b.x1, x2 := f a.x2 b.x2 }

/-- Black, the fourth colour of the three-colour mode (R95). -/
def black : Colour := { x0 := 0, x1 := 0, x2 := 0 }

/-- The colour table of a block (R94, R95, R96). In the four-colour mode C4 is C3 with the endpoints exchanged. -/
def colourTable (c1 c2 : BitVec 16) : ColourTable :=
  if fourColour c1 c2 then
    { p0 := expand c1, p1 := expand c2
      p2 := mixColour twoThirds (expand c1) (expand c2)
      p3 := mixColour twoThirds (expand c2) (expand c1) }
  else
    { p0 := expand c1, p1 := expand c2, p2 := mixColour half (expand c1) (expand c2), p3 := black }

/-- The entry an index selects (R96: 0 is c1, 1 is c2, 2 is c3, 3 is c4). -/
def pickColour (t : ColourTable) (i : BitVec 2) : Colour :=
  match i.toNat with
  | 0 => t.p0
  | 1 => t.p1
  | 2 => t.p2
  | _ => t.p3

/-- The colour of pixel p of a colour block (R97). -/
def pixelColour (f : ColorFields) (p : Nat) : Colour :=
  pickColour (colourTable f.c1 f.c2) (colorIndex f.idx p)

/-- A texel word `{alpha, X2, X1, X0}` (R64). -/
def texelWord (alpha : Byte) (c : Colour) : Word := alpha ++ c.x2 ++ c.x1 ++ c.x0

end Sys2Proof.Machine
end

