-- ==== Sys2Proof/Machine/BlockFormats.lean ====
section
/-! DEFINITION. The block kinds BC1, BC2 and BC3, block placement, and their meanings (43_bc_formats.md).
A decoded block is the function that gives the texel of pixel p, 0 to 15: scratch inside one step (R28). -/

namespace Sys2Proof.Machine

/-- `decodeBlock(BC1, o)` (R98): every alpha is 0xFF. -/
def decodeBc1 (x : Bcdec) (o : Nat) : Except Fault (Nat → Word) := do
  let f ← colorFields x o
  .ok (fun p => texelWord 0xFF (pixelColour f p))

/-- `decodeBlock(BC2, o)` (R99): 4-bit explicit alpha. -/
def decodeBc2 (x : Bcdec) (o : Nat) : Except Fault (Nat → Word) := do
  let a64 ← srcLE x o 8
  let f ← colorFields x (o + 8)
  .ok (fun p => texelWord (romAlpha4 (alphaNibble (BitVec.ofNat 64 a64) p)) (pixelColour f p))

/-- Entry `i + 2` of the 6-step ramp, `((6-i)*a1 + (1+i)*a2) div 7` (R100). -/
def ramp6 (a1 a2 : Byte) (i : Nat) : Byte := BitVec.ofNat 8 (((6 - i) * a1.toNat + (1 + i) * a2.toNat) / 7)

/-- Entry `i + 2` of the 4-step ramp, `((4-i)*a1 + (1+i)*a2) div 5` (R100). -/
def ramp4 (a1 a2 : Byte) (i : Nat) : Byte := BitVec.ofNat 8 (((4 - i) * a1.toNat + (1 + i) * a2.toNat) / 5)

/-- Entry `i` of `alphaTable(a1, a2)` (R100). -/
def alphaEntry (a1 a2 : Byte) (i : BitVec 3) : Byte :=
  match i.toNat with
  | 0 => a1
  | 1 => a2
  | k + 2 =>
    if a2.toNat < a1.toNat then ramp6 a1 a2 k
    else if k < 4 then ramp4 a1 a2 k
    else if k = 4 then 0x00
    else 0xFF

/-- `decodeBlock(BC3, o)` (R101): 3-bit indices into the alpha table. -/
def decodeBc3 (x : Bcdec) (o : Nat) : Except Fault (Nat → Word) := do
  let a1 ← srcRead x o
  let a2 ← srcRead x (o + 1)
  let i48 ← srcLE x (o + 2) 6
  let f ← colorFields x (o + 8)
  .ok (fun p => texelWord (alphaEntry a1 a2 (alphaIndex (BitVec.ofNat 48 i48) p)) (pixelColour f p))

/-- Where pixel p of block (bx, by) lies: its DSTMEM cell, if it lies inside the image (R102). -/
def blockCell (w h bx byy p : Nat) : Option Nat :=
  if 4 * bx + p % 4 < w ∧ 4 * byy + p / 4 < h then some ((4 * byy + p / 4) * w + (4 * bx + p % 4)) else none

/-- Write one pixel of a block, or discard it (R102). -/
def placePixel (w h bx byy : Nat) (t : Nat → Word) (x : Bcdec) (p : Nat) : Bcdec :=
  match blockCell w h bx byy p with
  | some j => dstWrite x j (t p)
  | none => x

/-- Write the 16 pixels of a block, p rising (R102). -/
def placeBlock (w h bx byy : Nat) (t : Nat → Word) (x : Bcdec) : Bcdec :=
  (List.range 16).foldl (placePixel w h bx byy t) x

/-- `bcUnit` (R102) for the block in hand, JOB.CUR: its bytes from `u * bs`, decoded and placed. -/
def bcUnit (bs : Nat) (decodeAt : Bcdec → Nat → Except Fault (Nat → Word)) (x : Bcdec) : Except Fault Bcdec := do
  let t ← decodeAt x (x.job.cur * bs)
  .ok (placeBlock (jobW x) (jobH x) (x.job.cur % ceilDiv (jobW x) 4) (x.job.cur / ceilDiv (jobW x) 4) t x)

/-- BC1 (R78, R79, R98). -/
def execBc1 (_adepth _mips : Byte) (s : State) : Result :=
  engineStep .bc1 (bcUnit (blockBytes .bc1) decodeBc1) s

/-- BC2 (R78, R79, R99). -/
def execBc2 (_adepth _mips : Byte) (s : State) : Result :=
  engineStep .bc2 (bcUnit (blockBytes .bc2) decodeBc2) s

/-- BC3 (R78, R79, R101). -/
def execBc3 (_adepth _mips : Byte) (s : State) : Result :=
  engineStep .bc3 (bcUnit (blockBytes .bc3) decodeBc3) s

/-- A FORMAT word with COMP = 2 that names no kind ends the job with UnsupportedFormat (R49, R104). -/
def execIllegalFormat (_adepth _acomp _mips : Byte) (s : State) : Result := engineRaise .unsupportedFormat s

end Sys2Proof.Machine
end

