-- ==== Sys2Proof/Machine/HostTxn.lean ====
section
/-! DEFINITION. The host transactions and the START command (40_job_control.md, section 1 and R75). -/

namespace Sys2Proof.Machine

/-- The value of a register (R69). -/
def regRead (x : Bcdec) : Reg → Word
  | .ctrl => 0
  | .status => statusWord x.status
  | .format => x.format
  | .width => x.width
  | .height => x.height
  | .srcLen => x.srcLen
  | .outCount => x.outCount
  | .reserved => 0

/-- A write that only an idle engine takes; while BUSY it is ignored and sets WBUSY (R68, R70, R72). -/
def idleWrite (x y : Bcdec) : Bcdec := if x.status.busy then { x with status := statusWbusy x.status } else y

/-- A register write (R68). -/
def regWrite (x : Bcdec) (v : Word) : Reg → Bcdec
  | .ctrl => if startBit v then doStart x else x
  | .format => idleWrite x { x with format := v }
  | .width => idleWrite x { x with width := v }
  | .height => idleWrite x { x with height := v }
  | .srcLen => idleWrite x { x with srcLen := v }
  | .status | .outCount | .reserved => x

/-- `rd` (R69). -/
def execRd (off _data : Word) (s : State) : Result :=
  withSel s fun x =>
    match regOf off with
    | none => .refused .regAccess
    | some r => .next (reply s (regRead x r))

/-- `wr` (R68). -/
def execWr (off v : Word) (s : State) : Result :=
  withSel s fun x =>
    match regOf off with
    | none => .refused .regAccess
    | some r => .next (putSel s (regWrite x v r))

/-- `start` (R75). -/
def execStart (_high : BitVec 31) (s : State) : Result := withSel s fun x => .next (putSel s (doStart x))

/-- `wrsrc` (R70). -/
def execWrsrc (a data : Word) (s : State) : Result :=
  withSel s fun x =>
    if s.cfg.srcCap ≤ a.toNat then .refused .srcRange
    else .next (putSel s (idleWrite x { x with src := Memory.write x.src a.toNat (srcByte data) }))

/-- `rdsrc` (R71). -/
def execRdsrc (a _data : Word) (s : State) : Result :=
  withSel s fun x =>
    if s.cfg.srcCap ≤ a.toNat then .refused .srcRange
    else
      match srcRead x a.toNat with
      | .error f => .fault f
      | .ok b => .next (reply s (b.setWidth 32))

/-- `wrpal` (R72). -/
def execWrpal (i w : Word) (s : State) : Result :=
  withSel s fun x =>
    if 256 ≤ i.toNat then .refused .palRange
    else .next (putSel s (idleWrite x { x with pal := Memory.write x.pal i.toNat w }))

/-- `rdpal` (R73). -/
def execRdpal (i _data : Word) (s : State) : Result :=
  withSel s fun x =>
    if 256 ≤ i.toNat then .refused .palRange
    else
      match palRead x i.toNat with
      | .error f => .fault f
      | .ok v => .next (reply s v)

/-- `rddst` (R74). -/
def execRddst (j _data : Word) (s : State) : Result :=
  withSel s fun x =>
    if s.cfg.dstCap ≤ j.toNat then .refused .dstRange
    else if x.status.busy then .next (replyDraw s)
    else
      match Memory.read x.dst j.toNat with
      | none => .fault (.unwrittenDst j.toNat)
      | some v => .next (reply s v)

/-- Transaction kind 7 is refused (R66, R109). -/
def execReservedKind7 (_addr _data : Word) (_s : State) : Result := .refused .txnKind

end Sys2Proof.Machine
end

