-- ==== Sys2Proof/Machine/Palette.lean ====
section
/-! DEFINITION. Palette decoding: the common pixel rule, the four alpha depths, and their meanings (41_palette.md). -/

namespace Sys2Proof.Machine

/-- `alphaOf(PAL0, i)` (R87): opaque. -/
def alphaPal0 (_x : Bcdec) (_i : Nat) : Except Fault Byte := .ok 0xFF

/-- `alphaOf(PAL1, i)` (R88): one bit a pixel, LSB first. -/
def alphaPal1 (x : Bcdec) (i : Nat) : Except Fault Byte := do
  let b ← srcRead x (jobPixels x + i / 8)
  .ok (romAlpha1 (planeBit b i))

/-- `alphaOf(PAL4, i)` (R89): one nibble a pixel, the even pixel in the low nibble. -/
def alphaPal4 (x : Bcdec) (i : Nat) : Except Fault Byte := do
  let b ← srcRead x (jobPixels x + i / 2)
  .ok (romAlpha4 (planeNibble b i))

/-- `alphaOf(PAL8, i)` (R90): one byte a pixel. -/
def alphaPal8 (x : Bcdec) (i : Nat) : Except Fault Byte := srcRead x (jobPixels x + i)

/-- The texel of pixel i (R86): `{a, palette[ix][23:0]}`; the index byte, the alpha and the entry are read in that order. -/
def palTexel (alphaAt : Bcdec → Nat → Except Fault Byte) (x : Bcdec) (i : Nat) : Except Fault Word := do
  let ix ← srcRead x i
  let a ← alphaAt x i
  let e ← palRead x ix.toNat
  .ok (a ++ e.extractLsb' 0 24)

/-- `palUnit` (R86) for the pixel in hand, JOB.CUR. -/
def palUnit (alphaAt : Bcdec → Nat → Except Fault Byte) (x : Bcdec) : Except Fault Bcdec := do
  let v ← palTexel alphaAt x x.job.cur
  .ok (dstWrite x x.job.cur v)

/-- PAL0 (R78, R79, R87). -/
def execPal0 (_comp _acomp _mips : Byte) (s : State) : Result := engineStep .pal0 (palUnit alphaPal0) s

/-- PAL1 (R78, R79, R88). -/
def execPal1 (_comp _acomp _mips : Byte) (s : State) : Result := engineStep .pal1 (palUnit alphaPal1) s

/-- PAL4 (R78, R79, R89). -/
def execPal4 (_comp _acomp _mips : Byte) (s : State) : Result := engineStep .pal4 (palUnit alphaPal4) s

/-- PAL8 (R78, R79, R90). -/
def execPal8 (_comp _acomp _mips : Byte) (s : State) : Result := engineStep .pal8 (palUnit alphaPal8) s

/-- A FORMAT word with COMP other than 2 that names no depth ends the job with UnsupportedAlphaDepth (R49, R104). -/
def execIllegalAlphaDepth (_comp _adepth _acomp _mips : Byte) (s : State) : Result :=
  engineRaise .unsupportedAlphaDepth s

end Sys2Proof.Machine
end

