-- ==== Sys2Proof/Machine/Dispatch.lean ====
section
/-! DEFINITION. The dispatch of each instruction to its meaning. -/

namespace Sys2Proof.Machine

def exec (i : Instr) (s : State) : Host.Outcome State Fault Refusal :=
  match i with
  | .bc1 adepth mips => Sys2Proof.Machine.execBc1 adepth mips s
  | .bc2 adepth mips => Sys2Proof.Machine.execBc2 adepth mips s
  | .bc3 adepth mips => Sys2Proof.Machine.execBc3 adepth mips s
  | .pal0 comp acomp mips => Sys2Proof.Machine.execPal0 comp acomp mips s
  | .pal1 comp acomp mips => Sys2Proof.Machine.execPal1 comp acomp mips s
  | .pal4 comp acomp mips => Sys2Proof.Machine.execPal4 comp acomp mips s
  | .pal8 comp acomp mips => Sys2Proof.Machine.execPal8 comp acomp mips s
  | .illegalFormat adepth acomp mips => Sys2Proof.Machine.execIllegalFormat adepth acomp mips s
  | .illegalAlphaDepth comp adepth acomp mips => Sys2Proof.Machine.execIllegalAlphaDepth comp adepth acomp mips s
  | .rd off data => Sys2Proof.Machine.execRd off data s
  | .wr off v => Sys2Proof.Machine.execWr off v s
  | .start high => Sys2Proof.Machine.execStart high s
  | .wrsrc a data => Sys2Proof.Machine.execWrsrc a data s
  | .rdsrc a data => Sys2Proof.Machine.execRdsrc a data s
  | .wrpal j w => Sys2Proof.Machine.execWrpal j w s
  | .rdpal j data => Sys2Proof.Machine.execRdpal j data s
  | .rddst j data => Sys2Proof.Machine.execRddst j data s
  | .reservedKind7 addr data => Sys2Proof.Machine.execReservedKind7 addr data s

end Sys2Proof.Machine
end

