-- ==== Sys2Proof/Machine/Fetch.lean ====
section
/-! DEFINITION. Which agent steps next and what it runs (R9, R41, R126), and where the next instruction stands. -/

namespace Sys2Proof.Machine

/-- What the next step is. -/
inductive Fetch where
  /-- The model has left the rules (93 U13). -/
  | stuck (code : Byte)
  /-- The turn names an engine the system does not have. -/
  | noInst (i : Nat)
  /-- No instruction runs: a reset, or nothing to do. -/
  | rest (s : State)
  /-- An instruction runs on the selected engine of `s`. -/
  | run (i : Instr) (s : State)
  deriving DecidableEq, Repr

/-- The FORMAT word an engine's next step runs: JOB.FMT in CHECK (R78), the kind in JOB.KIND in RUN (R79), none while idle. -/
def engineInstr (x : Bcdec) : Option Instr :=
  match x.job.phase with
  | .idle => none
  | .check => some (decodeFormat x.job.fmt)
  | .run => some (kindInstr x.job.kind x.job.fmt)

/-- An engine's turn. An idle engine takes no step (R117). -/
def fetchEngine (s : State) (k : Nat) : Fetch :=
  match s.insts[k]? with
  | none => .noInst k
  | some x =>
    match engineInstr x with
    | none => .rest s
    | some i => .run i { s with sel := k }

/-- A host's turn: its transaction, to the engine it names (R115). -/
def fetchHost (s : State) (k : Nat) (t : Txn) : Fetch :=
  match s.insts[k]? with
  | none => .noInst k
  | some _ => .run (decodeTxn t) { s with sel := k }

/-- A reset's turn: no other engine changes (R118). -/
def fetchReset (s : State) (k : Nat) : Fetch :=
  match s.insts[k]? with
  | none => .noInst k
  | some x => .rest { s with insts := s.insts.set k (resetBcdec x) }

/-- The engine has a job (R27: STATUS.BUSY is `JOB.PHASE != IDLE`). -/
def hasJob (s : State) (k : Nat) : Bool :=
  match s.insts[k]? with
  | none => false
  | some x => x.job.phase != .idle

/-- The next engine with a job, counting round from the one after `sel`: the fairness of R126. -/
def nextBusy (s : State) : Option Nat :=
  ((List.range s.insts.length).map (fun j => (s.sel + 1 + j) % s.insts.length)).find? (hasJob s)

/-- The turn in hand. With no turn left, the engines that have a job go on in turn (notes/assumptions/2), and a system
with no job holds its state (R117). -/
def fetchTurn (s : State) : Fetch :=
  match s.turns with
  | [] =>
    match nextBusy s with
    | none => .rest s
    | some k => fetchEngine s k
  | .host k t :: ts => fetchHost { s with turns := ts } k t
  | .engine k :: ts => fetchEngine { s with turns := ts } k
  | .reset k :: ts => fetchReset { s with turns := ts } k

/-- The first reserved error code that stands in an ERRCODE (93 U13). -/
def stuckCode (s : State) : Option Byte := (s.insts.map (fun x => x.status.errcode)).find? reservedCode

/-- The next step. -/
def fetch (s : State) : Fetch :=
  match stuckCode s with
  | some c => .stuck c
  | none => fetchTurn s

/-! ### Placing an instruction where the next step fetches it (notes/assumptions/18) -/

/-- A transaction goes in front of the turns, to the selected engine. -/
def placeTxn (s : State) (t : Txn) : State := { s with turns := .host s.sel t :: s.turns }

/-- A FORMAT word is run by the selected engine once START has latched it: the engine is as it would be had the host,
idle, written FORMAT and then START, and its CHECK step comes next. -/
def placeFormat (s : State) (w : Word) : State :=
  match s.insts[s.sel]? with
  | none => s
  | some x =>
    { s with
      insts := s.insts.set s.sel (doStart { x with format := w, status := { x.status with busy := false } })
      turns := .engine s.sel :: s.turns }

/-- Place the word of a table row. -/
def placeWord (s : State) (nbits w : Nat) : State :=
  if tableBytes nbits = 4 then placeFormat s (BitVec.ofNat 32 w) else placeTxn s (BitVec.ofNat 67 w)

end Sys2Proof.Machine
end

