-- ==== Sys2Proof/Machine/Step.lean ====
section
/-! DEFINITION. One step of the system (R9, R41). -/

namespace Sys2Proof.Machine

/-- One step: the turn in hand is taken, its instruction runs, and a model fault or a refusal is recorded in FAULTS. -/
def step (s : State) : Host.Outcome State Fault Refusal :=
  match fetch s with
  | .stuck c => .fault (.reservedErrCode c)
  | .noInst k => .refused (.noInst k)
  | .rest t => .next t
  | .run i t => settle t (exec i t)

/-- `s` with a table row's word where `step` fetches its next instruction. -/
def State.withFetchWord (s : State) (nbits w : Nat) : State := placeWord s nbits w

end Sys2Proof.Machine
end

