-- ==== Sys2Proof/Safety.lean ====
section
/-! DEFINITION. What the claims are stated in: the invariant of the machine, the image a job decodes (R81),
how a unit moves a job on (R79), and how a run ends (R128). -/

namespace Sys2Proof.Machine

/-- The selected engine of a state is `x`. -/
def Selected (s : State) (x : Bcdec) : Prop := s.insts[s.sel]? = some x

/-- The engine has a job in RUN (R79). -/
def InRun (s : State) (x : Bcdec) : Prop := Selected s x ∧ x.job.phase = .run

/-- The engine has a job in CHECK (R78). -/
def InCheck (s : State) (x : Bcdec) : Prop := Selected s x ∧ x.job.phase = .check

/-- The `n` SRCMEM cells from `lo` are written. -/
def SrcWritten (x : Bcdec) (lo n : Nat) : Prop :=
  ∀ a, lo ≤ a → a < lo + n → ∃ b, Memory.read x.src a = some b

/-- The SRCMEM bytes from `o` are `bs`. -/
def SrcHolds (x : Bcdec) (o : Nat) (bs : List Byte) : Prop :=
  ∀ k b, bs[k]? = some b → Memory.read x.src (o + k) = some b

/-! ### The invariant -/

/-- The legal combinations of STATUS (R16): running, succeeded, failed with one of the codes 1, 2, 3, 6, or no job yet. -/
def Status.Legal (t : Status) : Prop :=
  (t.busy = true ∧ t.done = false ∧ t.error = false ∧ t.errcode = 0) ∨
  (t.busy = false ∧ t.done = true ∧ t.error = false ∧ t.errcode = 0) ∨
  (t.busy = false ∧ t.done = true ∧ t.error = true ∧ (t.errcode = 1 ∨ t.errcode = 2 ∨ t.errcode = 3 ∨ t.errcode = 6)) ∨
  (t.busy = false ∧ t.done = false ∧ t.error = false ∧ t.errcode = 0)

/-- What CHECK has found of a job in RUN (R78). -/
structure Running (cfg : Config) (x : Bcdec) : Prop where
  kind : kindOf x.job.fmt = .ok x.job.kind
  wNonneg : 0 ≤ x.job.w.toInt
  hNonneg : 0 ≤ x.job.h.toInt
  fits : jobPixels x ≤ cfg.dstCap
  len : x.job.len.toNat ≤ cfg.srcCap
  req : reqLen x.job.kind (jobW x) (jobH x) ≤ x.job.len.toNat
  total : x.job.total = units x.job.kind (jobW x) (jobH x)
  cur : x.job.cur < x.job.total

/-- The invariant of one engine. -/
structure Bcdec.Inv (cfg : Config) (x : Bcdec) : Prop where
  srcWf : Memory.wf x.src
  srcIn : ∀ c ∈ x.src, c.1 < cfg.srcCap
  palWf : Memory.wf x.pal
  palIn : ∀ c ∈ x.pal, c.1 < 256
  dstWf : Memory.wf x.dst
  dstIn : ∀ c ∈ x.dst, c.1 < cfg.dstCap
  status : x.status.Legal
  busyPhase : x.status.busy = true ↔ x.job.phase ≠ .idle
  outBusy : x.status.busy = true → x.outCount = 0
  outError : x.status.error = true → x.outCount = 0
  outLe : x.outCount.toNat ≤ cfg.dstCap
  latched : x.job.phase ≠ .idle →
    x.job.fmt = x.format ∧ x.job.w = x.width ∧ x.job.h = x.height ∧ x.job.len = x.srcLen
  running : x.job.phase = .run → Running cfg x
  faultsNodup : x.faults.Nodup

/-- The invariant of the system. -/
structure State.Inv (s : State) : Prop where
  cfg : s.cfg.Valid
  count : s.insts.length = s.cfg.nInst
  insts : ∀ x ∈ s.insts, x.Inv s.cfg

/-! ### The image a job decodes (R81) -/

/-- The texel of cell j of a block job: that of its pixel in the block that covers it (R52, R65). -/
def blockTexel (bs : Nat) (decodeAt : Bcdec → Nat → Except Fault (Nat → Word)) (x : Bcdec) (j : Nat) :
    Except Fault Word := do
  let t ← decodeAt x (((j / jobW x / 4) * ceilDiv (jobW x) 4 + (j % jobW x) / 4) * bs)
  .ok (t ((j / jobW x % 4) * 4 + (j % jobW x) % 4))

/-- Texel j of `decode(KIND, W, H, SRCMEM, PALMEM)` (R81), a function of those inputs alone. -/
def imageTexel (k : JobKind) (w h : Word) (src : Memory 8) (pal : Memory 32) (j : Nat) : Except Fault Word :=
  let x : Bcdec := { Bcdec.reset with src := src, pal := pal, job := { Job.reset with w := w, h := h } }
  match k with
  | .bc1 => blockTexel (blockBytes .bc1) decodeBc1 x j
  | .bc2 => blockTexel (blockBytes .bc2) decodeBc2 x j
  | .bc3 => blockTexel (blockBytes .bc3) decodeBc3 x j
  | .pal0 => palTexel alphaPal0 x j
  | .pal1 => palTexel alphaPal1 x j
  | .pal4 => palTexel alphaPal4 x j
  | .pal8 => palTexel alphaPal8 x j

/-- The work unit that writes cell j of a job of kind `k` (R52, R65, R86). -/
def cellUnit (k : JobKind) (x : Bcdec) (j : Nat) : Nat :=
  match k with
  | .bc1 | .bc2 | .bc3 => (j / jobW x / 4) * ceilDiv (jobW x) 4 + (j % jobW x) / 4
  | .pal0 | .pal1 | .pal4 | .pal8 => j

/-- The cells of the units below `n` hold their texels of the job's image. -/
def DecodedBelow (x : Bcdec) (n : Nat) : Prop :=
  ∀ j, j < jobPixels x → cellUnit x.job.kind x j < n →
    ∃ v, imageTexel x.job.kind x.job.w x.job.h x.src x.pal j = .ok v ∧ Memory.read x.dst j = some v

/-- The inputs of a job are written (R120): its source bytes, and for a palette job every entry its index bytes name. -/
structure InputsWritten (k : JobKind) (x : Bcdec) : Prop where
  src : SrcWritten x 0 (reqLen k (jobW x) (jobH x))
  pal : k = .pal0 ∨ k = .pal1 ∨ k = .pal4 ∨ k = .pal8 →
    ∀ i b, i < jobPixels x → Memory.read x.src i = some b → ∃ e, Memory.read x.pal b.toNat = some e

/-- CHECK passes the job of `x` as kind `k` (R78). -/
structure CheckPasses (cfg : Config) (k : JobKind) (x : Bcdec) : Prop where
  wNonneg : 0 ≤ x.job.w.toInt
  hNonneg : 0 ≤ x.job.h.toInt
  fits : x.job.w.toInt * x.job.h.toInt ≤ cfg.dstCap
  len : x.job.len.toNat ≤ cfg.srcCap
  req : reqLen k (jobW x) (jobH x) ≤ x.job.len.toNat

/-! ### What changes and what does not -/

/-- Registers a job's steps never write, buffers it only reads, and FAULTS are the same in `x` and `y`. -/
structure SameInputs (x y : Bcdec) : Prop where
  format : y.format = x.format
  width : y.width = x.width
  height : y.height = x.height
  srcLen : y.srcLen = x.srcLen
  src : y.src = x.src
  pal : y.pal = x.pal
  faults : y.faults = x.faults
  fmt : y.job.fmt = x.job.fmt
  w : y.job.w = x.job.w
  h : y.job.h = x.job.h
  len : y.job.len = x.job.len

/-- How a RUN step moves the job on (R79, R80): the cursor advances, and at TOTAL the job ends well. -/
structure UnitDone (x y : Bcdec) : Prop where
  inputs : SameInputs x y
  kind : y.job.kind = x.job.kind
  total : y.job.total = x.job.total
  cur : y.job.cur = x.job.cur + 1
  more : x.job.cur + 1 ≠ x.job.total →
    y.job.phase = x.job.phase ∧ y.status = x.status ∧ y.outCount = x.outCount
  last : x.job.cur + 1 = x.job.total →
    y.job.phase = .idle ∧
    y.status = { busy := false, done := true, error := false, wbusy := x.status.wbusy, errcode := 0 } ∧
    y.outCount = BitVec.ofInt 32 (x.job.w.toInt * x.job.h.toInt)

/-- Two states differ at most in the engine with index `k`. -/
structure OnlyEngine (k : Nat) (s t : State) : Prop where
  cfg : t.cfg = s.cfg
  turns : t.turns = s.turns
  sel : t.sel = s.sel
  draws : t.draws = s.draws
  replies : t.replies = s.replies
  others : ∀ j, j ≠ k → t.insts[j]? = s.insts[j]?

/-- A job has ended (R80, R105): the engine is idle, STATUS shows the outcome with WBUSY as it stood, OUT_COUNT is `out`. -/
structure JobEnded (x y : Bcdec) (error : Bool) (code : Byte) (out : Word) : Prop where
  phase : y.job.phase = .idle
  status : y.status = { busy := false, done := true, error := error, wbusy := x.status.wbusy, errcode := code }
  outCount : y.outCount = out

/-- The kind a FORMAT instruction names, if it names one (R48). -/
def instrKind : Instr → Option JobKind
  | .bc1 _ _ => some .bc1
  | .bc2 _ _ => some .bc2
  | .bc3 _ _ => some .bc3
  | .pal0 _ _ _ => some .pal0
  | .pal1 _ _ _ => some .pal1
  | .pal4 _ _ _ => some .pal4
  | .pal8 _ _ _ => some .pal8
  | .illegalFormat _ _ _ | .illegalAlphaDepth _ _ _ _ | .rd _ _ | .wr _ _ | .start _ | .wrsrc _ _ | .rdsrc _ _
  | .wrpal _ _ | .rdpal _ _ | .rddst _ _ | .reservedKind7 _ _ => none

/-- The bytes of one block of a block kind from `o` on are written, but for the first unwritten one, `a` (R34). -/
def FirstUnwritten (x : Bcdec) (o n a : Nat) : Prop :=
  o ≤ a ∧ a < o + n ∧ Memory.read x.src a = none ∧ ∀ b, o ≤ b → b < a → ∃ v, Memory.read x.src b = some v

/-! ### Runs (R128) -/

/-- The run ends well in this state: every engine is idle and FAULTS is empty (R128). -/
def EndsWell (s : State) : Prop := ∀ x ∈ s.insts, x.job.phase = .idle ∧ x.faults = []

end Sys2Proof.Machine
end

