-- ==== Sys2Proof/Certificates/Slice0/Obligations.lean ====
section
/-! DEFINITION. The statements for the provers. Each docstring names the rules of spec/ a statement formalises or rests on. -/

open Sys2Proof Sys2Proof.Machine

/-! ### Encoding -/

/-- Decoding the word of a well-formed instruction gives it back, every operand at every value (R48, R66). -/
def Obligations.EncodeThenDecodeIsIdentity : Prop :=
  ∀ i : Instr, i.wellFormed = true → decode (encode i) = i

/-- Every word stands for one well-formed instruction, whose word it is: no word is refused and none has two meanings
(R48, R49, R66). -/
def Obligations.DecodeThenEncodeIsIdentity : Prop :=
  ∀ e : Encoded, (decode e).wellFormed = true ∧ encode (decode e) = e

/-- Words written out from the spec (95_test_vectors.md sections 2.1 and 3) decode to what they stand for. -/
def Obligations.SpecWordsDecode : Prop :=
  decode (.format 0xFF000002) = .bc1 0 0xFF ∧
  decode (.format 0x00010002) = .bc2 0 0 ∧
  decode (.format 0x00070302) = .bc3 3 0 ∧
  decode (.format 0x00050001) = .pal0 1 5 0 ∧
  decode (.format 0x00000101) = .pal1 1 0 0 ∧
  decode (.format 0x00000401) = .pal4 1 0 0 ∧
  decode (.format 0x000008FF) = .pal8 0xFF 0 0 ∧
  decode (.format 0x00FF0002) = .illegalFormat 0 0xFF 0 ∧
  decode (.format 0x00001001) = .illegalAlphaDepth 1 0x10 0 0 ∧
  decode (.txn 0x00000001800000000) = .rd 0x18 0 ∧
  decode (.txn 0x10000000C00000008) = .wr 0x0C 8 ∧
  decode (.txn 0x10000000000000001) = .start 0 ∧
  decode (.txn 0x200000009000000E0) = .wrsrc 9 0xE0 ∧
  decode (.txn 0x40000000A00445566) = .wrpal 10 0x00445566 ∧
  decode (.txn 0x60000000F00000000) = .rddst 15 0 ∧
  decode (.txn 0x70000000000000000) = .reservedKind7 0 0

/-- The job kind by mask and match, as R48's table has it. -/
def Obligations.KindByMaskAndMatch : Prop :=
  ∀ w : Word,
    (kindOf w = .ok .bc1 ↔ w &&& 0x00FF00FF = 0x00000002) ∧
    (kindOf w = .ok .bc2 ↔ w &&& 0x00FF00FF = 0x00010002) ∧
    (kindOf w = .ok .bc3 ↔ w &&& 0x00FF00FF = 0x00070002) ∧
    (kindOf w = .ok .pal0 ↔ w &&& 0x0000FF00 = 0x00000000 ∧ fmtComp w ≠ 0x02) ∧
    (kindOf w = .ok .pal1 ↔ w &&& 0x0000FF00 = 0x00000100 ∧ fmtComp w ≠ 0x02) ∧
    (kindOf w = .ok .pal4 ↔ w &&& 0x0000FF00 = 0x00000400 ∧ fmtComp w ≠ 0x02) ∧
    (kindOf w = .ok .pal8 ↔ w &&& 0x0000FF00 = 0x00000800 ∧ fmtComp w ≠ 0x02)

/-- The illegal FORMAT words are exactly those of R49; CHECK ends a job with one, with its code, and writes no texel. -/
def Obligations.IllegalFormatWordsExactly : Prop :=
  ∀ w : Word,
    (kindOf w = .error .unsupportedFormat ↔
      fmtComp w = 0x02 ∧ fmtAcomp w ≠ 0x00 ∧ fmtAcomp w ≠ 0x01 ∧ fmtAcomp w ≠ 0x07) ∧
    (kindOf w = .error .unsupportedAlphaDepth ↔
      fmtComp w ≠ 0x02 ∧ fmtAdepth w ≠ 0x00 ∧ fmtAdepth w ≠ 0x01 ∧ fmtAdepth w ≠ 0x04 ∧ fmtAdepth w ≠ 0x08) ∧
    ∀ (s : State) (x : Bcdec), InCheck s x →
      (kindOf w = .error .unsupportedFormat →
        ∃ y, exec (decodeFormat w) s = .next (putSel s y) ∧ JobEnded x y true 2 0 ∧ SameInputs x y ∧ y.dst = x.dst) ∧
      (kindOf w = .error .unsupportedAlphaDepth →
        ∃ y, exec (decodeFormat w) s = .next (putSel s y) ∧ JobEnded x y true 3 0 ∧ SameInputs x y ∧ y.dst = x.dst)

/-- The fields a kind does not use are ignored, whatever their value (R50): for a block kind ADEPTH, for a palette kind
ACOMP, for every kind MIPS, in the kind found and in what the kind's instruction does. -/
def Obligations.UnusedFieldsAreIgnored : Prop :=
  (∀ v w : Word, fmtComp v = 0x02 → fmtComp w = 0x02 → fmtAcomp v = fmtAcomp w → kindOf v = kindOf w) ∧
  (∀ v w : Word, fmtComp v ≠ 0x02 → fmtComp w ≠ 0x02 → fmtAdepth v = fmtAdepth w → kindOf v = kindOf w) ∧
  (∀ (v w : Word) (k : JobKind) (s : State), kindOf v = .ok k → kindOf w = .ok k → exec (decodeFormat v) s = exec (decodeFormat w) s)

/-- FORMAT is the container header's bytes 8, 9, 10, 11 read as one little-endian word (R17, R47): the four bytes decode as
that word does, and each byte is the field R17 names. -/
def Obligations.HeaderBytesAreFormat : Prop :=
  ∀ (front back : List Byte) (comp adepth acomp mips : Byte), front.length = 8 →
    ∃ w, headerFormat (front ++ [comp, adepth, acomp, mips] ++ back) = some w ∧
      fmtComp w = comp ∧ fmtAdepth w = adepth ∧ fmtAcomp w = acomp ∧ fmtMips w = mips ∧
      decodeBytes [comp, adepth, acomp, mips] = .ok (decodeFormat w)

/-! ### Reset -/

/-- After reset every register reads 0, every cell is unwritten, every engine is idle, FAULTS is empty and ROM holds the tables
of R26, for every choice of the parameters (R30). -/
def Obligations.ResetLeavesR30 : Prop :=
  ∀ cfg : Config, (State.resetWith cfg).cfg = cfg ∧ (State.resetWith cfg).insts.length = cfg.nInst ∧
    ∀ (k : Nat) (x : Bcdec), (State.resetWith cfg).insts[k]? = some x →
      statusWord x.status = 0 ∧ x.format = 0 ∧ x.width = 0 ∧ x.height = 0 ∧ x.srcLen = 0 ∧ x.outCount = 0 ∧
      (∀ a, Memory.read x.src a = none) ∧ (∀ i, Memory.read x.pal i = none) ∧ (∀ j, Memory.read x.dst j = none) ∧
      x.job.phase = .idle ∧ x.faults = [] ∧
      romAlpha1 0 = 0x00 ∧ romAlpha1 1 = 0xFF ∧ ∀ v : BitVec 4, (romAlpha4 v).toNat = 17 * v.toNat

/-- The invariant holds after reset, for every legal choice of the parameters. -/
def Obligations.ResetMeetsInvariant : Prop :=
  State.reset.Inv ∧ ∀ cfg : Config, cfg.Valid → (State.resetWith cfg).Inv

/-- A reset during a run (R118): that engine's registers, buffers and phase are as after reset, its FAULTS stand as they
were, a job is abandoned, and no other engine changes. -/
def Obligations.ResetTurnResetsOneEngine : Prop :=
  ∀ (s : State) (k : Nat) (x : Bcdec) (ts : List Turn), stuckCode s = none → s.turns = .reset k :: ts → s.insts[k]? = some x →
    ∃ (t : State) (y : Bcdec), step s = .next t ∧ t.turns = ts ∧ t.insts[k]? = some y ∧
      statusWord y.status = 0 ∧ y.format = 0 ∧ y.width = 0 ∧ y.height = 0 ∧ y.srcLen = 0 ∧ y.outCount = 0 ∧
      (∀ a, Memory.read y.src a = none) ∧ (∀ i, Memory.read y.pal i = none) ∧ (∀ j, Memory.read y.dst j = none) ∧
      y.job.phase = .idle ∧ y.faults = x.faults ∧
      ∀ j, j ≠ k → t.insts[j]? = s.insts[j]?

/-- What a host reads right after reset, and the job that a START right after reset runs (R119). -/
def Obligations.ReadsAfterReset : Prop :=
  ∀ cfg : Config, cfg.Valid →
    (∀ (r : Reg) (data : Word), exec (.rd (regOffset r) data) (State.resetWith cfg) =
      .next { State.resetWith cfg with replies := [(0, 0)] }) ∧
    (∀ (a data : Word), a.toNat < cfg.srcCap →
      exec (.rdsrc a data) (State.resetWith cfg) = .fault (.unwrittenSrc a.toNat)) ∧
    (∀ (i data : Word), i.toNat < 256 → exec (.rdpal i data) (State.resetWith cfg) = .fault (.unwrittenPal i.toNat)) ∧
    (∀ (j data : Word), j.toNat < cfg.dstCap →
      exec (.rddst j data) (State.resetWith cfg) = .fault (.unwrittenDst j.toNat)) ∧
    ∃ (t : State) (y : Bcdec), Host.Core.run Sys2Proof.core 2 { State.resetWith cfg with turns := [.host 0 asmStart, .engine 0] } = .next t ∧
      t.insts[0]? = some y ∧ statusWord y.status = 0x00000002 ∧ y.outCount = 0 ∧ y.job.phase = .idle ∧ y.job.kind = .pal0 ∧
      ∀ j, Memory.read y.dst j = none

/-! ### Host transactions -/

/-- A register read returns the register's value and changes nothing; an offset that is no multiple of 4 or is 0x20 or more is
refused, REG_ACCESS (R69). -/
def Obligations.RegReadReturns : Prop :=
  ∀ (s : State) (x : Bcdec) (data : Word), Selected s x →
    exec (.rd 0x00 data) s = .next { s with replies := (s.sel, 0) :: s.replies } ∧
    exec (.rd 0x04 data) s = .next { s with replies := (s.sel,
      (0#16 ++ x.status.errcode ++ 0#4 ++ BitVec.ofBool x.status.wbusy ++ BitVec.ofBool x.status.error ++
        BitVec.ofBool x.status.done ++ BitVec.ofBool x.status.busy : BitVec 32)) :: s.replies } ∧
    exec (.rd 0x08 data) s = .next { s with replies := (s.sel, x.format) :: s.replies } ∧
    exec (.rd 0x0C data) s = .next { s with replies := (s.sel, x.width) :: s.replies } ∧
    exec (.rd 0x10 data) s = .next { s with replies := (s.sel, x.height) :: s.replies } ∧
    exec (.rd 0x14 data) s = .next { s with replies := (s.sel, x.srcLen) :: s.replies } ∧
    exec (.rd 0x18 data) s = .next { s with replies := (s.sel, x.outCount) :: s.replies } ∧
    exec (.rd 0x1C data) s = .next { s with replies := (s.sel, 0) :: s.replies } ∧
    ∀ off : Word, (off.toNat % 4 ≠ 0 ∨ 0x20 ≤ off.toNat) → exec (.rd off data) s = .refused .regAccess

/-- A register write (R68): a configuration register stores any value while idle; while BUSY the write is ignored and sets
WBUSY; a write to STATUS, OUT_COUNT or 0x1C, or to CTRL with bit 0 clear, has no effect; one to CTRL with bit 0 set is a
START; an offset that is no multiple of 4 or is 0x20 or more is refused, REG_ACCESS. -/
def Obligations.RegWriteStores : Prop :=
  ∀ (s : State) (x : Bcdec) (v : Word), Selected s x →
    (x.status.busy = false →
      exec (.wr 0x08 v) s = .next (putSel s { x with format := v }) ∧
      exec (.wr 0x0C v) s = .next (putSel s { x with width := v }) ∧
      exec (.wr 0x10 v) s = .next (putSel s { x with height := v }) ∧
      exec (.wr 0x14 v) s = .next (putSel s { x with srcLen := v })) ∧
    (x.status.busy = true → ∀ off : Word, off = 0x08 ∨ off = 0x0C ∨ off = 0x10 ∨ off = 0x14 →
      exec (.wr off v) s = .next (putSel s { x with status := { x.status with wbusy := true } })) ∧
    (∀ off : Word, off = 0x04 ∨ off = 0x18 ∨ off = 0x1C → exec (.wr off v) s = .next s) ∧
    (v.getLsbD 0 = false → exec (.wr 0x00 v) s = .next s) ∧
    (v.getLsbD 0 = true → exec (.wr 0x00 v) s = .next (putSel s (doStart x))) ∧
    ∀ off : Word, (off.toNat % 4 ≠ 0 ∨ 0x20 ≤ off.toNat) → exec (.wr off v) s = .refused .regAccess

/-- START (R75), as `start` and as a `wr` to CTRL with bit 0 set: while BUSY it is ignored and sets WBUSY; else the four
configuration registers are latched, STATUS shows BUSY alone, OUT_COUNT is 0 and the job is in CHECK. -/
def Obligations.StartLatchesJob : Prop :=
  ∀ (s : State) (x : Bcdec) (high : BitVec 31) (v : Word), Selected s x → v.getLsbD 0 = true →
    exec (.wr 0x00 v) s = exec (.start high) s ∧
    (x.status.busy = true →
      exec (.start high) s = .next (putSel s { x with status := { x.status with wbusy := true } })) ∧
    (x.status.busy = false →
      exec (.start high) s = .next (putSel s { x with
        status := { busy := true, done := false, error := false, wbusy := false, errcode := 0 }
        outCount := 0
        job := { x.job with phase := .check, fmt := x.format, w := x.width, h := x.height, len := x.srcLen } }))

/-- `wrsrc` (R70): refused at SRC_CAP and above; while BUSY ignored, setting WBUSY; else cell `a` holds bits 7:0 of the data
word, every other cell keeps its value, and nothing else changes. -/
def Obligations.SrcWriteStoresByte : Prop :=
  ∀ (s : State) (x : Bcdec) (a v : Word), Selected s x →
    (s.cfg.srcCap ≤ a.toNat → exec (.wrsrc a v) s = .refused .srcRange) ∧
    (a.toNat < s.cfg.srcCap → x.status.busy = true →
      exec (.wrsrc a v) s = .next (putSel s { x with status := { x.status with wbusy := true } })) ∧
    (a.toNat < s.cfg.srcCap → x.status.busy = false →
      ∃ m, exec (.wrsrc a v) s = .next (putSel s { x with src := m }) ∧
        Memory.read m a.toNat = some (BitVec.ofNat 8 (v.toNat % 256)) ∧
        ∀ b, b ≠ a.toNat → Memory.read m b = Memory.read x.src b)

/-- `rdsrc` (R71): refused at SRC_CAP and above; a model fault on an unwritten cell; else it returns the byte, BUSY or not,
and changes nothing. -/
def Obligations.SrcReadReturnsByte : Prop :=
  ∀ (s : State) (x : Bcdec) (a data : Word), Selected s x →
    (s.cfg.srcCap ≤ a.toNat → exec (.rdsrc a data) s = .refused .srcRange) ∧
    (a.toNat < s.cfg.srcCap → Memory.read x.src a.toNat = none →
      exec (.rdsrc a data) s = .fault (.unwrittenSrc a.toNat)) ∧
    (∀ b : Byte, a.toNat < s.cfg.srcCap → Memory.read x.src a.toNat = some b →
      exec (.rdsrc a data) s = .next { s with replies := (s.sel, BitVec.ofNat 32 b.toNat) :: s.replies })

/-- `wrpal` (R72): refused at 256 and above; while BUSY ignored, setting WBUSY; else entry `i` holds all 32 bits, every other
entry keeps its value, and nothing else changes. -/
def Obligations.PalWriteStoresEntry : Prop :=
  ∀ (s : State) (x : Bcdec) (i v : Word), Selected s x →
    (256 ≤ i.toNat → exec (.wrpal i v) s = .refused .palRange) ∧
    (i.toNat < 256 → x.status.busy = true →
      exec (.wrpal i v) s = .next (putSel s { x with status := { x.status with wbusy := true } })) ∧
    (i.toNat < 256 → x.status.busy = false →
      ∃ m, exec (.wrpal i v) s = .next (putSel s { x with pal := m }) ∧ Memory.read m i.toNat = some v ∧
        ∀ j, j ≠ i.toNat → Memory.read m j = Memory.read x.pal j)

/-- `rdpal` (R73): refused at 256 and above; a model fault on an unwritten entry; else it returns all 32 bits, BUSY or not,
and changes nothing. -/
def Obligations.PalReadReturnsEntry : Prop :=
  ∀ (s : State) (x : Bcdec) (i data : Word), Selected s x →
    (256 ≤ i.toNat → exec (.rdpal i data) s = .refused .palRange) ∧
    (i.toNat < 256 → Memory.read x.pal i.toNat = none → exec (.rdpal i data) s = .fault (.unwrittenPal i.toNat)) ∧
    (∀ v : Word, i.toNat < 256 → Memory.read x.pal i.toNat = some v →
      exec (.rdpal i data) s = .next { s with replies := (s.sel, v) :: s.replies })

/-- `rddst` (R74): refused at DST_CAP and above; while BUSY it returns a draw, of whatever value; else a model fault on an
unwritten cell, or the cell's word. It changes nothing but what the host has been told. -/
def Obligations.DstReadReturnsTexel : Prop :=
  ∀ (s : State) (x : Bcdec) (j data : Word), Selected s x →
    (s.cfg.dstCap ≤ j.toNat → exec (.rddst j data) s = .refused .dstRange) ∧
    (j.toNat < s.cfg.dstCap → x.status.busy = true →
      ∃ v, exec (.rddst j data) s = .next { s with replies := (s.sel, v) :: s.replies, draws := s.draws + 1 }) ∧
    (j.toNat < s.cfg.dstCap → x.status.busy = false → Memory.read x.dst j.toNat = none →
      exec (.rddst j data) s = .fault (.unwrittenDst j.toNat)) ∧
    (∀ v : Word, j.toNat < s.cfg.dstCap → x.status.busy = false → Memory.read x.dst j.toNat = some v →
      exec (.rddst j data) s = .next { s with replies := (s.sel, v) :: s.replies })

/-- Transaction kind 7 is refused, TXN_KIND, in every state (R66, R109). -/
def Obligations.ReservedKindRefused : Prop :=
  ∀ (s : State) (addr : Word) (data : Word), exec (.reservedKind7 addr data) s = .refused .txnKind

/-- No read has a side effect (R38): a read transaction changes no engine. -/
def Obligations.ReadsHaveNoSideEffect : Prop :=
  ∀ (i : Instr) (s : State) (t : State), ((∃ off d, i = .rd off d) ∨ (∃ a d, i = .rdsrc a d) ∨ (∃ a d, i = .rdpal a d) ∨ (∃ j d, i = .rddst j d)) →
    exec i s = .next t →
    t.insts = s.insts ∧ t.cfg = s.cfg ∧ t.turns = s.turns ∧ t.sel = s.sel ∧
      ∃ v, t.replies = (s.sel, v) :: s.replies

/-- The frame of the write transactions: `wr`, `start`, `wrsrc` and `wrpal` change at most the selected engine, and of it never
DSTMEM, FAULTS, the error code but by a START, nor the latched kind, total and cursor; only `wrsrc` can change SRCMEM
and only at its address, only `wrpal` PALMEM and only at its index. -/
def Obligations.HostWritesFrame : Prop :=
  ∀ (i : Instr) (s : State) (t : State) (x : Bcdec), Selected s x →
    ((∃ off v, i = .wr off v) ∨ (∃ h, i = .start h) ∨ (∃ a d, i = .wrsrc a d) ∨ (∃ a d, i = .wrpal a d)) →
    exec i s = .next t →
    OnlyEngine s.sel s t ∧
    ∃ y, Selected t y ∧ y.dst = x.dst ∧ y.faults = x.faults ∧
      y.job.kind = x.job.kind ∧ y.job.total = x.job.total ∧ y.job.cur = x.job.cur ∧
      ((∀ a d, i ≠ .wrsrc a d) → y.src = x.src) ∧
      (∀ a d, i = .wrsrc a d → ∀ b, b ≠ a.toNat → Memory.read y.src b = Memory.read x.src b) ∧
      ((∀ a d, i ≠ .wrpal a d) → y.pal = x.pal) ∧
      (∀ a d, i = .wrpal a d → ∀ b, b ≠ a.toNat → Memory.read y.pal b = Memory.read x.pal b) ∧
      ((∀ off v, i ≠ .wr off v) → y.format = x.format ∧ y.width = x.width ∧ y.height = x.height ∧ y.srcLen = x.srcLen) ∧
      (∀ off v, i = .wr off v →
        (off ≠ 0x08 → y.format = x.format) ∧ (off ≠ 0x0C → y.width = x.width) ∧
        (off ≠ 0x10 → y.height = x.height) ∧ (off ≠ 0x14 → y.srcLen = x.srcLen)) ∧
      (((∀ h, i ≠ .start h) ∧ (∀ v : Word, v.getLsbD 0 = true → i ≠ .wr 0x00 v)) →
        y.outCount = x.outCount ∧ y.job = x.job ∧ y.status.busy = x.status.busy ∧ y.status.done = x.status.done ∧
        y.status.error = x.status.error ∧ y.status.errcode = x.status.errcode)

/-- While a job runs, no host transaction of any kind changes anything of its engine but WBUSY (R45): "nothing the host does
after an accepted START changes the job it started". -/
def Obligations.HostCannotTouchRunningJob : Prop :=
  ∀ (w : Txn) (s t : State) (x : Bcdec), Selected s x → x.status.busy = true → exec (decodeTxn w) s = .next t →
    ∃ y, Selected t y ∧ (y = x ∨ y = { x with status := { x.status with wbusy := true } }) ∧
      ∀ j, j ≠ s.sel → t.insts[j]? = s.insts[j]?

/-! ### The job: CHECK -/

/-- CHECK (R78) for the seven kinds: dimensions before length, each with its error; a job without units ends well at once;
any other goes on to RUN with its latches. No register, buffer or latch else changes. -/
def Obligations.CheckOutcome : Prop :=
  ∀ (i : Instr) (k : JobKind) (s : State) (x : Bcdec), instrKind i = some k → InCheck s x →
    ∃ y, exec i s = .next (putSel s y) ∧ SameInputs x y ∧ y.dst = x.dst ∧
      ((x.job.w.toInt < 0 ∨ x.job.h.toInt < 0 ∨ (s.cfg.dstCap : Int) < x.job.w.toInt * x.job.h.toInt) →
        JobEnded x y true 6 0 ∧ y.job = { x.job with phase := .idle }) ∧
      (∀ w h : Nat, x.job.w.toInt = w → x.job.h.toInt = h → w * h ≤ s.cfg.dstCap →
        ((s.cfg.srcCap < x.job.len.toNat ∨ x.job.len.toNat < reqLen k w h) →
          JobEnded x y true 1 0 ∧ y.job = { x.job with phase := .idle }) ∧
        (x.job.len.toNat ≤ s.cfg.srcCap → reqLen k w h ≤ x.job.len.toNat →
          y.job.kind = k ∧ y.job.total = units k w h ∧ y.job.cur = 0 ∧
          (units k w h = 0 → JobEnded x y false 0 0) ∧
          (units k w h ≠ 0 → y.job.phase = .run ∧ y.status = x.status ∧ y.outCount = x.outCount)))

/-- The required length and the number of units of each kind (R76, R77); a job has no unit exactly when it has no pixel. -/
def Obligations.RequiredLengthAndUnits : Prop :=
  ∀ w h : Nat,
    reqLen .bc1 w h = (w + 3) / 4 * ((h + 3) / 4) * 8 ∧
    reqLen .bc2 w h = (w + 3) / 4 * ((h + 3) / 4) * 16 ∧
    reqLen .bc3 w h = (w + 3) / 4 * ((h + 3) / 4) * 16 ∧
    reqLen .pal0 w h = w * h ∧
    reqLen .pal1 w h = w * h + (w * h + 7) / 8 ∧
    reqLen .pal4 w h = w * h + (w * h + 1) / 2 ∧
    reqLen .pal8 w h = 2 * (w * h) ∧
    (∀ k, k = .bc1 ∨ k = .bc2 ∨ k = .bc3 → units k w h = (w + 3) / 4 * ((h + 3) / 4)) ∧
    (∀ k, k = .pal0 ∨ k = .pal1 ∨ k = .pal4 ∨ k = .pal8 → units k w h = w * h) ∧
    ∀ k, units k w h = 0 ↔ w * h = 0

/-- A job reports the first error in the order of R106: format or depth, then dimensions, then length, each with its code of
R104; without an error the code is 0. ERROR is 1 exactly with a code. -/
def Obligations.ErrorPriority : Prop :=
  ∀ (s : State) (x : Bcdec), InCheck s x → x.Inv s.cfg →
    ∃ y, exec (decodeFormat x.job.fmt) s = .next (putSel s y) ∧
      y.status.errcode =
        (match kindOf x.job.fmt with
          | .error .unsupportedFormat => 2
          | .error .unsupportedAlphaDepth => 3
          | .ok k =>
            if x.job.w.toInt < 0 ∨ x.job.h.toInt < 0 ∨ (s.cfg.dstCap : Int) < x.job.w.toInt * x.job.h.toInt then 6
            else if s.cfg.srcCap < x.job.len.toNat ∨ x.job.len.toNat < reqLen k (jobW x) (jobH x) then 1
            else 0) ∧
      (y.status.error = true ↔ y.status.errcode ≠ 0)

/-- An illegal FORMAT word ends a job in CHECK with its code, writing nothing else (R49, R104, R105). -/
def Obligations.IllegalWordsRaise : Prop :=
  ∀ (s : State) (x : Bcdec) (comp adepth acomp mips : Byte), InCheck s x →
    (∃ y, exec (.illegalFormat adepth acomp mips) s = .next (putSel s y) ∧
      JobEnded x y true 2 0 ∧ SameInputs x y ∧ y.dst = x.dst ∧
      y.job.kind = x.job.kind ∧ y.job.total = x.job.total ∧ y.job.cur = x.job.cur) ∧
    (∃ y, exec (.illegalAlphaDepth comp adepth acomp mips) s = .next (putSel s y) ∧
      JobEnded x y true 3 0 ∧ SameInputs x y ∧ y.dst = x.dst ∧
      y.job.kind = x.job.kind ∧ y.job.total = x.job.total ∧ y.job.cur = x.job.cur)

/-- After a successful CHECK every engine index is in range (R78): a block's bytes and a pixel's plane byte lie below reqLen,
which is at most JOB.LEN and SRC_CAP, and a cell written lies below W * H, at most DST_CAP. -/
def Obligations.EngineIndicesInRange : Prop :=
  ∀ (cfg : Config) (x : Bcdec), Running cfg x →
    reqLen x.job.kind (jobW x) (jobH x) ≤ x.job.len.toNat ∧ x.job.len.toNat ≤ cfg.srcCap ∧
    jobPixels x ≤ cfg.dstCap ∧
    ((x.job.kind = .bc1 ∨ x.job.kind = .bc2 ∨ x.job.kind = .bc3) →
      x.job.cur * blockBytes x.job.kind + blockBytes x.job.kind ≤ reqLen x.job.kind (jobW x) (jobH x) ∧
      ∀ p j, blockCell (jobW x) (jobH x) (x.job.cur % ceilDiv (jobW x) 4) (x.job.cur / ceilDiv (jobW x) 4) p = some j →
        j < jobPixels x) ∧
    ((x.job.kind = .pal0 ∨ x.job.kind = .pal1 ∨ x.job.kind = .pal4 ∨ x.job.kind = .pal8) →
      x.job.cur < jobPixels x) ∧
    (x.job.kind = .pal1 → jobPixels x + x.job.cur / 8 < reqLen .pal1 (jobW x) (jobH x)) ∧
    (x.job.kind = .pal4 → jobPixels x + x.job.cur / 2 < reqLen .pal4 (jobW x) (jobH x)) ∧
    (x.job.kind = .pal8 → jobPixels x + x.job.cur < reqLen .pal8 (jobW x) (jobH x))

/-! ### The job: RUN, palette kinds -/

/-- PAL0 (R86, R87): pixel `i = JOB.CUR` gets `{0xFF, palette[ix][23:0]}`. No other cell changes, and the unit ends as R79
says. -/
def Obligations.Pal0DecodesPixel : Prop :=
  ∀ (s : State) (x : Bcdec) (comp acomp mips ix : Byte) (e : Word), InRun s x →
    Memory.read x.src x.job.cur = some ix → Memory.read x.pal ix.toNat = some e →
    ∃ y, exec (.pal0 comp acomp mips) s = .next (putSel s y) ∧ UnitDone x y ∧
      Memory.read y.dst x.job.cur = some (0xFF#8 ++ e.extractLsb' 0 24) ∧
      ∀ j, j ≠ x.job.cur → Memory.read y.dst j = Memory.read x.dst j

/-- PAL1 (R86, R88): the alpha is 0xFF or 0x00 by bit `i mod 8` of the plane byte at `n + i div 8`. -/
def Obligations.Pal1DecodesPixel : Prop :=
  ∀ (s : State) (x : Bcdec) (comp acomp mips ix b : Byte) (e : Word) (w h : Nat), InRun s x →
    x.job.w.toInt = w → x.job.h.toInt = h →
    Memory.read x.src x.job.cur = some ix → Memory.read x.src (w * h + x.job.cur / 8) = some b →
    Memory.read x.pal ix.toNat = some e →
    ∃ y, exec (.pal1 comp acomp mips) s = .next (putSel s y) ∧ UnitDone x y ∧
      Memory.read y.dst x.job.cur =
        some ((if b.toNat / 2 ^ (x.job.cur % 8) % 2 = 1 then 0xFF#8 else 0x00#8) ++ e.extractLsb' 0 24) ∧
      ∀ j, j ≠ x.job.cur → Memory.read y.dst j = Memory.read x.dst j

/-- PAL4 (R86, R89): the alpha is 17 times the nibble `i mod 2` of the plane byte at `n + i div 2`. -/
def Obligations.Pal4DecodesPixel : Prop :=
  ∀ (s : State) (x : Bcdec) (comp acomp mips ix b : Byte) (e : Word) (w h : Nat), InRun s x →
    x.job.w.toInt = w → x.job.h.toInt = h →
    Memory.read x.src x.job.cur = some ix → Memory.read x.src (w * h + x.job.cur / 2) = some b →
    Memory.read x.pal ix.toNat = some e →
    ∃ y, exec (.pal4 comp acomp mips) s = .next (putSel s y) ∧ UnitDone x y ∧
      Memory.read y.dst x.job.cur =
        some (BitVec.ofNat 8 (17 * (b.toNat / 16 ^ (x.job.cur % 2) % 16)) ++ e.extractLsb' 0 24) ∧
      ∀ j, j ≠ x.job.cur → Memory.read y.dst j = Memory.read x.dst j

/-- PAL8 (R86, R90): the alpha is the plane byte at `n + i`. -/
def Obligations.Pal8DecodesPixel : Prop :=
  ∀ (s : State) (x : Bcdec) (comp acomp mips ix b : Byte) (e : Word) (w h : Nat), InRun s x →
    x.job.w.toInt = w → x.job.h.toInt = h →
    Memory.read x.src x.job.cur = some ix → Memory.read x.src (w * h + x.job.cur) = some b →
    Memory.read x.pal ix.toNat = some e →
    ∃ y, exec (.pal8 comp acomp mips) s = .next (putSel s y) ∧ UnitDone x y ∧
      Memory.read y.dst x.job.cur = some (b ++ e.extractLsb' 0 24) ∧
      ∀ j, j ≠ x.job.cur → Memory.read y.dst j = Memory.read x.dst j

/-! ### The job: RUN, block kinds -/

/-- BC1 (R98, R102): the block of unit `u` is the 8 bytes from `8 * u`. The pixel at (x, y) of the block inside the image goes to
cell `y * W + x` with alpha 0xFF and the colour its 2-bit index selects. Every other cell keeps its value. -/
def Obligations.Bc1DecodesBlock : Prop :=
  ∀ (s : State) (x : Bcdec) (adepth mips : Byte) (w h : Nat) (b0 b1 b2 b3 b4 b5 b6 b7 : Byte), InRun s x →
    x.job.w.toInt = w → x.job.h.toInt = h →
    SrcHolds x (x.job.cur * 8) [b0, b1, b2, b3, b4, b5, b6, b7] →
    ∃ y, exec (.bc1 adepth mips) s = .next (putSel s y) ∧ UnitDone x y ∧
      (∀ p, p < 16 → 4 * (x.job.cur % ((w + 3) / 4)) + p % 4 < w → 4 * (x.job.cur / ((w + 3) / 4)) + p / 4 < h →
        Memory.read y.dst ((4 * (x.job.cur / ((w + 3) / 4)) + p / 4) * w + (4 * (x.job.cur % ((w + 3) / 4)) + p % 4)) =
          some (texelWord 0xFF (pickColour (colourTable (b1 ++ b0) (b3 ++ b2))
            (BitVec.ofNat 2 ((b7 ++ b6 ++ b5 ++ b4 : BitVec 32).toNat / 4 ^ p))))) ∧
      ∀ j, (∀ p, p < 16 → 4 * (x.job.cur % ((w + 3) / 4)) + p % 4 < w → 4 * (x.job.cur / ((w + 3) / 4)) + p / 4 < h →
          j ≠ (4 * (x.job.cur / ((w + 3) / 4)) + p / 4) * w + (4 * (x.job.cur % ((w + 3) / 4)) + p % 4)) →
        Memory.read y.dst j = Memory.read x.dst j

/-- BC2 (R99, R102): as BC1 with blocks of 16 bytes; bytes 0 to 7 are the alpha field, whose nibble p, times 17, is pixel p's
alpha. -/
def Obligations.Bc2DecodesBlock : Prop :=
  ∀ (s : State) (x : Bcdec) (adepth mips : Byte) (w h : Nat) (a0 a1 a2 a3 a4 a5 a6 a7 b0 b1 b2 b3 b4 b5 b6 b7 : Byte), InRun s x →
    x.job.w.toInt = w → x.job.h.toInt = h →
    SrcHolds x (x.job.cur * 16) [a0, a1, a2, a3, a4, a5, a6, a7, b0, b1, b2, b3, b4, b5, b6, b7] →
    ∃ y, exec (.bc2 adepth mips) s = .next (putSel s y) ∧ UnitDone x y ∧
      (∀ p, p < 16 → 4 * (x.job.cur % ((w + 3) / 4)) + p % 4 < w → 4 * (x.job.cur / ((w + 3) / 4)) + p / 4 < h →
        Memory.read y.dst ((4 * (x.job.cur / ((w + 3) / 4)) + p / 4) * w + (4 * (x.job.cur % ((w + 3) / 4)) + p % 4)) =
          some (texelWord
            (BitVec.ofNat 8 (17 * ((a7 ++ a6 ++ a5 ++ a4 ++ a3 ++ a2 ++ a1 ++ a0 : BitVec 64).toNat / 16 ^ p % 16)))
            (pickColour (colourTable (b1 ++ b0) (b3 ++ b2))
              (BitVec.ofNat 2 ((b7 ++ b6 ++ b5 ++ b4 : BitVec 32).toNat / 4 ^ p))))) ∧
      ∀ j, (∀ p, p < 16 → 4 * (x.job.cur % ((w + 3) / 4)) + p % 4 < w → 4 * (x.job.cur / ((w + 3) / 4)) + p / 4 < h →
          j ≠ (4 * (x.job.cur / ((w + 3) / 4)) + p / 4) * w + (4 * (x.job.cur % ((w + 3) / 4)) + p % 4)) →
        Memory.read y.dst j = Memory.read x.dst j

/-- BC3 (R101, R102): as BC1 with blocks of 16 bytes; bytes 0 and 1 are the alpha endpoints, bytes 2 to 7 the 3-bit indices
into the alpha table of R100. -/
def Obligations.Bc3DecodesBlock : Prop :=
  ∀ (s : State) (x : Bcdec) (adepth mips : Byte) (w h : Nat) (a0 a1 i0 i1 i2 i3 i4 i5 b0 b1 b2 b3 b4 b5 b6 b7 : Byte), InRun s x →
    x.job.w.toInt = w → x.job.h.toInt = h →
    SrcHolds x (x.job.cur * 16) [a0, a1, i0, i1, i2, i3, i4, i5, b0, b1, b2, b3, b4, b5, b6, b7] →
    ∃ y, exec (.bc3 adepth mips) s = .next (putSel s y) ∧ UnitDone x y ∧
      (∀ p, p < 16 → 4 * (x.job.cur % ((w + 3) / 4)) + p % 4 < w → 4 * (x.job.cur / ((w + 3) / 4)) + p / 4 < h →
        Memory.read y.dst ((4 * (x.job.cur / ((w + 3) / 4)) + p / 4) * w + (4 * (x.job.cur % ((w + 3) / 4)) + p % 4)) =
          some (texelWord
            (alphaEntry a0 a1 (BitVec.ofNat 3 ((i5 ++ i4 ++ i3 ++ i2 ++ i1 ++ i0 : BitVec 48).toNat / 8 ^ p)))
            (pickColour (colourTable (b1 ++ b0) (b3 ++ b2))
              (BitVec.ofNat 2 ((b7 ++ b6 ++ b5 ++ b4 : BitVec 32).toNat / 4 ^ p))))) ∧
      ∀ j, (∀ p, p < 16 → 4 * (x.job.cur % ((w + 3) / 4)) + p % 4 < w → 4 * (x.job.cur / ((w + 3) / 4)) + p / 4 < h →
          j ≠ (4 * (x.job.cur / ((w + 3) / 4)) + p / 4) * w + (4 * (x.job.cur % ((w + 3) / 4)) + p % 4)) →
        Memory.read y.dst j = Memory.read x.dst j

/-- The expansion of an endpoint (R92): each field is replicated to 8 bits, and distinct fields give distinct bytes, in order. -/
def Obligations.ExpandReplicatesBits : Prop :=
  (∀ c : BitVec 16,
    (expand c).x0.toNat = 8 * (c.toNat % 32) + c.toNat % 32 / 4 ∧
    (expand c).x1.toNat = 4 * (c.toNat / 32 % 64) + c.toNat / 32 % 64 / 16 ∧
    (expand c).x2.toNat = 8 * (c.toNat / 2048) + c.toNat / 2048 / 4) ∧
  (∀ c d : BitVec 16, c.toNat % 32 < d.toNat % 32 → (expand c).x0.toNat < (expand d).x0.toNat) ∧
  (∀ c d : BitVec 16, c.toNat / 32 % 64 < d.toNat / 32 % 64 → (expand c).x1.toNat < (expand d).x1.toNat) ∧
  (∀ c d : BitVec 16, c.toNat / 2048 < d.toNat / 2048 → (expand c).x2.toNat < (expand d).x2.toNat)

/-- The four-colour mode (R93, R94, R96), in each component: truncated thirds of the expanded endpoints, and
`C3 + C4` falls short of `E1 + E2` by 0 or 1. Index 0 selects c1, 1 selects c2, 2 selects C3 and 3 selects C4 (R55). A texel
word has alpha in bits 31:24, X2 in 23:16, X1 in 15:8 and X0 in 7:0 (R64, 90 C6). -/
def Obligations.FourColourTable : Prop :=
  ∀ c1 c2 : BitVec 16, c2.toNat < c1.toNat →
    (colourTable c1 c2).p0 = expand c1 ∧ (colourTable c1 c2).p1 = expand c2 ∧
    (∀ f : Colour → Byte, f = Colour.x0 ∨ f = Colour.x1 ∨ f = Colour.x2 →
      (f (colourTable c1 c2).p2).toNat = (2 * (f (expand c1)).toNat + (f (expand c2)).toNat) / 3 ∧
      (f (colourTable c1 c2).p3).toNat = ((f (expand c1)).toNat + 2 * (f (expand c2)).toNat) / 3 ∧
      (f (colourTable c1 c2).p2).toNat + (f (colourTable c1 c2).p3).toNat ≤ (f (expand c1)).toNat + (f (expand c2)).toNat ∧
      (f (expand c1)).toNat + (f (expand c2)).toNat ≤
        (f (colourTable c1 c2).p2).toNat + (f (colourTable c1 c2).p3).toNat + 1 ∧
      (f (pickColour (colourTable c1 c2) 2)).toNat = (2 * (f (expand c1)).toNat + (f (expand c2)).toNat) / 3 ∧
      (f (pickColour (colourTable c1 c2) 3)).toNat = ((f (expand c1)).toNat + 2 * (f (expand c2)).toNat) / 3) ∧
    pickColour (colourTable c1 c2) 0 = expand c1 ∧ pickColour (colourTable c1 c2) 1 = expand c2 ∧
    ∀ (a : Byte) (c : Colour),
      (texelWord a c).extractLsb' 24 8 = a ∧ (texelWord a c).extractLsb' 16 8 = c.x2 ∧
      (texelWord a c).extractLsb' 8 8 = c.x1 ∧ (texelWord a c).extractLsb' 0 8 = c.x0

/-- The three-colour mode (R93, R95, R96), in each component: the truncated half, and black. Equal endpoints are in this
mode, and then the half is the endpoint; a BC1 texel with index 3 is opaque black. Index 0 selects c1, 1 selects c2, 2 the
half and 3 black (R55), and a texel word has alpha in bits 31:24, X2 in 23:16, X1 in 15:8 and X0 in 7:0 (R64, 90 C6). -/
def Obligations.ThreeColourTable : Prop :=
  ∀ c1 c2 : BitVec 16, c1.toNat ≤ c2.toNat →
    (colourTable c1 c2).p0 = expand c1 ∧ (colourTable c1 c2).p1 = expand c2 ∧
    (colourTable c1 c2).p3 = { x0 := 0, x1 := 0, x2 := 0 } ∧
    (∀ f : Colour → Byte, f = Colour.x0 ∨ f = Colour.x1 ∨ f = Colour.x2 →
      (f (colourTable c1 c2).p2).toNat = ((f (expand c1)).toNat + (f (expand c2)).toNat) / 2) ∧
    (c1 = c2 → (colourTable c1 c2).p2 = expand c1) ∧
    texelWord 0xFF (pickColour (colourTable c1 c2) 3) = 0xFF000000 ∧
    pickColour (colourTable c1 c2) 0 = expand c1 ∧ pickColour (colourTable c1 c2) 1 = expand c2 ∧
    (∀ f : Colour → Byte, f = Colour.x0 ∨ f = Colour.x1 ∨ f = Colour.x2 →
      (f (pickColour (colourTable c1 c2) 2)).toNat = ((f (expand c1)).toNat + (f (expand c2)).toNat) / 2) ∧
    pickColour (colourTable c1 c2) 3 = { x0 := 0, x1 := 0, x2 := 0 } ∧
    ∀ (a : Byte) (c : Colour),
      (texelWord a c).extractLsb' 24 8 = a ∧ (texelWord a c).extractLsb' 16 8 = c.x2 ∧
      (texelWord a c).extractLsb' 8 8 = c.x1 ∧ (texelWord a c).extractLsb' 0 8 = c.x0

/-- The BC3 alpha table (R100): its entries in both modes, and the order of the ramp. -/
def Obligations.AlphaTableEntries : Prop :=
  ∀ a1 a2 : Byte,
    alphaEntry a1 a2 0 = a1 ∧ alphaEntry a1 a2 1 = a2 ∧
    (a2.toNat < a1.toNat →
      (∀ i, i < 6 → (alphaEntry a1 a2 (BitVec.ofNat 3 (i + 2))).toNat =
        ((6 - i) * a1.toNat + (1 + i) * a2.toNat) / 7) ∧
      (alphaEntry a1 a2 2).toNat ≤ a1.toNat ∧
      (∀ i, i < 5 → (alphaEntry a1 a2 (BitVec.ofNat 3 (i + 3))).toNat ≤ (alphaEntry a1 a2 (BitVec.ofNat 3 (i + 2))).toNat) ∧
      a2.toNat ≤ (alphaEntry a1 a2 7).toNat ∧
      (a2.toNat + 7 ≤ a1.toNat →
        (alphaEntry a1 a2 2).toNat < a1.toNat ∧
        (∀ i, i < 5 → (alphaEntry a1 a2 (BitVec.ofNat 3 (i + 3))).toNat < (alphaEntry a1 a2 (BitVec.ofNat 3 (i + 2))).toNat) ∧
        a2.toNat < (alphaEntry a1 a2 7).toNat)) ∧
    (a1.toNat ≤ a2.toNat →
      (∀ i, i < 4 → (alphaEntry a1 a2 (BitVec.ofNat 3 (i + 2))).toNat =
        ((4 - i) * a1.toNat + (1 + i) * a2.toNat) / 5) ∧
      alphaEntry a1 a2 6 = 0x00 ∧ alphaEntry a1 a2 7 = 0xFF)

/-- The byte view of DSTMEM (R33): the four bytes of cell `j` are its word's bytes, lowest first. -/
def Obligations.DstByteView : Prop :=
  ∀ (x : Bcdec) (j : Nat) (v : Word), Memory.read x.dst j = some v →
    ∃ b0 b1 b2 b3 : Byte,
      dstByte x (4 * j) = some b0 ∧ dstByte x (4 * j + 1) = some b1 ∧
      dstByte x (4 * j + 2) = some b2 ∧ dstByte x (4 * j + 3) = some b3 ∧
      v.toNat = b0.toNat + 256 * b1.toNat + 65536 * b2.toNat + 16777216 * b3.toNat

/-! ### Model faults and refusals -/

/-- A palette unit that meets an unwritten cell answers that model fault (R34, R35, R86, R108): the index byte first, for every
palette kind, then the plane byte of PAL1, PAL4 and PAL8, and the palette entry, for every palette kind, once index byte and
alpha are read. That order is the model's inference (notes/assumptions/11). -/
def Obligations.PaletteUnitFaults : Prop :=
  ∀ (s : State) (x : Bcdec) (comp acomp mips : Byte), InRun s x →
    (Memory.read x.src x.job.cur = none →
      exec (.pal0 comp acomp mips) s = .fault (.unwrittenSrc x.job.cur) ∧
      exec (.pal1 comp acomp mips) s = .fault (.unwrittenSrc x.job.cur) ∧
      exec (.pal4 comp acomp mips) s = .fault (.unwrittenSrc x.job.cur) ∧
      exec (.pal8 comp acomp mips) s = .fault (.unwrittenSrc x.job.cur)) ∧
    (∀ ix : Byte, Memory.read x.src x.job.cur = some ix →
      (Memory.read x.src (jobPixels x + x.job.cur / 8) = none →
        exec (.pal1 comp acomp mips) s = .fault (.unwrittenSrc (jobPixels x + x.job.cur / 8))) ∧
      (Memory.read x.src (jobPixels x + x.job.cur / 2) = none →
        exec (.pal4 comp acomp mips) s = .fault (.unwrittenSrc (jobPixels x + x.job.cur / 2))) ∧
      (Memory.read x.src (jobPixels x + x.job.cur) = none →
        exec (.pal8 comp acomp mips) s = .fault (.unwrittenSrc (jobPixels x + x.job.cur))) ∧
      (Memory.read x.pal ix.toNat = none →
        exec (.pal0 comp acomp mips) s = .fault (.unwrittenPal ix.toNat) ∧
        (∀ b : Byte, Memory.read x.src (jobPixels x + x.job.cur / 8) = some b →
          exec (.pal1 comp acomp mips) s = .fault (.unwrittenPal ix.toNat)) ∧
        (∀ b : Byte, Memory.read x.src (jobPixels x + x.job.cur / 2) = some b →
          exec (.pal4 comp acomp mips) s = .fault (.unwrittenPal ix.toNat)) ∧
        (∀ b : Byte, Memory.read x.src (jobPixels x + x.job.cur) = some b →
          exec (.pal8 comp acomp mips) s = .fault (.unwrittenPal ix.toNat))))

/-- A block unit whose block holds an unwritten byte answers the model fault of the first one (R34, R102, R108). That it is the
first is the model's inference (notes/assumptions/11). -/
def Obligations.BlockUnitFaults : Prop :=
  ∀ (s : State) (x : Bcdec) (adepth mips : Byte) (a : Nat), InRun s x →
    (FirstUnwritten x (x.job.cur * 8) 8 a → exec (.bc1 adepth mips) s = .fault (.unwrittenSrc a)) ∧
    (FirstUnwritten x (x.job.cur * 16) 16 a →
      exec (.bc2 adepth mips) s = .fault (.unwrittenSrc a) ∧ exec (.bc3 adepth mips) s = .fault (.unwrittenSrc a))

/-- A step whose instruction meets a model fault, or is refused, changes no state but FAULTS, where it is recorded (R108, R109).
The state `u` in which the instruction runs is `s` but for the model's own fields: a turn is taken, if one is left, and its
engine selected (notes/assumptions/26). -/
def Obligations.FaultStepChangesOnlyFaults : Prop :=
  ∀ (s : State) (i : Instr) (u : State) (x : Bcdec) (m : Mark), fetch s = .run i u → Selected u x →
    ((∃ f, exec i u = .fault f ∧ f.recorded = true ∧ m = .fault f) ∨
     (∃ f, exec i u = .refused f ∧ f.recorded = true ∧ m = .refusal f)) →
    u.insts = s.insts ∧ u.cfg = s.cfg ∧ u.draws = s.draws ∧ u.replies = s.replies ∧
    (s.turns = u.turns ∨ s.turns = .engine u.sel :: u.turns ∨ ∃ w, s.turns = .host u.sel w :: u.turns) ∧
    ∃ (t : State) (y : Bcdec), step s = .next t ∧ OnlyEngine u.sel u t ∧ Selected t y ∧
      y = { x with faults := y.faults } ∧ ∀ n, n ∈ y.faults ↔ n ∈ x.faults ∨ n = m

/-- FAULTS only grows (R29): no step, reset among them, removes a mark. -/
def Obligations.FaultsOnlyGrow : Prop :=
  ∀ (s : State) (t : State) (k : Nat) (x : Bcdec) (m : Mark), step s = .next t → s.insts[k]? = some x → m ∈ x.faults →
    ∃ y, t.insts[k]? = some y ∧ m ∈ y.faults

/-- A run that has met a model fault or a refusal has no final state (R108, R109, R128): no later state of it, after any number
of steps, ends well. -/
def Obligations.FaultedRunNeverEndsWell : Prop :=
  ∀ (n : Nat) (s : State) (t : State) (k : Nat) (x : Bcdec), Host.Core.run Sys2Proof.core n s = .next t → s.insts[k]? = some x →
    x.faults ≠ [] → ¬ EndsWell t

/-! ### Steps -/

/-- A host's turn runs its decoded transaction on the engine it names, and the outcome settles as R29 says. -/
def Obligations.HostTurnRunsTransaction : Prop :=
  ∀ (s : State) (k : Nat) (w : Txn) (ts : List Turn) (x : Bcdec), stuckCode s = none → s.turns = .host k w :: ts → s.insts[k]? = some x →
    step s = settle { s with turns := ts, sel := k } (exec (decodeTxn w) { s with turns := ts, sel := k })

/-- An engine's turn in CHECK runs the instruction its JOB.FMT decodes to, and in RUN that of JOB.KIND (R78, R79); the two are
one instruction in a job that CHECK has passed. -/
def Obligations.EngineTurnRunsFormatWord : Prop :=
  ∀ (s : State) (k : Nat) (ts : List Turn) (x : Bcdec), stuckCode s = none → s.turns = .engine k :: ts → s.insts[k]? = some x →
    (x.job.phase = .check →
      step s = settle { s with turns := ts, sel := k } (exec (decodeFormat x.job.fmt) { s with turns := ts, sel := k })) ∧
    (x.job.phase = .run →
      step s = settle { s with turns := ts, sel := k }
        (exec (kindInstr x.job.kind x.job.fmt) { s with turns := ts, sel := k })) ∧
    (x.job.phase = .run → Running s.cfg x → kindInstr x.job.kind x.job.fmt = decodeFormat x.job.fmt)

/-- While idle an engine takes no step and holds all state (R117): its turn changes nothing but the order of turns, and a
system with no job and no turn left stays as it is. The step of such a system is the model's choice
(notes/assumptions/3). -/
def Obligations.IdleHoldsState : Prop :=
  (∀ (s : State) (k : Nat) (ts : List Turn) (x : Bcdec), stuckCode s = none → s.turns = .engine k :: ts → s.insts[k]? = some x → x.job.phase = .idle →
    step s = .next { s with turns := ts }) ∧
  (∀ (s : State), stuckCode s = none → s.turns = [] → (∀ x ∈ s.insts, x.job.phase = .idle) → step s = .next s)

/-- With no turn left, an engine that has a job steps, whatever the others do (R126): the first one counting round from the one
after the engine selected last. That order is the model's choice (notes/assumptions/2). -/
def Obligations.BusyEngineSteps : Prop :=
  ∀ (s : State) (j : Nat) (z : Bcdec), stuckCode s = none → s.turns = [] → s.insts[j]? = some z → z.job.phase ≠ .idle →
    ∃ (k : Nat) (x : Bcdec) (i : Instr), s.insts[k]? = some x ∧ x.job.phase ≠ .idle ∧ engineInstr x = some i ∧
      step s = settle { s with sel := k } (exec i { s with sel := k }) ∧
      (k + (s.insts.length - (s.sel + 1) % s.insts.length)) % s.insts.length ≤
        (j + (s.insts.length - (s.sel + 1) % s.insts.length)) % s.insts.length

/-- A state that holds a reserved error code is stuck (93 U13), and under the invariant none does. -/
def Obligations.ReservedErrorCodeIsStuck : Prop :=
  (∀ s : State, s.Inv → stuckCode s = none) ∧
  (∀ (s : State) (x : Bcdec), x ∈ s.insts → reservedCode x.status.errcode = true → ∃ c, reservedCode c = true ∧
    step s = .fault (.reservedErrCode c))

/-- A step changes at most the engine its turn names (R115), never the parameters nor the number of engines, and takes at
most one turn. -/
def Obligations.StepTouchesOneEngine : Prop :=
  ∀ (s : State) (t : State), step s = .next t →
    t.cfg = s.cfg ∧ t.insts.length = s.insts.length ∧ (t.turns = s.turns ∨ ∃ u, s.turns = u :: t.turns) ∧
    ∃ k, (∀ j, j ≠ k → t.insts[j]? = s.insts[j]?) ∧
      (∀ u ts, s.turns = u :: ts → (u = .engine k ∨ u = .reset k ∨ ∃ w, u = .host k w))

/-- Every step keeps the invariant: canonical buffers within their sizes, a legal STATUS that shows BUSY exactly while a job is
in hand, latches equal to the registers they were taken from, a running job as CHECK found it. -/
def Obligations.StepKeepsInvariant : Prop :=
  ∀ s t : State, s.Inv → step s = .next t → t.Inv

/-- While no job runs, STATUS, OUT_COUNT and DSTMEM keep what the last job left (R16, R107, R121, R124): unless the engine is
reset, a step of any agent leaves them as they are, or is the START that is accepted next. -/
def Obligations.StatusKeepsUntilStart : Prop :=
  ∀ (s : State) (t : State) (k : Nat) (x : Bcdec) (y : Bcdec), step s = .next t → s.Inv → s.insts[k]? = some x → t.insts[k]? = some y →
    x.status.busy = false → (∀ ts, s.turns ≠ .reset k :: ts) →
    y.dst = x.dst ∧
    ((y.status = x.status ∧ y.outCount = x.outCount ∧ y.job = x.job) ∨
     (y.status = { busy := true, done := false, error := false, wbusy := false, errcode := 0 } ∧ y.job.phase = .check ∧
      ∃ w ts, s.turns = .host k w :: ts ∧ ∃ high, decodeTxn w = .start high))

/-- The inputs of a job cannot change while it runs (R45, R81): unless the engine is reset, a step of any agent leaves SRCMEM,
PALMEM, the configuration registers and the latched job of a busy engine as they are. -/
def Obligations.BusyInputsAreFrozen : Prop :=
  ∀ (s : State) (t : State) (k : Nat) (x : Bcdec) (y : Bcdec), step s = .next t → s.Inv → s.insts[k]? = some x → x.status.busy = true → t.insts[k]? = some y →
    (∀ ts, s.turns ≠ .reset k :: ts) →
    y.src = x.src ∧ y.pal = x.pal ∧ y.format = x.format ∧ y.width = x.width ∧ y.height = x.height ∧
      y.srcLen = x.srcLen ∧ y.job.fmt = x.job.fmt ∧ y.job.w = x.job.w ∧ y.job.h = x.job.h ∧ y.job.len = x.job.len

/-- DSTMEM is written by RUN steps alone, and never at W * H or above (R31, R36, R83): a step that changes a cell of it is a
reset, or that engine's own step in RUN, no host's, and the cell lies below W * H, which is at most DST_CAP. -/
def Obligations.OnlyRunWritesDst : Prop :=
  ∀ (s : State) (t : State) (k : Nat) (x : Bcdec) (y : Bcdec) (j : Nat), step s = .next t → s.Inv → s.insts[k]? = some x → t.insts[k]? = some y →
    Memory.read y.dst j ≠ Memory.read x.dst j →
    (∃ ts, s.turns = .reset k :: ts) ∨
    ((s.turns = [] ∨ ∃ ts, s.turns = .engine k :: ts) ∧
      x.job.phase = .run ∧ j < jobPixels x ∧ j < s.cfg.dstCap)

/-- A job that ends with ERROR = 1 has written no cell (R82): the step that ends it is a CHECK step, it writes none, and the
code it leaves is one of 1, 2, 3, 6 (R104). -/
def Obligations.FailedJobWroteNothing : Prop :=
  ∀ (s : State) (t : State) (k : Nat) (x : Bcdec) (y : Bcdec), step s = .next t → s.insts[k]? = some x → t.insts[k]? = some y →
    x.status.error = false → y.status.error = true →
    x.job.phase = .check ∧ y.job.phase = .idle ∧ y.dst = x.dst ∧ y.outCount = 0 ∧
      (y.status.errcode = 1 ∨ y.status.errcode = 2 ∨ y.status.errcode = 3 ∨ y.status.errcode = 6)

/-- A job decodes its image (R81, R126): from CHECK, with the checks of R78 passed and its inputs written (R120), the job ends
well after exactly `1 + TOTAL` engine steps, none fewer leaving it idle, with OUT_COUNT = W * H; cells below W * H hold `decode(KIND, W, H, SRCMEM,
PALMEM)`, every other cell, every input and every other engine stands as it was. -/
def Obligations.JobDecodesImage : Prop :=
  ∀ (s : State) (k : Nat) (kd : JobKind) (x : Bcdec) (rest : List Turn), s.Inv → s.insts[k]? = some x → x.job.phase = .check → kindOf x.job.fmt = .ok kd →
    CheckPasses s.cfg kd x → InputsWritten kd x →
    s.turns = List.replicate (1 + units kd (jobW x) (jobH x)) (.engine k) ++ rest →
    ∃ (t : State) (y : Bcdec), Host.Core.run Sys2Proof.core (1 + units kd (jobW x) (jobH x)) s = .next t ∧
      t.turns = rest ∧ t.insts[k]? = some y ∧ SameInputs x y ∧
      y.job.phase = .idle ∧
      y.status = { busy := false, done := true, error := false, wbusy := x.status.wbusy, errcode := 0 } ∧
      y.outCount.toNat = jobPixels x ∧
      (∀ j, j < jobPixels x → ∃ v, imageTexel kd x.job.w x.job.h x.src x.pal j = .ok v ∧
        Memory.read y.dst j = some v) ∧
      (∀ j, jobPixels x ≤ j → Memory.read y.dst j = Memory.read x.dst j) ∧
      (∀ i, i ≠ k → t.insts[i]? = s.insts[i]?) ∧
      ∀ n, n < 1 + units kd (jobW x) (jobH x) →
        ∃ (u : State) (z : Bcdec), Host.Core.run Sys2Proof.core n s = .next u ∧ u.insts[k]? = some z ∧ z.job.phase ≠ .idle

/-- While a job runs, in whatever order the steps of all agents come, the cells of the units behind the cursor hold their
texels of `decode(KIND, W, H, SRCMEM, PALMEM)` (R79, R81); when the job ends, all cells below W * H do. -/
def Obligations.RunningJobHoldsItsImage : Prop :=
  ∀ (s : State) (t : State) (k : Nat) (x : Bcdec) (y : Bcdec), step s = .next t → s.Inv → s.insts[k]? = some x → t.insts[k]? = some y →
    x.job.phase = .run → (∀ ts, s.turns ≠ .reset k :: ts) → DecodedBelow x x.job.cur →
    (y.job.phase = .run ∧ DecodedBelow y y.job.cur) ∨
    (y.job.phase = .idle ∧ y.status.done = true ∧ y.status.error = false ∧
      ∀ j, j < jobPixels y → ∃ v, imageTexel y.job.kind y.job.w y.job.h y.src y.pal j = .ok v ∧
        Memory.read y.dst j = some v)

/-- The image of a job depends on its inputs alone (R81, R87): the source bytes below reqLen and, for a palette kind, the
entries its index bytes name; any other cell of SRCMEM or PALMEM may differ, for a block kind all of PALMEM (R31). -/
def Obligations.ImageDependsOnInputsAlone : Prop :=
  ∀ (k : JobKind) (w h : Word) (src src' : Memory 8) (pal pal' : Memory 32) (j : Nat), j < w.toInt.toNat * h.toInt.toNat →
    (∀ a, a < reqLen k w.toInt.toNat h.toInt.toNat → Memory.read src a = Memory.read src' a) →
    (k = .pal0 ∨ k = .pal1 ∨ k = .pal4 ∨ k = .pal8 →
      ∀ i b, i < w.toInt.toNat * h.toInt.toNat → Memory.read src i = some b →
        Memory.read pal b.toNat = Memory.read pal' b.toNat) →
    imageTexel k w h src pal j = imageTexel k w h src' pal' j

/-- A block job with W = H = 4 decodes exactly one block (R103): a CHECK step and one RUN step, and cell p is texel p of the
block at offset 0. Shown for BC1, whose bytes the statement names. -/
def Obligations.SingleBlockJob : Prop :=
  ∀ (s : State) (k : Nat) (x : Bcdec) (rest : List Turn) (b0 b1 b2 b3 b4 b5 b6 b7 : Byte), s.Inv → s.insts[k]? = some x → x.job.phase = .check →
    kindOf x.job.fmt = .ok .bc1 → x.job.w = 4 → x.job.h = 4 → 8 ≤ x.job.len.toNat → x.job.len.toNat ≤ s.cfg.srcCap →
    SrcHolds x 0 [b0, b1, b2, b3, b4, b5, b6, b7] → s.turns = .engine k :: .engine k :: rest →
    ∃ (t : State) (y : Bcdec), Host.Core.run Sys2Proof.core 2 s = .next t ∧ t.turns = rest ∧ t.insts[k]? = some y ∧
      y.job.phase = .idle ∧ y.outCount = 16 ∧
      (∀ p, p < 16 → Memory.read y.dst p =
        some (texelWord 0xFF (pickColour (colourTable (b1 ++ b0) (b3 ++ b2))
          (BitVec.ofNat 2 ((b7 ++ b6 ++ b5 ++ b4 : BitVec 32).toNat / 4 ^ p))))) ∧
      ∀ j, 16 ≤ j → Memory.read y.dst j = Memory.read x.dst j
end

