-- ==== Sys2Proof/Laws/Decode.lean ====
section
/-! SUPPORT. The bits and fields of a word put together are those it was put together from. -/

namespace Sys2Proof

/-- The bits of a FORMAT word (R17). -/
theorem formatWord_bit (comp adepth acomp mips : Byte) (k : Nat) :
    (formatWord comp adepth acomp mips).getLsbD k =
      if k < 8 then comp.getLsbD k else if k - 8 < 8 then adepth.getLsbD (k - 8)
      else if k - 8 - 8 < 8 then acomp.getLsbD (k - 8 - 8) else mips.getLsbD (k - 8 - 8 - 8) := by
  show (mips ++ acomp ++ adepth ++ comp : BitVec (8 + 8 + 8 + 8)).getLsbD k = _
  simp only [BitVec.getLsbD_append]

/-- The bits of a transaction (R66). -/
theorem txnWord_bit (kind : BitVec 3) (addr data : Word) (k : Nat) :
    (txnWord kind addr data).getLsbD k =
      if k < 32 then data.getLsbD k else if k - 32 < 32 then addr.getLsbD (k - 32) else kind.getLsbD (k - 32 - 32) := by
  show (kind ++ addr ++ data : BitVec (3 + 32 + 32)).getLsbD k = _
  simp only [BitVec.getLsbD_append]

@[simp] theorem fmtComp_formatWord (a b c d : Byte) : fmtComp (formatWord a b c d) = a := by
  refine BitVec.eq_of_getLsbD_eq fun i hi => ?_
  simp [fmtComp, formatWord_bit, hi]

@[simp] theorem fmtAdepth_formatWord (a b c d : Byte) : fmtAdepth (formatWord a b c d) = b := by
  refine BitVec.eq_of_getLsbD_eq fun i hi => ?_
  simp [fmtAdepth, formatWord_bit, hi]

@[simp] theorem fmtAcomp_formatWord (a b c d : Byte) : fmtAcomp (formatWord a b c d) = c := by
  refine BitVec.eq_of_getLsbD_eq fun i hi => ?_
  simp [fmtAcomp, formatWord_bit, hi, show ¬ (16 + i < 8) by omega, show ¬ (16 + i - 8 < 8) by omega,
    show 16 + i - 8 - 8 = i by omega]

@[simp] theorem fmtMips_formatWord (a b c d : Byte) : fmtMips (formatWord a b c d) = d := by
  refine BitVec.eq_of_getLsbD_eq fun i hi => ?_
  simp [fmtMips, formatWord_bit, hi, show ¬ (24 + i < 8) by omega, show ¬ (24 + i - 8 < 8) by omega,
    show ¬ (24 + i - 8 - 8 < 8) by omega, show 24 + i - 8 - 8 - 8 = i by omega]

@[simp] theorem txnKind_txnWord (k : BitVec 3) (a d : Word) : txnKind (txnWord k a d) = k := by
  refine BitVec.eq_of_getLsbD_eq fun i hi => ?_
  simp [txnKind, txnWord_bit, hi, show ¬ (64 + i < 32) by omega, show ¬ (64 + i - 32 < 32) by omega,
    show 64 + i - 32 - 32 = i by omega]

@[simp] theorem txnAddr_txnWord (k : BitVec 3) (a d : Word) : txnAddr (txnWord k a d) = a := by
  refine BitVec.eq_of_getLsbD_eq fun i hi => ?_
  simp [txnAddr, txnWord_bit, hi]

@[simp] theorem txnData_txnWord (k : BitVec 3) (a d : Word) : txnData (txnWord k a d) = d := by
  refine BitVec.eq_of_getLsbD_eq fun i hi => ?_
  simp [txnData, txnWord_bit, hi]

/-- Two words with the same four fields are one word. -/
theorem format_ext {v w : Word} (h0 : fmtComp v = fmtComp w) (h1 : fmtAdepth v = fmtAdepth w)
    (h2 : fmtAcomp v = fmtAcomp w) (h3 : fmtMips v = fmtMips w) : v = w := by
  refine BitVec.eq_of_getLsbD_eq fun i hi => ?_
  have g0 := congrArg (fun b : Byte => b.getLsbD i) h0
  have g1 := congrArg (fun b : Byte => b.getLsbD (i - 8)) h1
  have g2 := congrArg (fun b : Byte => b.getLsbD (i - 16)) h2
  have g3 := congrArg (fun b : Byte => b.getLsbD (i - 24)) h3
  simp only [fmtComp, fmtAdepth, fmtAcomp, fmtMips, BitVec.getLsbD_extractLsb'] at g0 g1 g2 g3
  rcases (by omega : i < 8 ∨ (8 ≤ i ∧ i < 16) ∨ (16 ≤ i ∧ i < 24) ∨ 24 ≤ i) with h | h | h | h
  · simpa [h] using g0
  · simpa [show i - 8 < 8 by omega, show 8 + (i - 8) = i by omega] using g1
  · simpa [show i - 16 < 8 by omega, show 16 + (i - 16) = i by omega] using g2
  · simpa [show i - 24 < 8 by omega, show 24 + (i - 24) = i by omega] using g3

/-- Two transactions with the same three fields are one. -/
theorem txn_ext {v w : Txn} (h0 : txnKind v = txnKind w) (h1 : txnAddr v = txnAddr w) (h2 : txnData v = txnData w) :
    v = w := by
  refine BitVec.eq_of_getLsbD_eq fun i hi => ?_
  have g0 := congrArg (fun b : BitVec 3 => b.getLsbD (i - 64)) h0
  have g1 := congrArg (fun b : Word => b.getLsbD (i - 32)) h1
  have g2 := congrArg (fun b : Word => b.getLsbD i) h2
  simp only [txnKind, txnAddr, txnData, BitVec.getLsbD_extractLsb'] at g0 g1 g2
  rcases (by omega : i < 32 ∨ (32 ≤ i ∧ i < 64) ∨ 64 ≤ i) with h | h | h
  · simpa [h] using g2
  · simpa [show i - 32 < 32 by omega, show 32 + (i - 32) = i by omega] using g1
  · simpa [show i - 64 < 3 by omega, show 64 + (i - 64) = i by omega] using g0

end Sys2Proof
end

