-- ==== Sys2Proof/Laws/Memory.lean ====
section
/-! SUPPORT. The laws of a buffer: read after write, and that a write keeps the canonical form and the bounds. -/

namespace Sys2Proof.Machine

variable {w : Nat}

@[simp] theorem Memory.read_nil (a : Nat) : Memory.read ([] : Memory w) a = none := rfl

@[simp] theorem Memory.write_nil (a : Nat) (v : BitVec w) : Memory.write ([] : Memory w) a v = [(a, v)] := rfl

theorem Memory.read_cons (c : Nat × BitVec w) (m : Memory w) (a : Nat) :
    Memory.read (c :: m) a = if c.1 = a then some c.2 else Memory.read m a := rfl

theorem Memory.write_cons (c : Nat × BitVec w) (m : Memory w) (a : Nat) (v : BitVec w) :
    Memory.write (c :: m) a v =
      if a < c.1 then (a, v) :: c :: m else if a = c.1 then (a, v) :: m else c :: Memory.write m a v := rfl

@[simp] theorem Memory.read_write_same (m : Memory w) (a : Nat) (v : BitVec w) :
    Memory.read (Memory.write m a v) a = some v := by
  induction m with
  | nil => simp [Memory.read_cons]
  | cons c m ih =>
    rw [Memory.write_cons]
    split
    · simp [Memory.read_cons]
    · split
      · simp [Memory.read_cons]
      · rw [Memory.read_cons, if_neg (by omega), ih]

theorem Memory.read_write_other (m : Memory w) {a b : Nat} (v : BitVec w) (h : b ≠ a) :
    Memory.read (Memory.write m a v) b = Memory.read m b := by
  induction m with
  | nil => simp [Memory.read_cons, h.symm]
  | cons c m ih =>
    rw [Memory.write_cons]
    split
    · simp [Memory.read_cons, h.symm]
    · split
      · rename_i hac
        simp [Memory.read_cons, ← hac, h.symm]
      · simp [Memory.read_cons, ih]

theorem Memory.read_write (m : Memory w) (a b : Nat) (v : BitVec w) :
    Memory.read (Memory.write m a v) b = if b = a then some v else Memory.read m b := by
  split
  · subst b; simp
  · exact Memory.read_write_other m v ‹_›

/-- The empty memory, which is what reset leaves, has the canonical form. -/
@[simp] theorem Memory.wf_nil : Memory.wf ([] : Memory w) := List.Pairwise.nil

theorem Memory.mem_write {m : Memory w} {a : Nat} {v : BitVec w} {c : Nat × BitVec w}
    (h : c ∈ Memory.write m a v) : c = (a, v) ∨ c ∈ m := by
  induction m with
  | nil => simpa using h
  | cons d m ih =>
    rw [Memory.write_cons] at h
    split at h
    · simpa using h
    · split at h
      · rcases List.mem_cons.1 h with h | h
        · exact .inl h
        · exact .inr (List.mem_cons_of_mem _ h)
      · rcases List.mem_cons.1 h with h | h
        · exact .inr (h ▸ List.mem_cons_self)
        · exact (ih h).imp id (List.mem_cons_of_mem _)

/-- A write keeps the canonical form. -/
theorem Memory.wf_write {m : Memory w} (a : Nat) (v : BitVec w) (h : Memory.wf m) :
    Memory.wf (Memory.write m a v) := by
  induction m with
  | nil => simp [Memory.wf]
  | cons c m ih =>
    obtain ⟨hc, hm⟩ := List.pairwise_cons.1 h
    rw [Memory.write_cons]
    split
    · rename_i hac
      refine List.pairwise_cons.2 ⟨fun d hd => ?_, h⟩
      rcases List.mem_cons.1 hd with rfl | hd
      · exact hac
      · exact Nat.lt_trans hac (hc d hd)
    · split
      · rename_i _ hac
        exact List.pairwise_cons.2 ⟨fun d hd => hac ▸ hc d hd, hm⟩
      · refine List.pairwise_cons.2 ⟨fun d hd => ?_, ih hm⟩
        rcases Memory.mem_write hd with rfl | hd
        · show c.1 < a
          omega
        · exact hc d hd

/-- A write inside a bound keeps every cell inside it. -/
theorem Memory.bound_write {m : Memory w} {n a : Nat} (v : BitVec w) (h : ∀ c ∈ m, c.1 < n) (ha : a < n) :
    ∀ c ∈ Memory.write m a v, c.1 < n := by
  intro c hc
  rcases Memory.mem_write hc with rfl | hc
  · exact ha
  · exact h c hc

end Sys2Proof.Machine
end

