-- ==== Sys2Proof/Laws/State.lean ====
section
/-! SUPPORT. One lemma per field per update: the state around the selected engine, and the engine's own updates. -/

namespace Sys2Proof.Machine

/-! ### The system -/

@[simp] theorem putSel_cfg (s : State) (x : Bcdec) : (putSel s x).cfg = s.cfg := rfl
@[simp] theorem putSel_insts (s : State) (x : Bcdec) : (putSel s x).insts = s.insts.set s.sel x := rfl
@[simp] theorem putSel_turns (s : State) (x : Bcdec) : (putSel s x).turns = s.turns := rfl
@[simp] theorem putSel_sel (s : State) (x : Bcdec) : (putSel s x).sel = s.sel := rfl
@[simp] theorem putSel_draws (s : State) (x : Bcdec) : (putSel s x).draws = s.draws := rfl
@[simp] theorem putSel_replies (s : State) (x : Bcdec) : (putSel s x).replies = s.replies := rfl

@[simp] theorem reply_cfg (s : State) (v : Word) : (reply s v).cfg = s.cfg := rfl
@[simp] theorem reply_insts (s : State) (v : Word) : (reply s v).insts = s.insts := rfl
@[simp] theorem reply_turns (s : State) (v : Word) : (reply s v).turns = s.turns := rfl
@[simp] theorem reply_sel (s : State) (v : Word) : (reply s v).sel = s.sel := rfl
@[simp] theorem reply_draws (s : State) (v : Word) : (reply s v).draws = s.draws := rfl
@[simp] theorem reply_replies (s : State) (v : Word) : (reply s v).replies = (s.sel, v) :: s.replies := rfl

@[simp] theorem replyDraw_cfg (s : State) : (replyDraw s).cfg = s.cfg := rfl
@[simp] theorem replyDraw_insts (s : State) : (replyDraw s).insts = s.insts := rfl
@[simp] theorem replyDraw_turns (s : State) : (replyDraw s).turns = s.turns := rfl
@[simp] theorem replyDraw_sel (s : State) : (replyDraw s).sel = s.sel := rfl
@[simp] theorem replyDraw_draws (s : State) : (replyDraw s).draws = s.draws + 1 := rfl
@[simp] theorem replyDraw_replies (s : State) :
    (replyDraw s).replies = (s.sel, Config.draw s.draws) :: s.replies := rfl

/-- After `putSel` the selected engine is the one put. -/
theorem putSel_selected {s : State} {x : Bcdec} (h : Selected s x) (y : Bcdec) : Selected (putSel s y) y := by
  unfold Selected at *
  rw [putSel_insts, putSel_sel]
  obtain ⟨hlt, -⟩ := List.getElem?_eq_some_iff.1 h
  simp [hlt]

/-- Putting back the selected engine changes nothing. -/
theorem putSel_self {s : State} {x : Bcdec} (h : Selected s x) : putSel s x = s := by
  unfold Selected at h
  obtain ⟨hlt, hx⟩ := List.getElem?_eq_some_iff.1 h
  have : s.insts.set s.sel x = s.insts := by rw [← hx]; exact List.set_getElem_self hlt
  simp [putSel, this]

/-- `putSel` leaves every other engine alone. -/
theorem putSel_other (s : State) (y : Bcdec) {j : Nat} (h : j ≠ s.sel) : (putSel s y).insts[j]? = s.insts[j]? := by
  simp [h.symm]

/-- An operation on the selected engine, where there is one. -/
theorem withSel_eq {s : State} {x : Bcdec} (h : Selected s x) (f : Bcdec → Result) : withSel s f = f x := by
  unfold Selected at h
  simp [withSel, h]

/-- An operation on the selected engine answers next only where there is one. -/
theorem withSel_next {s t : State} {f : Bcdec → Result} (h : withSel s f = .next t) :
    ∃ x, Selected s x ∧ f x = .next t := by
  unfold withSel at h
  split at h
  · cases h
  · exact ⟨_, ‹_›, h⟩

/-! ### One engine -/

@[simp] theorem dstWrite_dst (x : Bcdec) (j : Nat) (v : Word) : (dstWrite x j v).dst = Memory.write x.dst j v := rfl
@[simp] theorem dstWrite_src (x : Bcdec) (j : Nat) (v : Word) : (dstWrite x j v).src = x.src := rfl
@[simp] theorem dstWrite_pal (x : Bcdec) (j : Nat) (v : Word) : (dstWrite x j v).pal = x.pal := rfl
@[simp] theorem dstWrite_status (x : Bcdec) (j : Nat) (v : Word) : (dstWrite x j v).status = x.status := rfl
@[simp] theorem dstWrite_format (x : Bcdec) (j : Nat) (v : Word) : (dstWrite x j v).format = x.format := rfl
@[simp] theorem dstWrite_width (x : Bcdec) (j : Nat) (v : Word) : (dstWrite x j v).width = x.width := rfl
@[simp] theorem dstWrite_height (x : Bcdec) (j : Nat) (v : Word) : (dstWrite x j v).height = x.height := rfl
@[simp] theorem dstWrite_srcLen (x : Bcdec) (j : Nat) (v : Word) : (dstWrite x j v).srcLen = x.srcLen := rfl
@[simp] theorem dstWrite_outCount (x : Bcdec) (j : Nat) (v : Word) : (dstWrite x j v).outCount = x.outCount := rfl
@[simp] theorem dstWrite_job (x : Bcdec) (j : Nat) (v : Word) : (dstWrite x j v).job = x.job := rfl
@[simp] theorem dstWrite_faults (x : Bcdec) (j : Nat) (v : Word) : (dstWrite x j v).faults = x.faults := rfl

@[simp] theorem raiseError_status (e : JobError) (x : Bcdec) : (raiseError e x).status = statusFailed e x.status := rfl
@[simp] theorem raiseError_outCount (e : JobError) (x : Bcdec) : (raiseError e x).outCount = 0 := rfl
@[simp] theorem raiseError_phase (e : JobError) (x : Bcdec) : (raiseError e x).job.phase = .idle := rfl
@[simp] theorem raiseError_dst (e : JobError) (x : Bcdec) : (raiseError e x).dst = x.dst := rfl
@[simp] theorem raiseError_src (e : JobError) (x : Bcdec) : (raiseError e x).src = x.src := rfl
@[simp] theorem raiseError_pal (e : JobError) (x : Bcdec) : (raiseError e x).pal = x.pal := rfl
@[simp] theorem raiseError_faults (e : JobError) (x : Bcdec) : (raiseError e x).faults = x.faults := rfl

@[simp] theorem finishOk_status (x : Bcdec) : (finishOk x).status = statusOk x.status := rfl
@[simp] theorem finishOk_outCount (x : Bcdec) :
    (finishOk x).outCount = BitVec.ofInt 32 (x.job.w.toInt * x.job.h.toInt) := rfl
@[simp] theorem finishOk_phase (x : Bcdec) : (finishOk x).job.phase = .idle := rfl
@[simp] theorem finishOk_dst (x : Bcdec) : (finishOk x).dst = x.dst := rfl
@[simp] theorem finishOk_src (x : Bcdec) : (finishOk x).src = x.src := rfl
@[simp] theorem finishOk_pal (x : Bcdec) : (finishOk x).pal = x.pal := rfl
@[simp] theorem finishOk_faults (x : Bcdec) : (finishOk x).faults = x.faults := rfl

@[simp] theorem resetBcdec_faults (x : Bcdec) : (resetBcdec x).faults = x.faults := rfl
@[simp] theorem resetBcdec_status (x : Bcdec) : (resetBcdec x).status = .reset := rfl
@[simp] theorem resetBcdec_job (x : Bcdec) : (resetBcdec x).job = .reset := rfl
@[simp] theorem resetBcdec_src (x : Bcdec) : (resetBcdec x).src = [] := rfl
@[simp] theorem resetBcdec_pal (x : Bcdec) : (resetBcdec x).pal = [] := rfl
@[simp] theorem resetBcdec_dst (x : Bcdec) : (resetBcdec x).dst = [] := rfl

@[simp] theorem raiseError_format (e : JobError) (x : Bcdec) : (raiseError e x).format = x.format := rfl
@[simp] theorem raiseError_width (e : JobError) (x : Bcdec) : (raiseError e x).width = x.width := rfl
@[simp] theorem raiseError_height (e : JobError) (x : Bcdec) : (raiseError e x).height = x.height := rfl
@[simp] theorem raiseError_srcLen (e : JobError) (x : Bcdec) : (raiseError e x).srcLen = x.srcLen := rfl

@[simp] theorem finishOk_format (x : Bcdec) : (finishOk x).format = x.format := rfl
@[simp] theorem finishOk_width (x : Bcdec) : (finishOk x).width = x.width := rfl
@[simp] theorem finishOk_height (x : Bcdec) : (finishOk x).height = x.height := rfl
@[simp] theorem finishOk_srcLen (x : Bcdec) : (finishOk x).srcLen = x.srcLen := rfl

@[simp] theorem resetBcdec_format (x : Bcdec) : (resetBcdec x).format = 0 := rfl
@[simp] theorem resetBcdec_width (x : Bcdec) : (resetBcdec x).width = 0 := rfl
@[simp] theorem resetBcdec_height (x : Bcdec) : (resetBcdec x).height = 0 := rfl
@[simp] theorem resetBcdec_srcLen (x : Bcdec) : (resetBcdec x).srcLen = 0 := rfl
@[simp] theorem resetBcdec_outCount (x : Bcdec) : (resetBcdec x).outCount = 0 := rfl

end Sys2Proof.Machine
end

