-- ==== Sys2Proof/Laws/Ops.lean ====
section
/-! SUPPORT. What each shared operation can do, said once: reads, block placement, the ends of a step, and the two
operations that run an engine step. The proofs cite these instead of unfolding the operations. -/

namespace Sys2Proof.Machine

/-! ### Reads -/

theorem srcRead_ok {x : Bcdec} {a : Nat} {b : Byte} : srcRead x a = .ok b ↔ Memory.read x.src a = some b := by
  unfold srcRead
  cases Memory.read x.src a <;> simp

theorem srcRead_error {x : Bcdec} {a : Nat} {f : Fault} :
    srcRead x a = .error f ↔ Memory.read x.src a = none ∧ f = .unwrittenSrc a := by
  unfold srcRead
  cases Memory.read x.src a <;> simp [eq_comm]

theorem palRead_ok {x : Bcdec} {i : Nat} {v : Word} : palRead x i = .ok v ↔ Memory.read x.pal i = some v := by
  unfold palRead
  cases Memory.read x.pal i <;> simp

theorem palRead_error {x : Bcdec} {i : Nat} {f : Fault} :
    palRead x i = .error f ↔ Memory.read x.pal i = none ∧ f = .unwrittenPal i := by
  unfold palRead
  cases Memory.read x.pal i <;> simp [eq_comm]

/-- `bind` of `Except` answers ok only through an ok. -/
theorem bind_ok {ε α β : Type} {r : Except ε α} {f : α → Except ε β} {b : β} (h : (r >>= f) = .ok b) :
    ∃ a, r = .ok a ∧ f a = .ok b := by
  cases r with
  | error e => cases h
  | ok a => exact ⟨a, rfl, h⟩

@[simp] theorem ok_bind {ε α β : Type} (a : α) (f : α → Except ε β) : (Except.ok a >>= f) = f a := rfl

@[simp] theorem error_bind {ε α β : Type} (e : ε) (f : α → Except ε β) :
    ((Except.error e : Except ε α) >>= f) = .error e := rfl

@[simp] theorem srcBytes_zero (x : Bcdec) (o : Nat) : srcBytes x o 0 = .ok [] := rfl

theorem srcBytes_succ (x : Bcdec) (o n : Nat) :
    srcBytes x o (n + 1) = srcRead x o >>= fun b => srcBytes x (o + 1) n >>= fun bs => .ok (b :: bs) := rfl

/-- The bytes a list names are the bytes that are read. -/
theorem srcBytes_holds {x : Bcdec} {bs : List Byte} {o : Nat} (h : SrcHolds x o bs) :
    srcBytes x o bs.length = .ok bs := by
  induction bs generalizing o with
  | nil => rfl
  | cons b bs ih =>
    have h0 : srcRead x o = .ok b := srcRead_ok.2 (by simpa using h 0 b rfl)
    have h1 : SrcHolds x (o + 1) bs := fun k c hc => by
      have := h (k + 1) c (by simpa using hc)
      rwa [show o + (k + 1) = o + 1 + k by omega] at this
    rw [List.length_cons, srcBytes_succ, h0, ok_bind, ih h1, ok_bind]

theorem srcLE_holds {x : Bcdec} {bs : List Byte} {o : Nat} (h : SrcHolds x o bs) :
    srcLE x o bs.length = .ok (leNat bs) := by
  unfold srcLE
  rw [srcBytes_holds h, ok_bind]

/-- Written cells can be read. -/
theorem srcBytes_written {x : Bcdec} {o n : Nat} (h : SrcWritten x o n) : ∃ bs, srcBytes x o n = .ok bs := by
  induction n generalizing o with
  | zero => exact ⟨[], rfl⟩
  | succ n ih =>
    obtain ⟨b, hb⟩ := h o (Nat.le_refl _) (by omega)
    obtain ⟨bs, hbs⟩ := ih (o := o + 1) (fun a ha hb => h a (by omega) (by omega))
    exact ⟨b :: bs, by rw [srcBytes_succ, srcRead_ok.2 hb, ok_bind, hbs, ok_bind]⟩

theorem srcLE_written {x : Bcdec} {o n : Nat} (h : SrcWritten x o n) : ∃ v, srcLE x o n = .ok v := by
  obtain ⟨bs, hbs⟩ := srcBytes_written h
  exact ⟨leNat bs, by unfold srcLE; rw [hbs, ok_bind]⟩

/-- The source reads depend on SRCMEM alone. -/
theorem srcBytes_congr {x y : Bcdec} (h : y.src = x.src) (o n : Nat) : srcBytes y o n = srcBytes x o n := by
  induction n generalizing o with
  | zero => rfl
  | succ n ih => rw [srcBytes_succ, srcBytes_succ, ih, show srcRead y o = srcRead x o by unfold srcRead; rw [h]]

theorem srcRead_congr {x y : Bcdec} (h : y.src = x.src) (a : Nat) : srcRead y a = srcRead x a := by
  unfold srcRead; rw [h]

theorem srcLE_congr {x y : Bcdec} (h : y.src = x.src) (o n : Nat) : srcLE y o n = srcLE x o n := by
  unfold srcLE; rw [srcBytes_congr h]

theorem palRead_congr {x y : Bcdec} (h : y.pal = x.pal) (i : Nat) : palRead y i = palRead x i := by
  unfold palRead; rw [h]

/-! ### Block placement -/

/-- A unit changes DSTMEM alone. -/
structure OnlyDst (x y : Bcdec) : Prop where
  eq : y = { x with dst := y.dst }

theorem OnlyDst.refl (x : Bcdec) : OnlyDst x x := ⟨rfl⟩

theorem OnlyDst.trans {x y z : Bcdec} (h : OnlyDst x y) (g : OnlyDst y z) : OnlyDst x z :=
  ⟨by rw [g.eq, h.eq]⟩

theorem dstWrite_onlyDst (x : Bcdec) (j : Nat) (v : Word) : OnlyDst x (dstWrite x j v) := ⟨rfl⟩

theorem placePixel_onlyDst (w h bx by' : Nat) (t : Nat → Word) (x : Bcdec) (p : Nat) :
    OnlyDst x (placePixel w h bx by' t x p) := by
  unfold placePixel
  split
  · exact dstWrite_onlyDst ..
  · exact .refl x

theorem foldPixels_onlyDst (w h bx by' : Nat) (t : Nat → Word) (l : List Nat) (x : Bcdec) :
    OnlyDst x (l.foldl (placePixel w h bx by' t) x) := by
  induction l generalizing x with
  | nil => exact .refl x
  | cons p l ih => exact (placePixel_onlyDst w h bx by' t x p).trans (ih _)

theorem placeBlock_onlyDst (w h bx by' : Nat) (t : Nat → Word) (x : Bcdec) :
    OnlyDst x (placeBlock w h bx by' t x) := foldPixels_onlyDst ..

theorem placePixel_read (w h bx by' : Nat) (t : Nat → Word) (x : Bcdec) (p j : Nat) :
    Memory.read (placePixel w h bx by' t x p).dst j =
      if blockCell w h bx by' p = some j then some (t p) else Memory.read x.dst j := by
  unfold placePixel
  split
  · rename_i c hc
    rw [dstWrite_dst, Memory.read_write, hc]
    simp [eq_comm]
  · rename_i hc
    simp [hc]

/-- Two pixels of one block lie in different cells. -/
theorem blockCell_inj {w h bx by' p q j : Nat}
    (h1 : blockCell w h bx by' p = some j) (h2 : blockCell w h bx by' q = some j) : p = q := by
  unfold blockCell at h1 h2
  split at h1
  · split at h2
    · rename_i g1 g2
      simp only [Option.some.injEq] at h1 h2
      have hx := congrArg (· % w) (h1.trans h2.symm)
      have hy := congrArg (· / w) (h1.trans h2.symm)
      simp only [Nat.mul_add_mod_self_right, Nat.mod_eq_of_lt g1.1, Nat.mod_eq_of_lt g2.1] at hx
      have hw : 0 < w := by omega
      rw [show ∀ a b, (a * w + b) / w = a + b / w from fun a b => by
        rw [Nat.add_comm, Nat.add_mul_div_right _ _ hw, Nat.add_comm]] at hy
      rw [show ∀ a b, (a * w + b) / w = a + b / w from fun a b => by
        rw [Nat.add_comm, Nat.add_mul_div_right _ _ hw, Nat.add_comm]] at hy
      rw [Nat.div_eq_of_lt g1.1, Nat.div_eq_of_lt g2.1] at hy
      omega
    · cases h2
  · cases h1

theorem foldPixels_read_miss (w h bx by' : Nat) (t : Nat → Word) (l : List Nat) (x : Bcdec) (j : Nat)
    (hm : ∀ p ∈ l, blockCell w h bx by' p ≠ some j) :
    Memory.read (l.foldl (placePixel w h bx by' t) x).dst j = Memory.read x.dst j := by
  induction l generalizing x with
  | nil => rfl
  | cons p l ih =>
    rw [List.foldl_cons, ih _ (fun q hq => hm q (List.mem_cons_of_mem _ hq)), placePixel_read,
      if_neg (hm p List.mem_cons_self)]

/-- A cell no pixel of the block covers keeps its value. -/
theorem placeBlock_miss {w h bx by' : Nat} {t : Nat → Word} {x : Bcdec} {j : Nat}
    (hm : ∀ p, p < 16 → blockCell w h bx by' p ≠ some j) :
    Memory.read (placeBlock w h bx by' t x).dst j = Memory.read x.dst j :=
  foldPixels_read_miss _ _ _ _ _ _ _ _ (fun p hp => hm p (List.mem_range.1 hp))

theorem foldPixels_read_hit (w h bx by' : Nat) (t : Nat → Word) (l : List Nat) (x : Bcdec) (p j : Nat)
    (hp : p ∈ l) (hc : blockCell w h bx by' p = some j) :
    Memory.read (l.foldl (placePixel w h bx by' t) x).dst j = some (t p) := by
  induction l generalizing x with
  | nil => cases hp
  | cons q l ih =>
    rw [List.foldl_cons]
    by_cases hpl : p ∈ l
    · exact ih _ hpl
    · have hqp : p = q := by simpa [hpl] using hp
      subst hqp
      rw [foldPixels_read_miss _ _ _ _ _ _ _ _ (fun r hr hrj => hpl (blockCell_inj hrj hc ▸ hr)),
        placePixel_read, if_pos hc]

/-- The cell of a pixel inside the image holds the pixel's texel. -/
theorem placeBlock_hit {w h bx by' : Nat} {t : Nat → Word} {x : Bcdec} {p j : Nat} (hp : p < 16)
    (hc : blockCell w h bx by' p = some j) : Memory.read (placeBlock w h bx by' t x).dst j = some (t p) :=
  foldPixels_read_hit _ _ _ _ _ _ _ _ _ (List.mem_range.2 hp) hc

/-- A pixel's cell lies inside the image. -/
theorem blockCell_lt {w h bx by' p j : Nat} (hc : blockCell w h bx by' p = some j) : j < w * h := by
  unfold blockCell at hc
  split at hc
  · rename_i g
    obtain ⟨g1, g2⟩ := g
    simp only [Option.some.injEq] at hc
    have : (4 * by' + p / 4) * w + w ≤ h * w := by
      rw [← Nat.succ_mul]; exact Nat.mul_le_mul_right _ g2
    rw [Nat.mul_comm w h]; omega
  · cases hc

theorem placeBlock_wf {w h bx by' : Nat} {t : Nat → Word} {x : Bcdec} (hx : Memory.wf x.dst) :
    Memory.wf (placeBlock w h bx by' t x).dst := by
  unfold placeBlock
  generalize List.range 16 = l
  induction l generalizing x with
  | nil => exact hx
  | cons p l ih =>
    refine ih ?_
    unfold placePixel
    split
    · exact Memory.wf_write _ _ hx
    · exact hx

theorem placeBlock_bound {w h bx by' n : Nat} {t : Nat → Word} {x : Bcdec} (hn : w * h ≤ n)
    (hx : ∀ c ∈ x.dst, c.1 < n) : ∀ c ∈ (placeBlock w h bx by' t x).dst, c.1 < n := by
  unfold placeBlock
  generalize List.range 16 = l
  induction l generalizing x with
  | nil => exact hx
  | cons p l ih =>
    refine ih ?_
    unfold placePixel
    split
    · exact Memory.bound_write _ hx (Nat.lt_of_lt_of_le (blockCell_lt ‹_›) hn)
    · exact hx

/-! ### The ends of a step -/

/-- What `advance` does to a unit that changed DSTMEM alone (R79). -/
theorem advance_unitDone {x y : Bcdec} (h : OnlyDst x y) : UnitDone x (advance y) ∧ (advance y).dst = y.dst := by
  rw [h.eq]
  unfold advance
  simp only
  split
  · refine ⟨⟨⟨rfl, rfl, rfl, rfl, rfl, rfl, rfl, rfl, rfl, rfl, rfl⟩, rfl, rfl, rfl, fun hn => ?_, fun _ =>
      ⟨rfl, rfl, rfl⟩⟩, rfl⟩
    contradiction
  · refine ⟨⟨⟨rfl, rfl, rfl, rfl, rfl, rfl, rfl, rfl, rfl, rfl, rfl⟩, rfl, rfl, rfl, fun _ => ⟨rfl, rfl, rfl⟩,
      fun he => ?_⟩, rfl⟩
    contradiction

/-- Everything `engineStep` can do when it answers next. -/
theorem engineStep_next {k : JobKind} {unit : Bcdec → Except Fault Bcdec} {s t : State}
    (h : engineStep k unit s = .next t) :
    ∃ x, Selected s x ∧
      ((x.job.phase = .idle ∧ t = s) ∨
       (x.job.phase = .check ∧ t = putSel s (checkJob s.cfg k x)) ∨
       (x.job.phase = .run ∧ ∃ y, unit x = .ok y ∧ t = putSel s (advance y))) := by
  obtain ⟨x, hx, h⟩ := withSel_next h
  refine ⟨x, hx, ?_⟩
  cases hp : x.job.phase <;> simp only [hp] at h
  · exact .inl ⟨rfl, by cases h; rfl⟩
  · exact .inr (.inl ⟨rfl, by cases h; rfl⟩)
  · cases hu : unit x with
    | error f => simp [hu] at h
    | ok y => simp only [hu] at h; exact .inr (.inr ⟨rfl, y, rfl, by cases h; rfl⟩)

/-- Everything `engineRaise` can do when it answers next. -/
theorem engineRaise_next {e : JobError} {s t : State} (h : engineRaise e s = .next t) :
    ∃ x, Selected s x ∧
      ((x.job.phase = .check ∧ t = putSel s (raiseError e x)) ∨ (x.job.phase ≠ .check ∧ t = s)) := by
  obtain ⟨x, hx, h⟩ := withSel_next h
  refine ⟨x, hx, ?_⟩
  cases hp : x.job.phase <;> simp only [hp] at h
  · exact .inr ⟨by simp, by cases h; rfl⟩
  · exact .inl ⟨rfl, by cases h; rfl⟩
  · exact .inr ⟨by simp, by cases h; rfl⟩

/-- An engine step in CHECK. -/
theorem engineStep_check {k : JobKind} {unit : Bcdec → Except Fault Bcdec} {s : State} {x : Bcdec}
    (h : InCheck s x) : engineStep k unit s = .next (putSel s (checkJob s.cfg k x)) := by
  unfold engineStep
  rw [withSel_eq h.1]
  simp [h.2]

/-- An engine step in RUN whose unit reads only written cells. -/
theorem engineStep_run {k : JobKind} {unit : Bcdec → Except Fault Bcdec} {s : State} {x y : Bcdec}
    (h : InRun s x) (hu : unit x = .ok y) : engineStep k unit s = .next (putSel s (advance y)) := by
  unfold engineStep
  rw [withSel_eq h.1]
  simp [h.2, hu]

/-- An engine step in RUN whose unit meets an unwritten cell. -/
theorem engineStep_fault {k : JobKind} {unit : Bcdec → Except Fault Bcdec} {s : State} {x : Bcdec} {f : Fault}
    (h : InRun s x) (hu : unit x = .error f) : engineStep k unit s = .fault f := by
  unfold engineStep
  rw [withSel_eq h.1]
  simp [h.2, hu]

/-- Everything `checkJob` can do (R78). -/
theorem checkJob_cases (cfg : Config) (k : JobKind) (x : Bcdec) :
    (badDimensions cfg x ∧ checkJob cfg k x = raiseError .badDimensions x) ∨
    (¬ badDimensions cfg x ∧ badLength cfg k x ∧ checkJob cfg k x = raiseError .malformedHeader x) ∨
    (¬ badDimensions cfg x ∧ ¬ badLength cfg k x ∧ units k (jobW x) (jobH x) = 0 ∧
      checkJob cfg k x = finishOk (latchUnits k x)) ∨
    (¬ badDimensions cfg x ∧ ¬ badLength cfg k x ∧ units k (jobW x) (jobH x) ≠ 0 ∧
      checkJob cfg k x = { latchUnits k x with job := { (latchUnits k x).job with phase := .run } }) := by
  unfold checkJob
  split
  · exact .inl ⟨‹_›, rfl⟩
  · split
    · exact .inr (.inl ⟨‹_›, ‹_›, rfl⟩)
    · unfold beginRun
      split
      · exact .inr (.inr (.inl ⟨‹_›, ‹_›, ‹_›, rfl⟩))
      · exact .inr (.inr (.inr ⟨‹_›, ‹_›, ‹_›, rfl⟩))

/-- Everything `bcUnit` can do when it answers. -/
theorem bcUnit_ok {bs : Nat} {d : Bcdec → Nat → Except Fault (Nat → Word)} {x y : Bcdec} (h : bcUnit bs d x = .ok y) :
    ∃ t, d x (x.job.cur * bs) = .ok t ∧
      y = placeBlock (jobW x) (jobH x) (x.job.cur % ceilDiv (jobW x) 4) (x.job.cur / ceilDiv (jobW x) 4) t x := by
  obtain ⟨t, ht, h⟩ := bind_ok h
  exact ⟨t, ht, by cases h; rfl⟩

/-- Everything `palUnit` can do when it answers. -/
theorem palUnit_ok {a : Bcdec → Nat → Except Fault Byte} {x y : Bcdec} (h : palUnit a x = .ok y) :
    ∃ v, palTexel a x x.job.cur = .ok v ∧ y = dstWrite x x.job.cur v := by
  obtain ⟨v, hv, h⟩ := bind_ok h
  exact ⟨v, hv, by cases h; rfl⟩

/-- A FORMAT word's unit changes DSTMEM alone. -/
theorem bcUnit_onlyDst {bs : Nat} {d : Bcdec → Nat → Except Fault (Nat → Word)} {x y : Bcdec}
    (h : bcUnit bs d x = .ok y) : OnlyDst x y := by
  obtain ⟨t, -, rfl⟩ := bcUnit_ok h
  exact placeBlock_onlyDst ..

theorem palUnit_onlyDst {a : Bcdec → Nat → Except Fault Byte} {x y : Bcdec} (h : palUnit a x = .ok y) :
    OnlyDst x y := by
  obtain ⟨v, -, rfl⟩ := palUnit_ok h
  exact dstWrite_onlyDst ..

/-! ### FAULTS -/

theorem addMark_nodup {m : Mark} {x : Bcdec} (h : x.faults.Nodup) : (addMark m x).faults.Nodup := by
  unfold addMark
  split
  · exact h
  · rename_i hm
    show (x.faults ++ [m]).Nodup
    rw [List.nodup_append]
    exact ⟨h, by simp, fun a ha b hb => by simp only [List.mem_singleton] at hb; rintro rfl; exact hm (hb ▸ ha)⟩

/-- What `addMark` leaves alone, and what it adds. -/
theorem addMark_eq (m : Mark) (x : Bcdec) : addMark m x = { x with faults := (addMark m x).faults } := by
  unfold addMark
  split <;> rfl

theorem mem_addMark {m n : Mark} {x : Bcdec} : n ∈ (addMark m x).faults ↔ n ∈ x.faults ∨ n = m := by
  unfold addMark
  split
  · constructor
    · exact .inl
    · rintro (h | rfl)
      · exact h
      · assumption
  · simp

theorem markSel_selected {s : State} {x : Bcdec} (h : Selected s x) (m : Mark) :
    markSel s m = putSel s (addMark m x) := by
  unfold Selected at h
  simp [markSel, h]

end Sys2Proof.Machine
end

