-- ==== Sys2Proof/Laws/Step.lean ====
section
/-! SUPPORT. What a step can do, said once: which agent steps and what it runs, and how the outcome reaches the state. -/

namespace Sys2Proof.Machine

/-- The state in which the turn's instruction runs: the turn is taken and its engine selected. -/
def turnState (s : State) (k : Nat) (ts : List Turn) : State := { s with turns := ts, sel := k }

@[simp] theorem turnState_cfg (s : State) (k : Nat) (ts : List Turn) : (turnState s k ts).cfg = s.cfg := rfl
@[simp] theorem turnState_insts (s : State) (k : Nat) (ts : List Turn) : (turnState s k ts).insts = s.insts := rfl
@[simp] theorem turnState_turns (s : State) (k : Nat) (ts : List Turn) : (turnState s k ts).turns = ts := rfl
@[simp] theorem turnState_sel (s : State) (k : Nat) (ts : List Turn) : (turnState s k ts).sel = k := rfl
@[simp] theorem turnState_draws (s : State) (k : Nat) (ts : List Turn) : (turnState s k ts).draws = s.draws := rfl
@[simp] theorem turnState_replies (s : State) (k : Nat) (ts : List Turn) :
    (turnState s k ts).replies = s.replies := rfl

theorem fetchEngine_run {s u : State} {k : Nat} {i : Instr} (h : fetchEngine s k = .run i u) :
    ∃ x, s.insts[k]? = some x ∧ engineInstr x = some i ∧ u = turnState s k s.turns := by
  unfold fetchEngine at h
  split at h
  · cases h
  · split at h
    · cases h
    · cases h
      exact ⟨_, ‹_›, ‹_›, rfl⟩

theorem fetchEngine_rest {s u : State} {k : Nat} (h : fetchEngine s k = .rest u) : u = s := by
  unfold fetchEngine at h
  split at h
  · cases h
  · split at h
    · cases h; rfl
    · cases h

/-- What runs, when an instruction runs: the transaction of the host's turn, or the word of an engine's. -/
theorem fetch_run {s u : State} {i : Instr} (h : fetch s = .run i u) :
    ∃ k x ts, s.insts[k]? = some x ∧ u = turnState s k ts ∧
      ((∃ t, s.turns = .host k t :: ts ∧ i = decodeTxn t) ∨
       ((s.turns = .engine k :: ts ∨ (s.turns = [] ∧ ts = [] ∧ nextBusy s = some k)) ∧ engineInstr x = some i)) := by
  unfold fetch at h
  split at h
  · cases h
  unfold fetchTurn at h
  split at h
  · rename_i ht
    split at h
    · cases h
    · obtain ⟨x, hx, hi, hu⟩ := fetchEngine_run h
      rw [ht] at hu
      exact ⟨_, x, [], hx, hu, .inr ⟨.inr ⟨ht, rfl, ‹_›⟩, hi⟩⟩
  · rename_i k t ts ht
    unfold fetchHost at h
    split at h
    · cases h
    · cases h
      exact ⟨k, _, ts, ‹_›, rfl, .inl ⟨t, ht, rfl⟩⟩
  · rename_i k ts ht
    obtain ⟨x, hx, hi, hu⟩ := fetchEngine_run h
    exact ⟨k, x, ts, hx, hu, .inr ⟨.inl ht, hi⟩⟩
  · unfold fetchReset at h
    split at h <;> cases h

/-- What a step without an instruction does: nothing, an idle engine's turn, or a reset. -/
theorem fetch_rest {s u : State} (h : fetch s = .rest u) :
    (s.turns = [] ∧ u = s) ∨
    (∃ k ts, s.turns = .engine k :: ts ∧ u = { s with turns := ts }) ∨
    (∃ k x ts, s.turns = .reset k :: ts ∧ s.insts[k]? = some x ∧
      u = { s with turns := ts, insts := s.insts.set k (resetBcdec x) }) := by
  unfold fetch at h
  split at h
  · cases h
  unfold fetchTurn at h
  split at h
  · rename_i ht
    split at h
    · cases h
      exact .inl ⟨ht, rfl⟩
    · exact .inl ⟨ht, fetchEngine_rest h⟩
  · unfold fetchHost at h
    split at h <;> cases h
  · rename_i k ts ht
    exact .inr (.inl ⟨k, ts, ht, fetchEngine_rest h⟩)
  · rename_i k ts ht
    unfold fetchReset at h
    split at h
    · cases h
    · cases h
      exact .inr (.inr ⟨k, _, ts, ht, ‹_›, rfl⟩)

/-- What the outcome of an instruction makes of the state (R29). -/
theorem settle_next {u t : State} {r : Result} (h : settle u r = .next t) :
    r = .next t ∨ (∃ f, r = .fault f ∧ f.recorded = true ∧ t = markSel u (.fault f)) ∨
      (∃ f, r = .refused f ∧ f.recorded = true ∧ t = markSel u (.refusal f)) := by
  unfold settle at h
  split at h
  · exact .inl h
  · split at h
    · cases h
      exact .inr (.inl ⟨_, rfl, ‹_›, rfl⟩)
    · cases h
  · split at h
    · cases h
      exact .inr (.inr ⟨_, rfl, ‹_›, rfl⟩)
    · cases h

/-- Everything a step can do when it answers next. -/
theorem step_next {s t : State} (h : step s = .next t) :
    fetch s = .rest t ∨ ∃ i u, fetch s = .run i u ∧
      (exec i u = .next t ∨ (∃ f, exec i u = .fault f ∧ f.recorded = true ∧ t = markSel u (.fault f)) ∨
        (∃ f, exec i u = .refused f ∧ f.recorded = true ∧ t = markSel u (.refusal f))) := by
  unfold step at h
  split at h
  · cases h
  · cases h
  · cases h; exact .inl ‹_›
  · exact .inr ⟨_, _, ‹_›, settle_next h⟩

/-- A legal STATUS holds no reserved code. -/
theorem legal_not_reserved {t : Status} (h : t.Legal) : reservedCode t.errcode = false := by
  rcases h with ⟨-, -, -, h⟩ | ⟨-, -, -, h⟩ | ⟨-, -, -, h | h | h | h⟩ | ⟨-, -, -, h⟩ <;> rw [h] <;> rfl

/-- The invariant rules the stuck state out. -/
theorem stuckCode_none {s : State} (h : ∀ x ∈ s.insts, reservedCode x.status.errcode = false) :
    stuckCode s = none := by
  unfold stuckCode
  rw [List.find?_eq_none]
  intro c hc
  obtain ⟨x, hx, rfl⟩ := List.mem_map.1 hc
  simp [h x hx]

theorem step_of_fetch_run {s u : State} {i : Instr} (h : fetch s = .run i u) : step s = settle u (exec i u) := by
  unfold step
  rw [h]

theorem step_of_fetch_rest {s u : State} (h : fetch s = .rest u) : step s = .next u := by
  unfold step
  rw [h]

/-- A run goes on from the state its first step answers. -/
theorem run_succ {n : Nat} {s t : State} (h : step s = .next t) :
    Host.Core.run Sys2Proof.core (n + 1) s = Host.Core.run Sys2Proof.core n t := by
  simp only [Host.Core.run]
  rw [show Sys2Proof.core.step s = .next t from h]

end Sys2Proof.Machine
end

