-- ==== Sys2Proof/Laws/Exec.lean ====
section
/-! SUPPORT. Everything an instruction, and a step, can do to an engine, said once. -/

namespace Sys2Proof.Machine

/-- The unit of a kind: what a RUN step of a job of that kind does before the cursor advances (R79). -/
def kindUnit : JobKind → Bcdec → Except Fault Bcdec
  | .bc1 => bcUnit (blockBytes .bc1) decodeBc1
  | .bc2 => bcUnit (blockBytes .bc2) decodeBc2
  | .bc3 => bcUnit (blockBytes .bc3) decodeBc3
  | .pal0 => palUnit alphaPal0
  | .pal1 => palUnit alphaPal1
  | .pal4 => palUnit alphaPal4
  | .pal8 => palUnit alphaPal8

/-- The FORMAT instruction of a kind is an engine step of that kind. -/
theorem exec_kindInstr (k : JobKind) (w : Word) (s : State) : exec (kindInstr k w) s = engineStep k (kindUnit k) s := by
  cases k <;> rfl

theorem kindUnit_onlyDst {k : JobKind} {x y : Bcdec} (h : kindUnit k x = .ok y) : OnlyDst x y := by
  cases k
  case bc1 | bc2 | bc3 => exact bcUnit_onlyDst h
  all_goals exact palUnit_onlyDst h

/-- A unit keeps DSTMEM canonical. -/
theorem kindUnit_wf {k : JobKind} {x y : Bcdec} (h : kindUnit k x = .ok y) (hx : Memory.wf x.dst) : Memory.wf y.dst := by
  cases k
  case bc1 | bc2 | bc3 =>
    obtain ⟨t, -, rfl⟩ := bcUnit_ok h
    exact placeBlock_wf hx
  all_goals
    obtain ⟨v, -, rfl⟩ := palUnit_ok h
    exact Memory.wf_write _ _ hx

/-- A unit of a job in RUN changes cells below W * H alone (R83). -/
theorem kindUnit_miss {cfg : Config} {k : JobKind} {x y : Bcdec} (h : kindUnit k x = .ok y) (hr : Running cfg x)
    (hk : x.job.kind = k) {j : Nat} (hj : jobPixels x ≤ j) : Memory.read y.dst j = Memory.read x.dst j := by
  cases k
  case bc1 | bc2 | bc3 =>
    obtain ⟨t, -, rfl⟩ := bcUnit_ok h
    exact placeBlock_miss fun p _ hc => Nat.not_lt.2 hj (blockCell_lt hc)
  all_goals
    obtain ⟨v, -, rfl⟩ := palUnit_ok h
    have hc := hr.cur
    rw [hr.total, hk] at hc
    exact Memory.read_write_other _ _ (Nat.ne_of_gt (Nat.lt_of_lt_of_le hc hj))

/-- A unit of a job in RUN lists no cell at DST_CAP or above (R36). -/
theorem kindUnit_bound {cfg : Config} {k : JobKind} {x y : Bcdec} (h : kindUnit k x = .ok y) (hr : Running cfg x)
    (hk : x.job.kind = k) (hx : ∀ c ∈ x.dst, c.1 < cfg.dstCap) : ∀ c ∈ y.dst, c.1 < cfg.dstCap := by
  cases k
  case bc1 | bc2 | bc3 =>
    obtain ⟨t, -, rfl⟩ := bcUnit_ok h
    exact placeBlock_bound hr.fits hx
  all_goals
    obtain ⟨v, -, rfl⟩ := palUnit_ok h
    have hc := hr.cur
    rw [hr.total, hk] at hc
    exact Memory.bound_write _ hx (Nat.lt_of_lt_of_le hc hr.fits)

/-- What an instruction that answers next makes of the selected engine `x`. -/
inductive Effect (cfg : Config) (i : Instr) (x : Bcdec) : Bcdec → Prop where
  /-- CHECK of a FORMAT word that names a kind (R78). -/
  | check (k : JobKind) (hi : instrKind i = some k) (hp : x.job.phase = .check) : Effect cfg i x (checkJob cfg k x)
  /-- CHECK of an illegal FORMAT word (R49). -/
  | raise (e : JobError) (hp : x.job.phase = .check) (he : e = .unsupportedFormat ∨ e = .unsupportedAlphaDepth) :
    Effect cfg i x (raiseError e x)
  /-- RUN: a unit, and the cursor's advance (R79). -/
  | run (k : JobKind) (z : Bcdec) (hi : instrKind i = some k) (hp : x.job.phase = .run) (hu : kindUnit k x = .ok z) :
    Effect cfg i x (advance z)
  /-- A register write (R68). -/
  | reg (off v : Word) (r : Reg) (hi : i = .wr off v) (hr : regOf off = some r) : Effect cfg i x (regWrite x v r)
  /-- START (R75). -/
  | start (high : BitVec 31) (hi : i = .start high) : Effect cfg i x (doStart x)
  /-- An SRCMEM write (R70). -/
  | src (a v : Word) (hi : i = .wrsrc a v) (ha : a.toNat < cfg.srcCap) :
    Effect cfg i x (idleWrite x { x with src := Memory.write x.src a.toNat (srcByte v) })
  /-- A PALMEM write (R72). -/
  | pal (j w : Word) (hi : i = .wrpal j w) (hj : j.toNat < 256) :
    Effect cfg i x (idleWrite x { x with pal := Memory.write x.pal j.toNat w })

/-- Everything `exec` can do when it answers next: leave every engine alone, or put one effect on the selected engine. -/
theorem exec_next {i : Instr} {s t : State} (h : exec i s = .next t) :
    ∃ x, Selected s x ∧
      ((t.insts = s.insts ∧ t.cfg = s.cfg ∧ t.turns = s.turns ∧ t.sel = s.sel) ∨
       ∃ y, t = putSel s y ∧ Effect s.cfg i x y) := by
  cases i
  case reservedKind7 => cases h
  case illegalFormat | illegalAlphaDepth =>
    obtain ⟨x, hx, ⟨hp, rfl⟩ | ⟨-, rfl⟩⟩ := engineRaise_next h
    · exact ⟨x, hx, .inr ⟨_, rfl, .raise _ hp (by simp)⟩⟩
    · exact ⟨x, hx, .inl ⟨rfl, rfl, rfl, rfl⟩⟩
  case bc1 | bc2 | bc3 | pal0 | pal1 | pal4 | pal8 =>
    obtain ⟨x, hx, ⟨-, rfl⟩ | ⟨hp, rfl⟩ | ⟨hp, y, hy, rfl⟩⟩ := engineStep_next h
    · exact ⟨x, hx, .inl ⟨rfl, rfl, rfl, rfl⟩⟩
    · exact ⟨x, hx, .inr ⟨_, rfl, .check _ rfl hp⟩⟩
    · exact ⟨x, hx, .inr ⟨_, rfl, .run _ _ rfl hp hy⟩⟩
  case wr =>
    obtain ⟨x, hx, h⟩ := withSel_next h
    split at h
    · cases h
    · cases h; exact ⟨x, hx, .inr ⟨_, rfl, .reg _ _ _ rfl ‹_›⟩⟩
  case start =>
    obtain ⟨x, hx, h⟩ := withSel_next h
    cases h; exact ⟨x, hx, .inr ⟨_, rfl, .start _ rfl⟩⟩
  case wrsrc =>
    obtain ⟨x, hx, h⟩ := withSel_next h
    split at h
    · cases h
    · cases h; exact ⟨x, hx, .inr ⟨_, rfl, .src _ _ rfl (Nat.not_le.1 ‹_›)⟩⟩
  case wrpal =>
    obtain ⟨x, hx, h⟩ := withSel_next h
    split at h
    · cases h
    · cases h; exact ⟨x, hx, .inr ⟨_, rfl, .pal _ _ rfl (Nat.not_le.1 ‹_›)⟩⟩
  all_goals
    obtain ⟨x, hx, h⟩ := withSel_next h
    refine ⟨x, hx, .inl ?_⟩
    repeat' split at h
    all_goals first
      | (cases h; exact ⟨rfl, rfl, rfl, rfl⟩)
      | cases h

/-- The kind a FORMAT word's instruction names is the word's kind. -/
theorem instrKind_decodeFormat {w : Word} {k : JobKind} (h : instrKind (decodeFormat w) = some k) :
    kindOf w = .ok k := by
  unfold decodeFormat at h
  split at h
  · rename_i k' hk
    rw [hk]
    cases k' <;> simp_all [kindInstr, instrKind]
  · simp [instrKind] at h
  · simp [instrKind] at h

theorem instrKind_kindInstr (k : JobKind) (w : Word) : instrKind (kindInstr k w) = some k := by cases k <;> rfl

/-- A transaction names no kind. -/
theorem instrKind_decodeTxn (t : Txn) : instrKind (decodeTxn t) = none := by
  unfold decodeTxn decodeWr
  split <;> (try split) <;> rfl

/-- The kind an engine's instruction names: that of JOB.FMT in CHECK, JOB.KIND in RUN. -/
theorem engineInstr_kind {x : Bcdec} {i : Instr} {k : JobKind} (h : engineInstr x = some i) (hk : instrKind i = some k) :
    (x.job.phase = .check → kindOf x.job.fmt = .ok k) ∧ (x.job.phase = .run → x.job.kind = k) := by
  cases hp : x.job.phase <;> simp only [engineInstr, hp] at h <;> cases h
  · exact ⟨fun _ => instrKind_decodeFormat hk, by simp⟩
  · rw [instrKind_kindInstr] at hk
    exact ⟨by simp, fun _ => by cases hk; rfl⟩

/-- The kind that the instruction of a step names is the engine's own: a transaction names none. -/
theorem fetched_kind {s : State} {k : Nat} {x : Bcdec} {i : Instr} {kd : JobKind}
    (h : (∃ w ts, s.turns = .host k w :: ts ∧ i = decodeTxn w) ∨
      ((s.turns = [] ∨ ∃ ts, s.turns = .engine k :: ts) ∧ engineInstr x = some i)) (hk : instrKind i = some kd) :
    (x.job.phase = .check → kindOf x.job.fmt = .ok kd) ∧ (x.job.phase = .run → x.job.kind = kd) := by
  rcases h with ⟨w, ts, -, rfl⟩ | ⟨-, h⟩
  · rw [instrKind_decodeTxn] at hk; cases hk
  · exact engineInstr_kind h hk

/-- What a step that answers next makes of engine `k`, which was `x`. -/
inductive Change (s : State) (k : Nat) (x : Bcdec) : Bcdec → Prop where
  | mark (m : Mark) : Change s k x (addMark m x)
  | reset (ts : List Turn) (h : s.turns = .reset k :: ts) : Change s k x (resetBcdec x)
  /-- An effect of an instruction: the transaction of the host's turn, or the engine's own in its turn, or with none left. -/
  | effect (i : Instr) (y : Bcdec) (he : Effect s.cfg i x y)
      (hi : (∃ w ts, s.turns = .host k w :: ts ∧ i = decodeTxn w) ∨
        ((s.turns = [] ∨ ∃ ts, s.turns = .engine k :: ts) ∧ engineInstr x = some i)) : Change s k x y

/-- Everything a step can do to the engines: nothing, or one change of one engine. -/
theorem step_changes {s t : State} (h : step s = .next t) :
    t.cfg = s.cfg ∧
      ((t.insts = s.insts ∧ ∀ j ts, s.turns ≠ .reset j :: ts) ∨
       ∃ k x y, s.insts[k]? = some x ∧ t.insts = s.insts.set k y ∧ Change s k x y) := by
  rcases step_next h with h | ⟨i, u, hf, h⟩
  · rcases fetch_rest h with ⟨ht, rfl⟩ | ⟨k, ts, ht, rfl⟩ | ⟨k, x, ts, ht, hx, rfl⟩
    · exact ⟨rfl, .inl ⟨rfl, by simp [ht]⟩⟩
    · exact ⟨rfl, .inl ⟨rfl, by simp [ht]⟩⟩
    · exact ⟨rfl, .inr ⟨k, x, _, hx, rfl, .reset ts ht⟩⟩
  · obtain ⟨k, x, ts, hx, rfl, hi⟩ := fetch_run hf
    have hsel : Selected (turnState s k ts) x := hx
    rcases h with h | ⟨f, -, -, rfl⟩ | ⟨f, -, -, rfl⟩
    · obtain ⟨x', hx', ⟨hn, hc, -, -⟩ | ⟨y, rfl, he⟩⟩ := exec_next h
      · refine ⟨hc, .inl ⟨hn, fun j us => ?_⟩⟩
        rcases hi with ⟨w, ht, -⟩ | ⟨ht | ⟨ht, -⟩, -⟩ <;> simp [ht]
      · cases hsel.symm.trans hx'
        refine ⟨rfl, .inr ⟨k, x, y, hx, rfl, .effect i y he ?_⟩⟩
        rcases hi with ⟨w, ht, hi⟩ | ⟨ht | ⟨ht, -⟩, hi⟩
        · exact .inl ⟨w, ts, ht, hi⟩
        · exact .inr ⟨.inr ⟨ts, ht⟩, hi⟩
        · exact .inr ⟨.inl ht, hi⟩
    · rw [markSel_selected hsel]
      exact ⟨rfl, .inr ⟨k, x, _, hx, rfl, .mark _⟩⟩
    · rw [markSel_selected hsel]
      exact ⟨rfl, .inr ⟨k, x, _, hx, rfl, .mark _⟩⟩

/-- What a step can do to one engine: nothing, or one change. -/
theorem step_engine {s t : State} {k : Nat} {x y : Bcdec} (h : step s = .next t) (hx : s.insts[k]? = some x)
    (hy : t.insts[k]? = some y) : y = x ∨ Change s k x y := by
  rcases (step_changes h).2 with ⟨hi, -⟩ | ⟨j, x', y', hx', hi, hc⟩
  · rw [hi, hx] at hy
    exact .inl (by cases hy; rfl)
  · rw [hi, List.getElem?_set] at hy
    split at hy
    · subst j
      cases hx.symm.trans hx'
      split at hy
      · cases hy; exact .inr hc
      · cases hy
    · exact .inl (by cases hx.symm.trans hy; rfl)

end Sys2Proof.Machine
end

