-- ==== Sys2Proof/Laws/PerInstr.lean ====
section
/-! SUPPORT. The per-instruction law: the word of an instruction has the bits its row of spec/opcode_table.json fixes. -/

namespace Sys2Proof.Laws.Encoding

/-- The encoded word has the bits of the instruction's row (mask and match). -/
def Statement (i : Instr) : Prop := (encode i).meets i.row

/-- A FORMAT word from its bits under the mask. -/
theorem format_meets {c a p m : Byte} {mask pattern : Nat}
    (h : ∀ k, k < 32 → ((formatWord c a p m).getLsbD k && (BitVec.ofNat 32 mask).getLsbD k) =
      (BitVec.ofNat 32 pattern).getLsbD k) : (Encoded.format (formatWord c a p m)).meets ⟨mask, pattern⟩ :=
  BitVec.eq_of_getLsbD_eq fun k hk => by rw [BitVec.getLsbD_and]; exact h k hk

/-- A transaction from its bits under the mask. -/
theorem txn_meets {kind : BitVec 3} {addr data : Word} {mask pattern : Nat}
    (h : ∀ k, k < 67 → ((txnWord kind addr data).getLsbD k && (BitVec.ofNat 67 mask).getLsbD k) =
      (BitVec.ofNat 67 pattern).getLsbD k) : (Encoded.txn (txnWord kind addr data)).meets ⟨mask, pattern⟩ :=
  BitVec.eq_of_getLsbD_eq fun k hk => by rw [BitVec.getLsbD_and]; exact h k hk

theorem bc1 (adepth mips : Byte) : Statement (.bc1 adepth mips) :=
  format_meets fun k hk => by rw [formatWord_bit]; interval_cases k <;> simp

theorem bc2 (adepth mips : Byte) : Statement (.bc2 adepth mips) :=
  format_meets fun k hk => by rw [formatWord_bit]; interval_cases k <;> simp

theorem bc3 (adepth mips : Byte) : Statement (.bc3 adepth mips) :=
  format_meets fun k hk => by rw [formatWord_bit]; interval_cases k <;> simp

theorem pal0 (comp acomp mips : Byte) : Statement (.pal0 comp acomp mips) :=
  format_meets fun k hk => by rw [formatWord_bit]; interval_cases k <;> simp

theorem pal1 (comp acomp mips : Byte) : Statement (.pal1 comp acomp mips) :=
  format_meets fun k hk => by rw [formatWord_bit]; interval_cases k <;> simp

theorem pal4 (comp acomp mips : Byte) : Statement (.pal4 comp acomp mips) :=
  format_meets fun k hk => by rw [formatWord_bit]; interval_cases k <;> simp

theorem pal8 (comp acomp mips : Byte) : Statement (.pal8 comp acomp mips) :=
  format_meets fun k hk => by rw [formatWord_bit]; interval_cases k <;> simp

theorem illegalFormat (adepth acomp mips : Byte) : Statement (.illegalFormat adepth acomp mips) :=
  format_meets fun k hk => by rw [formatWord_bit]; interval_cases k <;> simp

theorem illegalAlphaDepth (comp adepth acomp mips : Byte) : Statement (.illegalAlphaDepth comp adepth acomp mips) :=
  format_meets fun k hk => by rw [formatWord_bit]; interval_cases k <;> simp

theorem rd (off data : Word) : Statement (.rd off data) :=
  txn_meets fun k hk => by rw [txnWord_bit]; interval_cases k <;> simp

theorem wr (off v : Word) : Statement (.wr off v) :=
  txn_meets fun k hk => by rw [txnWord_bit]; interval_cases k <;> simp

theorem start_low (high : BitVec 31) : (high ++ 1#1 : BitVec (31 + 1)).getLsbD 0 = true := by
  rw [BitVec.getLsbD_append]; rfl

theorem start (high : BitVec 31) : Statement (.start high) :=
  txn_meets fun k hk => by
    rw [txnWord_bit]
    interval_cases k
    · exact congrArg (· && true) (start_low high)
    all_goals simp

theorem wrsrc (a data : Word) : Statement (.wrsrc a data) :=
  txn_meets fun k hk => by rw [txnWord_bit]; interval_cases k <;> simp

theorem rdsrc (a data : Word) : Statement (.rdsrc a data) :=
  txn_meets fun k hk => by rw [txnWord_bit]; interval_cases k <;> simp

theorem wrpal (i w : Word) : Statement (.wrpal i w) :=
  txn_meets fun k hk => by rw [txnWord_bit]; interval_cases k <;> simp

theorem rdpal (i data : Word) : Statement (.rdpal i data) :=
  txn_meets fun k hk => by rw [txnWord_bit]; interval_cases k <;> simp

theorem rddst (j data : Word) : Statement (.rddst j data) :=
  txn_meets fun k hk => by rw [txnWord_bit]; interval_cases k <;> simp

theorem reservedKind7 (addr data : Word) : Statement (.reservedKind7 addr data) :=
  txn_meets fun k hk => by rw [txnWord_bit]; interval_cases k <;> simp

end Sys2Proof.Laws.Encoding
end

