-- ==== Sys2Proof/Tests/Slice0.lean ====
section
/-! SUPPORT. The model's own tests: ill-formed terms, words written out from the encodings, single steps with the spec's
own examples (95_test_vectors.md and the rules' examples), and for each obligation a state that meets its hypotheses. -/

namespace Sys2Proof.Tests

open Sys2Proof Sys2Proof.Machine

/-! ### Small states -/

/-- SRCMEM cells from `a` on. -/
def cells (a : Nat) : List Byte → Memory 8
  | [] => []
  | b :: bs => (a, b) :: cells (a + 1) bs

/-- An idle engine, its registers and buffers written. -/
def idle (fmt w h len : Word) (bs : List Byte) (pal : Memory 32) : Bcdec :=
  { Bcdec.reset with format := fmt, width := w, height := h, srcLen := len, src := cells 0 bs, pal := pal }

/-- A system of one engine. -/
def one (x : Bcdec) : State := { State.reset with insts := [x] }

/-- The engine once CHECK has passed a job of kind `k`. -/
def checked (k : JobKind) (x : Bcdec) : Bcdec := checkJob .vectors k (doStart x)

/-- The solid BC1 block of program P1. -/
def p1 : Bcdec := idle 0x00000002 4 4 8 [0x1F, 0x00, 0x1F, 0x00, 0x00, 0x00, 0x00, 0x00] []

/-- The palette image of program P2, as a job of kind PAL0, PAL1, PAL4 or PAL8 with one plane. -/
def p2 (fmt len : Word) (plane : List Byte) : Bcdec :=
  idle fmt 2 1 len ([0x03, 0x0A] ++ plane) [(3, 0xAB112233), (10, 0x00445566)]

/-- The BC2 example of R99. -/
def p3 : Bcdec :=
  idle 0x00010002 4 4 16
    [0x10, 0x32, 0x54, 0x76, 0x98, 0xBA, 0xDC, 0xFE, 0xFF, 0xFF, 0x00, 0x00, 0x00, 0x00, 0x00, 0x00] []

/-- The BC3 block of program P4. -/
def p4 : Bcdec :=
  idle 0x00070002 4 4 16
    [0xFF, 0x00, 0x88, 0xC6, 0xFA, 0x88, 0xC6, 0xFA, 0xFF, 0xFF, 0x00, 0x00, 0x00, 0x00, 0x00, 0x00] []

def outState : Result → Option State
  | .next t => some t
  | .fault _ | .refused _ => none

def outFault : Result → Option Fault
  | .fault f => some f
  | .next _ | .refused _ => none

def outRefusal : Result → Option Refusal
  | .refused f => some f
  | .next _ | .fault _ => none

/-- The first engine of a next state. -/
def outEngine (r : Result) : Option Bcdec := (outState r).bind (fun t => t.insts[0]?)

/-- The newest reply of a next state. -/
def outReply (r : Result) : Option Word := (outState r).bind (fun t => t.replies.head?.map (fun c => c.2))

/-- STATUS and OUT_COUNT of the first engine of a next state. -/
def outStatus (r : Result) : Option (Word × Word) :=
  (outEngine r).map (fun x => (statusWord x.status, x.outCount))

/-- A DSTMEM cell of the first engine of a next state. -/
def outTexel (r : Result) (j : Nat) : Option Word := (outEngine r).bind (fun x => Memory.read x.dst j)

/-! ### WellFormed: an ill-formed term for each check -/

theorem test_ill_palette_comp : (Instr.pal0 2 0 0).wellFormed = false ∧ (Instr.pal1 2 0 0).wellFormed = false ∧
    (Instr.pal4 2 0 0).wellFormed = false ∧ (Instr.pal8 2 0 0).wellFormed = false := by decide

theorem test_ill_illegal_acomp : (Instr.illegalFormat 0 0 0).wellFormed = false ∧
    (Instr.illegalFormat 0 1 0).wellFormed = false ∧ (Instr.illegalFormat 0 7 0).wellFormed = false := by decide

theorem test_ill_illegal_depth : (Instr.illegalAlphaDepth 1 0 0 0).wellFormed = false ∧
    (Instr.illegalAlphaDepth 1 1 0 0).wellFormed = false ∧ (Instr.illegalAlphaDepth 1 4 0 0).wellFormed = false ∧
    (Instr.illegalAlphaDepth 1 8 0 0).wellFormed = false ∧ (Instr.illegalAlphaDepth 2 3 0 0).wellFormed = false := by
  decide

theorem test_ill_start_as_wr : (Instr.wr 0 1).wellFormed = false := by decide

/-! ### Decoding: words written out from R48 and R66 -/

/-- BC1: MIPS 0xA1, ACOMP 0, ADEPTH 0x5C, COMP 2. -/
theorem test_decode_bc1 : decodeTableWord 32 0b10100001000000000101110000000010 = some (.bc1 0x5C 0xA1) := by decide

/-- BC2: MIPS 1, ACOMP 1, ADEPTH 8, COMP 2. -/
theorem test_decode_bc2 : decodeTableWord 32 0b00000001000000010000100000000010 = some (.bc2 8 1) := by decide

/-- BC3 with ADEPTH 3, the example of R50. -/
theorem test_decode_bc3 : decodeTableWord 32 0b00000000000001110000001100000010 = some (.bc3 3 0) := by decide

/-- PAL0: COMP 0x82, whose low bits are those of COMP 2. -/
theorem test_decode_pal0 : decodeTableWord 32 0b00000000000000010000000010000010 = some (.pal0 0x82 1 0) := by decide

/-- PAL1: COMP 1. -/
theorem test_decode_pal1 : decodeTableWord 32 0b00000000000000000000000100000001 = some (.pal1 1 0 0) := by decide

/-- PAL4: COMP 0, ACOMP 7. -/
theorem test_decode_pal4 : decodeTableWord 32 0b00000000000001110000010000000000 = some (.pal4 0 7 0) := by decide

/-- PAL8: COMP 0xFF, MIPS 0xFF. -/
theorem test_decode_pal8 : decodeTableWord 32 0b11111111000000000000100011111111 = some (.pal8 0xFF 0 0xFF) := by decide

/-- ACOMP 2 with COMP 2, and ADEPTH 2 with COMP 1 (R49). -/
theorem test_decode_illegal :
    decodeTableWord 32 0b00000000000000100000000000000010 = some (.illegalFormat 0 2 0) ∧
    decodeTableWord 32 0b00000000000000000000001000000001 = some (.illegalAlphaDepth 1 2 0 0) := by decide

/-- Kind 0, the register at 0x18. -/
theorem test_decode_rd : decodeTableWord 67 0x00000001800000000 = some (.rd 0x18 0) := by decide

/-- Kind 1: WIDTH, and CTRL with and without bit 0. -/
theorem test_decode_wr_start :
    decodeTableWord 67 0x10000000CFFFFFFFF = some (.wr 0x0C 0xFFFFFFFF) ∧
    decodeTableWord 67 0x10000000000000002 = some (.wr 0 2) ∧
    decodeTableWord 67 0x10000000000000001 = some (.start 0) ∧
    decodeTableWord 67 0x10000000000000005 = some (.start 2) := by decide

/-- Kinds 2 and 3. -/
theorem test_decode_src :
    decodeTableWord 67 0x2000000091234ABE0 = some (.wrsrc 9 0x1234ABE0) ∧
    decodeTableWord 67 0x30000000900000000 = some (.rdsrc 9 0) := by decide

/-- Kinds 4 and 5. -/
theorem test_decode_pal :
    decodeTableWord 67 0x40000000A00445566 = some (.wrpal 10 0x00445566) ∧
    decodeTableWord 67 0x50000000A00000000 = some (.rdpal 10 0) := by decide

/-- Kinds 6 and 7. -/
theorem test_decode_dst_reserved :
    decodeTableWord 67 0x60000000F00000000 = some (.rddst 15 0) ∧
    decodeTableWord 67 0x7FFFFFFFFFFFFFFFF = some (.reservedKind7 0xFFFFFFFF 0xFFFFFFFF) := by decide

/-- Bytes that stand for nothing: a length of 8, and a bit above the 67. -/
theorem test_decode_rejects :
    decodeBytes [0, 0, 0, 0, 0, 0, 0, 0] = .error (.badLength 8) ∧
    decodeBytes [0, 0, 0, 0, 0, 0, 0, 0, 8] = .error .highBits := by decide

/-- The header bytes 8 to 11 of R17. -/
theorem test_header_word : headerFormat [0, 0, 0, 0, 0, 0, 0, 0, 0x02, 0x03, 0x07, 0x00] = some 0x00070302 := by decide

/-- The pseudo-instructions of R67, with the encodings of program P1. -/
theorem test_assembler :
    asmStart = 0x10000000000000001#67 ∧ asmRd .outCount = 0x00000001800000000#67 ∧
    asmJob 2 4 4 8 = [0x10000000800000002#67, 0x10000000C00000004#67, 0x10000001000000004#67, 0x10000001400000008#67] ∧
    asmWrsrcs 0 [0x1F, 0x00] = [0x2000000000000001F#67, 0x20000000100000000#67] ∧
    asmRddsts 0 2 = [0x60000000000000000#67, 0x60000000100000000#67] := by decide

/-! ### Pure functions: the examples of the rules -/

/-- R92. -/
theorem test_expand : expand 0x1234 = { x0 := 0xA5, x1 := 0x45, x2 := 0x10 } := by decide

/-- R94 and R96. -/
theorem test_four_colours :
    (colourTable 0x0001 0x0000).p2 = { x0 := 0x05, x1 := 0, x2 := 0 } ∧
    colourTable 0x07E0 0x001F =
      { p0 := { x0 := 0x00, x1 := 0xFF, x2 := 0x00 }, p1 := { x0 := 0xFF, x1 := 0x00, x2 := 0x00 }
        p2 := { x0 := 0x55, x1 := 0xAA, x2 := 0x00 }, p3 := { x0 := 0xAA, x1 := 0x55, x2 := 0x00 } } := by decide

/-- R93 and R95: equal endpoints, and the packed compare. -/
theorem test_three_colours :
    (colourTable 0x0000 0xFFFF).p2 = { x0 := 0x7F, x1 := 0x7F, x2 := 0x7F } ∧
    (colourTable 0xFFFF 0xFFFF).p3 = { x0 := 0, x1 := 0, x2 := 0 } ∧ fourColour 0x0800 0x07FF = true := by decide

/-- R97: indices 0, 3, 2, 1 from byte 0x6C. -/
theorem test_colour_index :
    (List.range 4).map (colorIndex 0x0000006C) = [0, 3, 2, 1] ∧
    (List.range 4).map (colorIndex 0xE4E4E4E4) = [0, 1, 2, 3] := by decide

/-- R100. -/
theorem test_alpha_table :
    (List.range 8).map (fun i => alphaEntry 255 0 (BitVec.ofNat 3 i)) = [255, 0, 218, 182, 145, 109, 72, 36] ∧
    (List.range 8).map (fun i => alphaEntry 0 255 (BitVec.ofNat 3 i)) = [0, 255, 51, 102, 153, 204, 0, 255] ∧
    (List.range 8).map (fun i => alphaEntry 0 0 (BitVec.ofNat 3 i)) = [0, 0, 0, 0, 0, 0, 0, 255] := by decide

/-! ### One step of each instruction -/

/-- BC1 (R98, P1): CHECK, then the block. -/
theorem test_bc1_check :
    (outEngine (exec (.bc1 0 0) (one (doStart p1)))).map (fun x => (x.job.phase, x.job.total)) = some (.run, 1) := by
  decide

theorem test_bc1_run :
    outStatus (exec (.bc1 0 0) (one (checked .bc1 p1))) = some (0x00000002, 16) ∧
    outTexel (exec (.bc1 0 0) (one (checked .bc1 p1))) 15 = some 0xFF0000FF ∧
    outTexel (exec (.bc1 0 0) (one (checked .bc1 p1))) 16 = none := by decide

/-- BC2 (the example of R99). -/
theorem test_bc2_run :
    outTexel (exec (.bc2 0 0) (one (checked .bc2 p3))) 0 = some 0x00FFFFFF ∧
    outTexel (exec (.bc2 0 0) (one (checked .bc2 p3))) 1 = some 0x11FFFFFF ∧
    outTexel (exec (.bc2 0 0) (one (checked .bc2 p3))) 14 = some 0xEEFFFFFF := by decide

/-- BC3 (P4). -/
theorem test_bc3_run :
    outTexel (exec (.bc3 0 0) (one (checked .bc3 p4))) 2 = some 0xDAFFFFFF ∧
    outTexel (exec (.bc3 0 0) (one (checked .bc3 p4))) 5 = some 0x6DFFFFFF ∧
    outTexel (exec (.bc3 0 0) (one (checked .bc3 p4))) 9 = some 0x00FFFFFF := by decide

/-- A block at the right and lower edge: of a 3 by 2 image, pixels outside are discarded (R102). -/
theorem test_bc1_edge :
    (outEngine (exec (.bc1 0 0) (one (checked .bc1 { p1 with width := 3, height := 2 })))).map
      (fun x => x.dst.map (fun c => c.1)) = some [0, 1, 2, 3, 4, 5] := by decide

/-- PAL0 (P2): the entry's top byte is dropped. -/
theorem test_pal0_run :
    outTexel (exec (.pal0 1 0 0) (one (checked .pal0 (p2 1 2 [])))) 0 = some 0xFF112233 := by decide

/-- PAL1 (R88): plane byte 0xAA gives 0x00 to pixel 0. -/
theorem test_pal1_run :
    outTexel (exec (.pal1 1 0 0) (one (checked .pal1 (p2 0x101 3 [0xAA])))) 0 = some 0x00112233 := by decide

theorem test_pal1_check_short :
    outStatus (exec (.pal1 1 0 0) (one (doStart (p2 0x101 2 [0xAA])))) = some (0x00000106, 0) := by decide

/-- PAL4 (R89): plane byte 0x21 gives 0x11 to pixel 0. -/
theorem test_pal4_run :
    outTexel (exec (.pal4 1 0 0) (one (checked .pal4 (p2 0x401 3 [0x21])))) 0 = some 0x11112233 := by decide

/-- PAL8 (R90). -/
theorem test_pal8_run :
    outTexel (exec (.pal8 1 0 0) (one (checked .pal8 (p2 0x801 4 [0x80, 0x7F])))) 0 = some 0x80112233 := by decide

/-- The illegal words (R49, P5). -/
theorem test_illegal_check :
    outStatus (exec (.illegalFormat 0 2 0) (one (doStart { p1 with format := 0x00020002 }))) = some (0x00000206, 0) ∧
    outStatus (exec (.illegalAlphaDepth 1 2 0 0) (one (doStart { p1 with format := 0x00000201 }))) =
      some (0x00000306, 0) := by decide

/-- Bad dimensions: a negative width, and an image above DST_CAP (R78). -/
theorem test_bad_dimensions :
    outStatus (exec (.bc1 0 0) (one (doStart { p1 with width := 0xFFFFFFFF }))) = some (0x00000606, 0) ∧
    outStatus (exec (.bc1 0 0) (one (doStart { p1 with width := 257, height := 1 }))) = some (0x00000606, 0) := by decide

/-- No pixel: the job ends well at once (R78). -/
theorem test_empty_job :
    outStatus (exec (.pal0 0 0 0) (one (doStart Bcdec.reset))) = some (0x00000002, 0) := by decide

/-- `rd` (R69): STATUS of a failed job that saw a write. -/
theorem test_rd :
    outReply (exec (.rd 4 0) (one { p1 with status :=
      { busy := false, done := true, error := true, wbusy := true, errcode := 6 } })) = some 0x0000060E ∧
    outRefusal (exec (.rd 0x20 0) (one p1)) = some .regAccess := by decide

/-- `wr` (R68): idle, and while a job runs. -/
theorem test_wr :
    (outEngine (exec (.wr 0x0C 0xFFFFFFFF) (one p1))).map (fun x => x.width) = some 0xFFFFFFFF ∧
    (outEngine (exec (.wr 0x0C 8) (one (doStart p1)))).map (fun x => (x.width, statusWord x.status)) =
      some (4, 0x00000009) := by decide

/-- `start` (R75), and a START while BUSY. -/
theorem test_start :
    outStatus (exec (.start 0) (one p1)) = some (0x00000001, 0) ∧
    outStatus (exec (.start 0) (one (checked .bc1 p1))) = some (0x00000009, 0) := by decide

/-- `wrsrc` (R70): bits 31:8 are ignored. -/
theorem test_wrsrc :
    (outEngine (exec (.wrsrc 2 0xFFFFFF77) (one p1))).bind (fun x => Memory.read x.src 2) = some 0x77 ∧
    outRefusal (exec (.wrsrc 256 0) (one p1)) = some .srcRange := by decide

/-- `rdsrc` (R71). -/
theorem test_rdsrc :
    outReply (exec (.rdsrc 0 0) (one p1)) = some 0x0000001F ∧
    outFault (exec (.rdsrc 8 0) (one p1)) = some (.unwrittenSrc 8) := by decide

/-- `wrpal` (R72): all 32 bits are stored. -/
theorem test_wrpal :
    (outEngine (exec (.wrpal 3 0xAB112233) (one p1))).bind (fun x => Memory.read x.pal 3) = some 0xAB112233 ∧
    outRefusal (exec (.wrpal 256 0) (one p1)) = some .palRange := by decide

/-- `rdpal` (R73). -/
theorem test_rdpal :
    outReply (exec (.rdpal 3 0) (one (p2 1 2 []))) = some 0xAB112233 ∧
    outFault (exec (.rdpal 4 0) (one (p2 1 2 []))) = some (.unwrittenPal 4) := by decide

/-- `rddst` (R74): idle, and a draw while BUSY, of which nothing but its being taken is known. -/
theorem test_rddst :
    outReply (exec (.rddst 15 0) (one { p1 with dst := [(15, 0xFF0000FF)] })) = some 0xFF0000FF ∧
    outFault (exec (.rddst 0 0) (one p1)) = some (.unwrittenDst 0) := by decide

theorem test_rddst_busy :
    (outState (exec (.rddst 15 0) (one (doStart p1)))).map (fun t => (t.draws, t.insts)) = some (1, [doStart p1]) := by
  decide

/-- Kind 7 (R109), and what a step makes of it (R29). -/
theorem test_reserved :
    outRefusal (exec (.reservedKind7 0 0) (one p1)) = some .txnKind ∧
    (outEngine (step { one p1 with turns := [.host 0 0x70000000000000000] })).map (fun x => x.faults) =
      some [.refusal .txnKind] := by decide

/-- An idle system takes no step, and the words the host places run (R117; notes/assumptions/18). -/
theorem test_steps :
    outState (step State.reset) = some State.reset ∧
    outReply (step (State.reset.withFetchWord 67 0x00000001800000000)) = some 0 ∧
    outStatus (step (State.reset.withFetchWord 32 0x00FF0002)) = some (0x00000206, 0) := by decide

/-! ### Witnesses: for each obligation with hypotheses, a state and operands that meet them -/

/-- The engine of P1 in CHECK and in RUN, and that of P2 as PAL0 in CHECK. -/
def p1Check : Bcdec := doStart p1

def p1Run : Bcdec := checked .bc1 p1

def p2Check : Bcdec := doStart (p2 1 2 [])

/-- The next turn is engine 0's. -/
def turnOf (x : Bcdec) : State := { one x with turns := [.engine 0] }

theorem vectors_valid : Config.vectors.Valid := ⟨by decide, by decide, by decide, by decide, by decide⟩

theorem one_inv {x : Bcdec} {ts : List Turn} (h : x.Inv .vectors) : State.Inv { one x with turns := ts } :=
  ⟨vectors_valid, rfl, fun y hy => by
    have hy : y = x := by simpa [one] using hy
    exact hy ▸ h⟩

theorem p1_inv : p1.Inv .vectors :=
  ⟨by decide, by decide, by decide, by decide, by decide, by decide, .inr (.inr (.inr ⟨rfl, rfl, rfl, rfl⟩)), by decide,
    fun _ => rfl, fun _ => rfl, by decide, by decide, (fun h => by cases h), by decide⟩

theorem p1Check_inv : p1Check.Inv .vectors :=
  ⟨by decide, by decide, by decide, by decide, by decide, by decide, .inl ⟨rfl, rfl, rfl, rfl⟩, by decide,
    fun _ => rfl, fun _ => rfl, by decide, by decide, (fun h => by cases h), by decide⟩

theorem p1Run_running : Running .vectors p1Run :=
  ⟨by decide, by decide, by decide, by decide, by decide, by decide, by decide, by decide⟩

theorem p1Run_inv : p1Run.Inv .vectors :=
  ⟨by decide, by decide, by decide, by decide, by decide, by decide, .inl ⟨rfl, rfl, rfl, rfl⟩, by decide,
    fun _ => rfl, fun _ => rfl, by decide, by decide, fun _ => p1Run_running, by decide⟩

theorem p2Check_inv : p2Check.Inv .vectors :=
  ⟨by decide, by decide, by decide, by decide, by decide, by decide, .inl ⟨rfl, rfl, rfl, rfl⟩, by decide,
    fun _ => rfl, fun _ => rfl, by decide, by decide, (fun h => by cases h), by decide⟩

theorem wit_EncodeThenDecodeIsIdentity :
    (Instr.illegalAlphaDepth 1 2 0 0).wellFormed = true ∧ (Instr.illegalFormat 0 2 0).wellFormed = true ∧
    (Instr.pal0 3 0 0).wellFormed = true ∧ (Instr.wr 0 2).wellFormed = true ∧ (Instr.wr 1 1).wellFormed = true := by
  decide

theorem wit_IllegalFormatWordsExactly :
    InCheck (one p1Check) p1Check ∧ kindOf 0x00080002 = .error .unsupportedFormat ∧
    kindOf 0x00000900 = .error .unsupportedAlphaDepth := ⟨⟨rfl, rfl⟩, by decide, by decide⟩

theorem wit_UnusedFieldsAreIgnored :
    (fmtComp 0x00070302 = 0x02 ∧ fmtComp 0xFF070002 = 0x02 ∧ fmtAcomp 0x00070302 = fmtAcomp 0xFF070002) ∧
    (fmtComp 0x00050001 ≠ 0x02 ∧ fmtComp 0x01000000 ≠ 0x02 ∧ fmtAdepth 0x00050001 = fmtAdepth 0x01000000) ∧
    kindOf 0x00070302 = .ok .bc3 ∧ kindOf 0xFF070002 = .ok .bc3 := by decide

theorem wit_HeaderBytesAreFormat : ([0x42, 0x4C, 0x50, 0x32, 1, 0, 0, 0] : List Byte).length = 8 := rfl

theorem wit_ResetLeavesR30 : (State.resetWith .vectors).insts[0]? = some Bcdec.reset := rfl

/-- The least and the greatest parameters of R4. -/
theorem wit_ResetMeetsInvariant : Config.Valid { srcCap := 16, dstCap := 16, nInst := 1 } ∧
    Config.Valid { srcCap := 2 ^ 32, dstCap := 2 ^ 32 - 1, nInst := 2 } :=
  ⟨⟨by decide, by decide, by decide, by decide, by decide⟩, ⟨by decide, by decide, by decide, by decide, by decide⟩⟩

theorem wit_ResetTurnResetsOneEngine :
    stuckCode { one p1Run with turns := [.reset 0] } = none ∧
    ({ one p1Run with turns := [.reset 0] } : State).turns = .reset 0 :: [] ∧
    ({ one p1Run with turns := [.reset 0] } : State).insts[0]? = some p1Run := by decide

theorem wit_ReadsAfterReset : Config.vectors.Valid ∧ (255#32 : Word).toNat < Config.vectors.srcCap ∧
    (255#32 : Word).toNat < 256 ∧ (255#32 : Word).toNat < Config.vectors.dstCap :=
  ⟨vectors_valid, by decide, by decide, by decide⟩

/-- An engine that is idle, and one that is BUSY, selected. -/
theorem wit_Selected : Selected (one p1) p1 ∧ p1.status.busy = false ∧ Selected (one p1Check) p1Check ∧
    p1Check.status.busy = true := ⟨rfl, rfl, rfl, rfl⟩

/-- Offsets past the edges: an odd one inside the space, and the first beyond it. -/
theorem wit_RegReadReturns : Selected (one p1) p1 ∧ (0x1E#32 : Word).toNat % 4 ≠ 0 ∧
    0x20 ≤ (0x20#32 : Word).toNat := ⟨rfl, by decide, by decide⟩

theorem wit_RegWriteStores : Selected (one p1) p1 ∧ p1.status.busy = false ∧ Selected (one p1Check) p1Check ∧
    p1Check.status.busy = true ∧ (2#32 : Word).getLsbD 0 = false ∧ (3#32 : Word).getLsbD 0 = true ∧
    (0x1D#32 : Word).toNat % 4 ≠ 0 ∧ 0x20 ≤ (0x20#32 : Word).toNat :=
  ⟨rfl, rfl, rfl, rfl, by decide, by decide, by decide, by decide⟩

theorem wit_StartLatchesJob : Selected (one p1) p1 ∧ p1.status.busy = false ∧ Selected (one p1Run) p1Run ∧
    p1Run.status.busy = true ∧ (1#32 : Word).getLsbD 0 = true := ⟨rfl, rfl, rfl, rfl, by decide⟩

theorem wit_SrcWriteStoresByte : Selected (one p1) p1 ∧ p1.status.busy = false ∧ Selected (one p1Run) p1Run ∧
    p1Run.status.busy = true ∧ (one p1).cfg.srcCap ≤ (256#32 : Word).toNat ∧
    (255#32 : Word).toNat < (one p1).cfg.srcCap := ⟨rfl, rfl, rfl, rfl, by decide, by decide⟩

theorem wit_SrcReadReturnsByte : Selected (one p1) p1 ∧ (one p1).cfg.srcCap ≤ (256#32 : Word).toNat ∧
    ((8#32 : Word).toNat < (one p1).cfg.srcCap ∧ Memory.read p1.src (8#32 : Word).toNat = none) ∧
    ((2#32 : Word).toNat < (one p1).cfg.srcCap ∧ Memory.read p1.src (2#32 : Word).toNat = some 0x1F) :=
  ⟨rfl, by decide, by decide, by decide⟩

theorem wit_PalWriteStoresEntry : Selected (one p1) p1 ∧ p1.status.busy = false ∧ Selected (one p1Run) p1Run ∧
    p1Run.status.busy = true ∧ 256 ≤ (256#32 : Word).toNat ∧ (255#32 : Word).toNat < 256 :=
  ⟨rfl, rfl, rfl, rfl, by decide, by decide⟩

theorem wit_PalReadReturnsEntry : Selected (one p2Check) p2Check ∧ 256 ≤ (256#32 : Word).toNat ∧
    ((255#32 : Word).toNat < 256 ∧ Memory.read p2Check.pal (255#32 : Word).toNat = none) ∧
    ((3#32 : Word).toNat < 256 ∧ Memory.read p2Check.pal (3#32 : Word).toNat = some 0xAB112233) :=
  ⟨rfl, by decide, by decide, by decide⟩

/-- P1 with one DSTMEM cell written. -/
def p1Dst : Bcdec := { p1 with dst := [(255, 0xFF0000FF)] }

theorem wit_DstReadReturnsTexel : Selected (one p1Dst) p1Dst ∧ (one p1Dst).cfg.dstCap ≤ (256#32 : Word).toNat ∧
    (Selected (one p1Run) p1Run ∧ (0#32 : Word).toNat < (one p1Run).cfg.dstCap ∧ p1Run.status.busy = true) ∧
    (p1Dst.status.busy = false ∧ Memory.read p1Dst.dst (0#32 : Word).toNat = none) ∧
    ((255#32 : Word).toNat < (one p1Dst).cfg.dstCap ∧ Memory.read p1Dst.dst (255#32 : Word).toNat = some 0xFF0000FF) :=
  ⟨rfl, by decide, ⟨rfl, by decide, rfl⟩, ⟨rfl, by decide⟩, by decide⟩

theorem wit_ReadsHaveNoSideEffect : ∃ t, exec (.rddst 0 0) (one p1Run) = .next t := ⟨_, rfl⟩

theorem wit_HostWritesFrame : Selected (one p1) p1 ∧
    (∃ t, exec (.wr 0x0C 8) (one p1) = .next t) ∧ (∃ t, exec (.wr 0x00 2) (one p1) = .next t) ∧ (∃ t, exec (.start 0) (one p1) = .next t) ∧
    (∃ t, exec (.wrsrc 255 8) (one p1) = .next t) ∧ (∃ t, exec (.wrpal 255 8) (one p1) = .next t) :=
  ⟨rfl, ⟨_, rfl⟩, ⟨_, rfl⟩, ⟨_, rfl⟩, ⟨_, rfl⟩, ⟨_, rfl⟩⟩

theorem wit_HostCannotTouchRunningJob : Selected (one p1Run) p1Run ∧ p1Run.status.busy = true ∧
    (∃ t, exec (decodeTxn (asmWr .width 8)) (one p1Run) = .next t) ∧
    (∃ t, exec (decodeTxn (asmRd .status)) (one p1Run) = .next t) := ⟨rfl, rfl, ⟨_, rfl⟩, ⟨_, rfl⟩⟩

/-- P1 in CHECK with other dimensions and another length. -/
def p1With (w h len : Word) : Bcdec := doStart { p1 with width := w, height := h, srcLen := len }

/-- A negative dimension, and an image one pixel above DST_CAP. -/
theorem wit_CheckOutcome_dimensions : instrKind (.bc1 0 0) = some .bc1 ∧
    (InCheck (one (p1With 4 0xFFFFFFFF 8)) (p1With 4 0xFFFFFFFF 8) ∧ (p1With 4 0xFFFFFFFF 8).job.h.toInt < 0) ∧
    (InCheck (one (p1With 257 1 8)) (p1With 257 1 8) ∧
      (256 : Int) < (p1With 257 1 8).job.w.toInt * (p1With 257 1 8).job.h.toInt) :=
  ⟨rfl, ⟨⟨rfl, rfl⟩, by decide⟩, ⟨⟨rfl, rfl⟩, by decide⟩⟩

/-- A length one below reqLen, and one above SRC_CAP, of images that DST_CAP holds. -/
theorem wit_CheckOutcome_length :
    (InCheck (one (p1With 4 4 7)) (p1With 4 4 7) ∧ (p1With 4 4 7).job.w.toInt = (4 : Nat) ∧
      (p1With 4 4 7).job.h.toInt = (4 : Nat) ∧ (p1With 4 4 7).job.len.toNat < reqLen .bc1 4 4) ∧
    (InCheck (one (p1With 16 16 257)) (p1With 16 16 257) ∧ (p1With 16 16 257).job.w.toInt = (16 : Nat) ∧
      16 * 16 ≤ (one (p1With 16 16 257)).cfg.dstCap ∧
      (one (p1With 16 16 257)).cfg.srcCap < (p1With 16 16 257).job.len.toNat) :=
  ⟨⟨⟨rfl, rfl⟩, by decide, by decide, by decide⟩, ⟨⟨rfl, rfl⟩, by decide, by decide, by decide⟩⟩

/-- A job that passes at both bounds, with 16 units, and one without a unit. -/
theorem wit_CheckOutcome_passes :
    (InCheck (one (p1With 16 16 128)) (p1With 16 16 128) ∧ 16 * 16 ≤ (one (p1With 16 16 128)).cfg.dstCap ∧
      (p1With 16 16 128).job.len.toNat = reqLen .bc1 16 16 ∧ units .bc1 16 16 = 16) ∧
    (InCheck (one (p1With 0 4 0)) (p1With 0 4 0) ∧ (p1With 0 4 0).job.len.toNat = reqLen .bc1 0 4 ∧ units .bc1 0 4 = 0) :=
  ⟨⟨⟨rfl, rfl⟩, by decide, by decide, by decide⟩, ⟨⟨rfl, rfl⟩, by decide, by decide⟩⟩

theorem wit_ErrorPriority : InCheck (one p1Check) p1Check ∧ p1Check.Inv (one p1Check).cfg := ⟨⟨rfl, rfl⟩, p1Check_inv⟩

theorem wit_IllegalWordsRaise : InCheck (one p1Check) p1Check := ⟨rfl, rfl⟩

/-- A job in RUN of a block kind, and of each palette kind with a plane, at its last unit. -/
theorem wit_EngineIndicesInRange : Running .vectors p1Run ∧
    Running .vectors { checked .pal1 (p2 0x101 3 [0xAA]) with
      job := { (checked .pal1 (p2 0x101 3 [0xAA])).job with cur := 1 } } ∧
    Running .vectors { checked .pal4 (p2 0x401 3 [0x21]) with
      job := { (checked .pal4 (p2 0x401 3 [0x21])).job with cur := 1 } } ∧
    Running .vectors { checked .pal8 (p2 0x801 4 [1, 2]) with
      job := { (checked .pal8 (p2 0x801 4 [1, 2])).job with cur := 1 } } :=
  ⟨p1Run_running, ⟨by decide, by decide, by decide, by decide, by decide, by decide, by decide, by decide⟩,
    ⟨by decide, by decide, by decide, by decide, by decide, by decide, by decide, by decide⟩,
    ⟨by decide, by decide, by decide, by decide, by decide, by decide, by decide, by decide⟩⟩

/-- The four palette kinds in RUN, their inputs written. -/
def p2Run0 : Bcdec := checked .pal0 (p2 1 2 [])

def p2Run1 : Bcdec := checked .pal1 (p2 0x101 3 [0xAA])

def p2Run4 : Bcdec := checked .pal4 (p2 0x401 3 [0x21])

def p2Run8 : Bcdec := checked .pal8 (p2 0x801 4 [0x80, 0x7F])

theorem wit_Pal0DecodesPixel : InRun (one p2Run0) p2Run0 ∧ Memory.read p2Run0.src p2Run0.job.cur = some 3 ∧
    Memory.read p2Run0.pal (3 : Byte).toNat = some 0xAB112233 := ⟨⟨rfl, rfl⟩, by decide, by decide⟩

theorem wit_Pal1DecodesPixel : InRun (one p2Run1) p2Run1 ∧
    (p2Run1.job.w.toInt = (2 : Nat) ∧ p2Run1.job.h.toInt = (1 : Nat)) ∧
    Memory.read p2Run1.src p2Run1.job.cur = some 3 ∧
    Memory.read p2Run1.src (2 * 1 + p2Run1.job.cur / 8) = some 0xAA ∧
    Memory.read p2Run1.pal (3 : Byte).toNat = some 0xAB112233 :=
  ⟨⟨rfl, rfl⟩, by decide, by decide, by decide, by decide⟩

theorem wit_Pal4DecodesPixel : InRun (one p2Run4) p2Run4 ∧
    (p2Run4.job.w.toInt = (2 : Nat) ∧ p2Run4.job.h.toInt = (1 : Nat)) ∧
    Memory.read p2Run4.src p2Run4.job.cur = some 3 ∧
    Memory.read p2Run4.src (2 * 1 + p2Run4.job.cur / 2) = some 0x21 ∧
    Memory.read p2Run4.pal (3 : Byte).toNat = some 0xAB112233 :=
  ⟨⟨rfl, rfl⟩, by decide, by decide, by decide, by decide⟩

theorem wit_Pal8DecodesPixel : InRun (one p2Run8) p2Run8 ∧
    (p2Run8.job.w.toInt = (2 : Nat) ∧ p2Run8.job.h.toInt = (1 : Nat)) ∧
    Memory.read p2Run8.src p2Run8.job.cur = some 3 ∧
    Memory.read p2Run8.src (2 * 1 + p2Run8.job.cur) = some 0x80 ∧
    Memory.read p2Run8.pal (3 : Byte).toNat = some 0xAB112233 :=
  ⟨⟨rfl, rfl⟩, by decide, by decide, by decide, by decide⟩

/-- What `SrcHolds` says, as a test on numbers. -/
def holds (x : Bcdec) : Nat → List Byte → Bool
  | _, [] => true
  | o, b :: bs => (Memory.read x.src o == some b) && holds x (o + 1) bs

theorem srcHolds_of {x : Bcdec} {o : Nat} {bs : List Byte} (h : holds x o bs = true) : SrcHolds x o bs := by
  induction bs generalizing o with
  | nil => intro k b hk; simp at hk
  | cons c cs ih =>
    simp only [holds, Bool.and_eq_true, beq_iff_eq] at h
    intro k b hk
    cases k with
    | zero => simp only [List.getElem?_cons_zero, Option.some.injEq] at hk; rw [← hk]; exact h.1
    | succ k =>
      have := ih h.2 k b (by simpa using hk)
      rwa [Nat.add_right_comm, Nat.add_assoc] at this

theorem wit_Bc1DecodesBlock : InRun (one p1Run) p1Run ∧
    (p1Run.job.w.toInt = (4 : Nat) ∧ p1Run.job.h.toInt = (4 : Nat)) ∧
    SrcHolds p1Run (p1Run.job.cur * 8) [0x1F, 0x00, 0x1F, 0x00, 0x00, 0x00, 0x00, 0x00] :=
  ⟨⟨rfl, rfl⟩, by decide, srcHolds_of (by decide)⟩

theorem wit_Bc2DecodesBlock : InRun (one (checked .bc2 p3)) (checked .bc2 p3) ∧
    ((checked .bc2 p3).job.w.toInt = (4 : Nat) ∧ (checked .bc2 p3).job.h.toInt = (4 : Nat)) ∧
    SrcHolds (checked .bc2 p3) ((checked .bc2 p3).job.cur * 16)
      [0x10, 0x32, 0x54, 0x76, 0x98, 0xBA, 0xDC, 0xFE, 0xFF, 0xFF, 0x00, 0x00, 0x00, 0x00, 0x00, 0x00] :=
  ⟨⟨rfl, rfl⟩, by decide, srcHolds_of (by decide)⟩

theorem wit_Bc3DecodesBlock : InRun (one (checked .bc3 p4)) (checked .bc3 p4) ∧
    ((checked .bc3 p4).job.w.toInt = (4 : Nat) ∧ (checked .bc3 p4).job.h.toInt = (4 : Nat)) ∧
    SrcHolds (checked .bc3 p4) ((checked .bc3 p4).job.cur * 16)
      [0xFF, 0x00, 0x88, 0xC6, 0xFA, 0x88, 0xC6, 0xFA, 0xFF, 0xFF, 0x00, 0x00, 0x00, 0x00, 0x00, 0x00] :=
  ⟨⟨rfl, rfl⟩, by decide, srcHolds_of (by decide)⟩

/-- Neighbouring field values, for each field. -/
theorem wit_ExpandReplicatesBits : (0x001E#16).toNat % 32 < (0x001F#16).toNat % 32 ∧
    (0x07C0#16).toNat / 32 % 64 < (0x07E0#16).toNat / 32 % 64 ∧ (0xF7FF#16).toNat / 2048 < (0xF800#16).toNat / 2048 := by
  decide

theorem wit_ColourTables : (0x07FF#16).toNat < (0x0800#16).toNat ∧ (0x0800#16).toNat ≤ (0x0800#16).toNat := by decide

/-- Neighbours, a difference of 7, and equal endpoints. -/
theorem wit_AlphaTableEntries : (0xFE#8).toNat < (0xFF#8).toNat ∧ (0xF8#8).toNat + 7 ≤ (0xFF#8).toNat ∧
    (0xFF#8).toNat ≤ (0xFF#8).toNat := by decide

theorem wit_DstByteView : Memory.read p1Dst.dst 255 = some 0xFF0000FF := by decide

/-- P2 with its index byte, its plane byte or its palette entry unwritten. -/
theorem wit_PaletteUnitFaults :
    (InRun (one { p2Run1 with src := [] }) { p2Run1 with src := [] } ∧
      Memory.read ({ p2Run1 with src := [] } : Bcdec).src ({ p2Run1 with src := [] } : Bcdec).job.cur = none) ∧
    (InRun (one { p2Run1 with src := [(0, 3)] }) { p2Run1 with src := [(0, 3)] } ∧
      Memory.read ({ p2Run1 with src := [(0, 3)] } : Bcdec).src ({ p2Run1 with src := [(0, 3)] } : Bcdec).job.cur = some 3 ∧
      Memory.read ({ p2Run1 with src := [(0, 3)] } : Bcdec).src 2 = none) ∧
    (InRun (one { p2Run0 with pal := [] }) { p2Run0 with pal := [] } ∧
      Memory.read ({ p2Run0 with pal := [] } : Bcdec).pal (3 : Byte).toNat = none) :=
  ⟨⟨⟨rfl, rfl⟩, by decide⟩, ⟨⟨rfl, rfl⟩, by decide, by decide⟩, ⟨⟨rfl, rfl⟩, by decide⟩⟩

/-- P2 with its index byte and its plane byte written and its palette entry unwritten, for the three kinds with a plane. -/
theorem wit_PaletteUnitFaults_entry :
    (InRun (one { p2Run1 with pal := [] }) { p2Run1 with pal := [] } ∧
      Memory.read p2Run1.src p2Run1.job.cur = some 3 ∧
      Memory.read p2Run1.src (jobPixels p2Run1 + p2Run1.job.cur / 8) = some 0xAA) ∧
    (InRun (one { p2Run4 with pal := [] }) { p2Run4 with pal := [] } ∧
      Memory.read p2Run4.src p2Run4.job.cur = some 3 ∧
      Memory.read p2Run4.src (jobPixels p2Run4 + p2Run4.job.cur / 2) = some 0x21) ∧
    (InRun (one { p2Run8 with pal := [] }) { p2Run8 with pal := [] } ∧
      Memory.read p2Run8.src p2Run8.job.cur = some 3 ∧
      Memory.read p2Run8.src (jobPixels p2Run8 + p2Run8.job.cur) = some 0x80) ∧
    Memory.read ([] : Memory 32) (3 : Byte).toNat = none :=
  ⟨⟨⟨rfl, rfl⟩, by decide, by decide⟩, ⟨⟨rfl, rfl⟩, by decide, by decide⟩, ⟨⟨rfl, rfl⟩, by decide, by decide⟩, rfl⟩

/-- P1 and P4 without their first, and without their last, byte. -/
theorem wit_BlockUnitFaults :
    (InRun (one { p1Run with src := [] }) { p1Run with src := [] } ∧
      FirstUnwritten { p1Run with src := [] } (({ p1Run with src := [] } : Bcdec).job.cur * 8) 8 0) ∧
    (InRun (one { p1Run with src := p1Run.src.take 7 }) { p1Run with src := p1Run.src.take 7 } ∧
      FirstUnwritten { p1Run with src := p1Run.src.take 7 } 0 8 7) ∧
    (InRun (one { checked .bc3 p4 with src := [] }) { checked .bc3 p4 with src := [] } ∧
      FirstUnwritten { checked .bc3 p4 with src := [] } 0 16 0) := by
  refine ⟨⟨⟨rfl, rfl⟩, by decide, by decide, by decide, fun b _ h => absurd h (by omega)⟩,
    ⟨⟨rfl, rfl⟩, by decide, by decide, by decide, fun b _ h => ?_⟩,
    ⟨⟨rfl, rfl⟩, by decide, by decide, by decide, fun b _ h => absurd h (by omega)⟩⟩
  interval_cases b <;> exact ⟨_, rfl⟩

theorem wit_FaultStepChangesOnlyFaults :
    (∃ u, fetch { one p1 with turns := [.host 0 (asmRdsrc 8)] } = .run (.rdsrc 8 0) u ∧ Selected u p1 ∧
      exec (.rdsrc 8 0) u = .fault (.unwrittenSrc 8)) ∧
    (∃ u, fetch { one p1 with turns := [.host 0 (asmRdsrc 256)] } = .run (.rdsrc 256 0) u ∧ Selected u p1 ∧
      exec (.rdsrc 256 0) u = .refused .srcRange) := ⟨⟨_, rfl, rfl, rfl⟩, ⟨_, rfl, rfl, rfl⟩⟩

theorem wit_FaultsOnlyGrow :
    ∃ t, step { one { p1 with faults := [.refusal .txnKind] } with turns := [.reset 0] } = .next t ∧
      Mark.refusal .txnKind ∈ ({ p1 with faults := [.refusal .txnKind] } : Bcdec).faults := ⟨_, rfl, by decide⟩

theorem wit_FaultedRunNeverEndsWell :
    ∃ t, Host.Core.run Sys2Proof.core 2 { one { p1 with faults := [.refusal .txnKind] } with turns := [.reset 0] } = .next t ∧
      ({ p1 with faults := [.refusal .txnKind] } : Bcdec).faults ≠ [] := ⟨_, rfl, by decide⟩

theorem wit_HostTurnRunsTransaction : stuckCode { one p1 with turns := [.host 0 asmStart] } = none ∧
    ({ one p1 with turns := [.host 0 asmStart] } : State).insts[0]? = some p1 := by decide

theorem wit_EngineTurnRunsFormatWord :
    (stuckCode (turnOf p1Check) = none ∧ (turnOf p1Check).insts[0]? = some p1Check ∧ p1Check.job.phase = .check) ∧
    (stuckCode (turnOf p1Run) = none ∧ (turnOf p1Run).insts[0]? = some p1Run ∧ p1Run.job.phase = .run ∧
      Running (turnOf p1Run).cfg p1Run) := ⟨by decide, by decide, by decide, by decide, p1Run_running⟩

theorem wit_IdleHoldsState :
    (stuckCode (turnOf p1) = none ∧ (turnOf p1).insts[0]? = some p1 ∧ p1.job.phase = .idle) ∧
    (stuckCode (one p1) = none ∧ (one p1).turns = [] ∧ ∀ x ∈ (one p1).insts, x.job.phase = .idle) := by decide

theorem wit_BusyEngineSteps : stuckCode (one p1Run) = none ∧ (one p1Run).turns = [] ∧
    (one p1Run).insts[0]? = some p1Run ∧ p1Run.job.phase ≠ .idle := by decide

/-- P1 with an error code that no job leaves. -/
def p1Stuck : Bcdec := { p1 with status := { p1.status with errcode := 4 } }

theorem wit_ReservedErrorCodeIsStuck : (one p1).Inv ∧ p1Stuck ∈ (one p1Stuck).insts ∧
    reservedCode p1Stuck.status.errcode = true := ⟨one_inv p1_inv, by decide, by decide⟩

theorem wit_StepTouchesOneEngine : ∃ t, step (turnOf p1Run) = .next t := ⟨_, rfl⟩

theorem wit_StepKeepsInvariant : (turnOf p1Run).Inv ∧ ∃ t, step (turnOf p1Run) = .next t :=
  ⟨one_inv p1Run_inv, _, rfl⟩

theorem wit_StatusKeepsUntilStart :
    ∃ t y, step { one p1Dst with turns := [.host 0 asmStart] } = .next t ∧
      State.Inv { one p1Dst with turns := [.host 0 asmStart] } ∧ p1Dst.status.busy = false ∧ t.insts[0]? = some y ∧
      ∀ ts, [Turn.host 0 asmStart] ≠ .reset 0 :: ts :=
  ⟨_, _, rfl, one_inv { p1_inv with dstWf := by decide, dstIn := by decide, running := fun h => by cases h }, rfl, rfl,
    by simp⟩

theorem wit_BusyInputsAreFrozen :
    ∃ t y, step { one p1Run with turns := [.host 0 (asmWrsrc 0 7)] } = .next t ∧
      State.Inv { one p1Run with turns := [.host 0 (asmWrsrc 0 7)] } ∧ p1Run.status.busy = true ∧
      t.insts[0]? = some y ∧ ∀ ts, [Turn.host 0 (asmWrsrc 0 7)] ≠ .reset 0 :: ts :=
  ⟨_, _, rfl, one_inv p1Run_inv, rfl, rfl, by simp⟩

theorem wit_OnlyRunWritesDst : ∃ t y, step (turnOf p1Run) = .next t ∧ (turnOf p1Run).Inv ∧
    (turnOf p1Run).insts[0]? = some p1Run ∧ t.insts[0]? = some y ∧
    Memory.read y.dst 15 ≠ Memory.read p1Run.dst 15 := ⟨_, _, rfl, one_inv p1Run_inv, rfl, rfl, by decide⟩

theorem wit_FailedJobWroteNothing :
    ∃ t y, step (turnOf (doStart { p1 with srcLen := 7 })) = .next t ∧ t.insts[0]? = some y ∧
      (doStart { p1 with srcLen := 7 }).status.error = false ∧ y.status.error = true := ⟨_, _, rfl, rfl, rfl, rfl⟩

/-- P1, a block job of one unit. -/
theorem wit_JobDecodesImage_block :
    State.Inv { one p1Check with turns := List.replicate (1 + units .bc1 (jobW p1Check) (jobH p1Check)) (.engine 0) ++ [] } ∧
    p1Check.job.phase = .check ∧ kindOf p1Check.job.fmt = .ok .bc1 ∧ CheckPasses .vectors .bc1 p1Check ∧
    InputsWritten .bc1 p1Check := by
  refine ⟨one_inv p1Check_inv, rfl, by decide, ⟨by decide, by decide, by decide, by decide, by decide⟩,
    ⟨fun a _ h => ?_, fun h => by simp at h⟩⟩
  have h : a < 0 + 8 := h
  rw [Nat.zero_add] at h
  interval_cases a <;> exact ⟨_, rfl⟩

/-- P2, a palette job of two units. -/
theorem wit_JobDecodesImage_palette :
    State.Inv { one p2Check with turns := List.replicate (1 + units .pal0 (jobW p2Check) (jobH p2Check)) (.engine 0) ++ [] } ∧
    p2Check.job.phase = .check ∧ kindOf p2Check.job.fmt = .ok .pal0 ∧ CheckPasses .vectors .pal0 p2Check ∧
    InputsWritten .pal0 p2Check := by
  refine ⟨one_inv p2Check_inv, rfl, by decide, ⟨by decide, by decide, by decide, by decide, by decide⟩,
    ⟨fun a _ h => ?_, fun _ i b h hb => ?_⟩⟩
  · have h : a < 0 + 2 := h
    rw [Nat.zero_add] at h
    interval_cases a <;> exact ⟨_, rfl⟩
  · have h : i < 2 := h
    interval_cases i <;> cases hb <;> exact ⟨_, rfl⟩

theorem wit_RunningJobHoldsItsImage : ∃ t y, step (turnOf p1Run) = .next t ∧ (turnOf p1Run).Inv ∧
    (turnOf p1Run).insts[0]? = some p1Run ∧ t.insts[0]? = some y ∧ p1Run.job.phase = .run ∧
    (∀ ts, (turnOf p1Run).turns ≠ .reset 0 :: ts) ∧ DecodedBelow p1Run p1Run.job.cur :=
  ⟨_, _, rfl, one_inv p1Run_inv, rfl, rfl, rfl, by simp [turnOf], fun _ _ h => absurd h (Nat.not_lt_zero _)⟩

/-- Two sources and two palettes that differ in cells the job does not read. -/
theorem wit_ImageDependsOnInputsAlone_palette : 1 < (2#32).toInt.toNat * (1#32).toInt.toNat ∧
    (∀ a, a < reqLen .pal0 (2#32).toInt.toNat (1#32).toInt.toNat →
      Memory.read [(0, 3#8), (1, 10#8), (2, 7#8)] a = Memory.read [(0, 3#8), (1, 10#8)] a) ∧
    (JobKind.pal0 = .pal0 ∨ JobKind.pal0 = .pal1 ∨ JobKind.pal0 = .pal4 ∨ JobKind.pal0 = .pal8 →
      ∀ i b, i < (2#32).toInt.toNat * (1#32).toInt.toNat → Memory.read [(0, 3#8), (1, 10#8), (2, 7#8)] i = some b →
        Memory.read [(3, 1#32), (10, 2#32), (11, 5#32)] b.toNat = Memory.read [(3, 1#32), (10, 2#32)] b.toNat) := by
  refine ⟨by decide, by decide, fun _ i b h hb => ?_⟩
  have h : i < 2 := h
  interval_cases i <;> cases hb <;> rfl

/-- A block job, whose palette may be any: the sources of P1, one with a byte more. -/
theorem wit_ImageDependsOnInputsAlone_block : 15 < (4#32).toInt.toNat * (4#32).toInt.toNat ∧
    (∀ a, a < reqLen .bc1 (4#32).toInt.toNat (4#32).toInt.toNat →
      Memory.read p1.src a = Memory.read (p1.src ++ [(8, 7#8)]) a) ∧
    ¬ (JobKind.bc1 = .pal0 ∨ JobKind.bc1 = .pal1 ∨ JobKind.bc1 = .pal4 ∨ JobKind.bc1 = .pal8) :=
  ⟨by decide, by decide, by decide⟩

theorem wit_SingleBlockJob : State.Inv { one p1Check with turns := [.engine 0, .engine 0] } ∧
    p1Check.job.phase = .check ∧ kindOf p1Check.job.fmt = .ok .bc1 ∧ p1Check.job.w = 4 ∧ p1Check.job.h = 4 ∧
    8 ≤ p1Check.job.len.toNat ∧ p1Check.job.len.toNat ≤ Config.vectors.srcCap ∧
    SrcHolds p1Check 0 [0x1F, 0x00, 0x1F, 0x00, 0x00, 0x00, 0x00, 0x00] :=
  ⟨one_inv p1Check_inv, rfl, by decide, rfl, rfl, by decide, by decide, srcHolds_of (by decide)⟩

end Sys2Proof.Tests
end

section
/-! What the next step fetches, and the host's turn (R9, R115). -/

namespace Sys2Proof.Machine

/-- Where no reserved error code stands, what comes next is the turn in hand. -/
theorem fetch_of_stuckCode_none {s : State} (h : stuckCode s = none) : fetch s = fetchTurn s := by
  unfold fetch
  rw [h]

theorem fetchHost_of_inst {s : State} {k : Nat} {x : Bcdec} (h : s.insts[k]? = some x) (w : Txn) :
    fetchHost s k w = .run (decodeTxn w) { s with sel := k } := by
  unfold fetchHost
  rw [h]

theorem fetch_host {s : State} {k : Nat} {w : Txn} {ts : List Turn} {x : Bcdec} (hs : stuckCode s = none)
    (ht : s.turns = .host k w :: ts) (hx : s.insts[k]? = some x) :
    fetch s = .run (decodeTxn w) { s with turns := ts, sel := k } :=
  calc fetch s
    _ = fetchTurn s := fetch_of_stuckCode_none hs
    _ = fetchHost { s with turns := ts } k w := by
      unfold fetchTurn
      rw [ht]
    _ = .run (decodeTxn w) { s with turns := ts, sel := k } := fetchHost_of_inst (s := { s with turns := ts }) hx w

/-- Settles O46: the turn fetches the decoded transaction, and a fetched instruction is run and settled. -/
theorem hostTurnRunsTransaction : Obligations.HostTurnRunsTransaction := by
  intro s k w ts x hs ht hx
  exact step_of_fetch_run (fetch_host hs ht hx)

end Sys2Proof.Machine
end

section
/-! The FORMAT word of a container header (R17, R47). -/

namespace Sys2Proof

/-- Four little-endian bytes are the FORMAT word of those four fields (R6, R17). -/
theorem ofNat_leNat_eq_formatWord (comp adepth acomp mips : Byte) :
    BitVec.ofNat 32 (leNat [comp, adepth, acomp, mips]) = formatWord comp adepth acomp mips := by
  have hdigits : (formatWord comp adepth acomp mips).toNat =
      ((mips.toNat * 2 ^ 8 + acomp.toNat) * 2 ^ 8 + adepth.toNat) * 2 ^ 8 + comp.toNat := by
    simp only [formatWord, BitVec.toNat_append]
    rw [← Nat.shiftLeft_add_eq_or_of_lt comp.isLt, ← Nat.shiftLeft_add_eq_or_of_lt adepth.isLt,
      ← Nat.shiftLeft_add_eq_or_of_lt acomp.isLt]
    simp only [Nat.shiftLeft_eq]
  apply BitVec.eq_of_toNat_eq
  rw [hdigits, BitVec.toNat_ofNat]
  simp only [leNat]
  omega

/-- A header's FORMAT word is that of its bytes 8 to 11 (R47). -/
theorem headerFormat_append (front back : List Byte) (comp adepth acomp mips : Byte) (h : front.length = 8) :
    headerFormat (front ++ [comp, adepth, acomp, mips] ++ back) = some (formatWord comp adepth acomp mips) := by
  have hlen : 12 ≤ (front ++ [comp, adepth, acomp, mips] ++ back).length := by
    simp only [List.length_append, List.length_cons, List.length_nil]
    omega
  have hbytes : ((front ++ [comp, adepth, acomp, mips] ++ back).drop 8).take 4 = [comp, adepth, acomp, mips] := by
    rw [List.append_assoc, List.drop_left' h]
    exact List.take_left' rfl
  unfold headerFormat
  rw [if_pos hlen, hbytes, ofNat_leNat_eq_formatWord]

/-- Settles O7: both the header and the four bytes alone give the FORMAT word of the four fields. -/
theorem headerBytesAreFormat : Obligations.HeaderBytesAreFormat := by
  intro front back comp adepth acomp mips h
  refine ⟨_, headerFormat_append front back comp adepth acomp mips h, fmtComp_formatWord .., fmtAdepth_formatWord ..,
    fmtAcomp_formatWord .., fmtMips_formatWord .., ?_⟩
  rw [← ofNat_leNat_eq_formatWord]
  rfl

end Sys2Proof
end

section
/-! FAULTS (R29): what each change of an engine makes of it. -/

namespace Sys2Proof.Machine

@[simp] theorem doStart_faults (x : Bcdec) : (doStart x).faults = x.faults := by
  unfold doStart
  split <;> rfl

/-- A write that an engine may ignore keeps FAULTS where the write itself does. -/
theorem idleWrite_faults {x y : Bcdec} (h : y.faults = x.faults) : (idleWrite x y).faults = x.faults := by
  unfold idleWrite
  split
  · rfl
  · exact h

/-- Everything a register write can do (R68): nothing, START, or a write of the configuration registers that only an
idle engine takes. -/
theorem regWrite_cases (x : Bcdec) (v : Word) (r : Reg) :
    regWrite x v r = x ∨ regWrite x v r = doStart x ∨
      ∃ format width height srcLen, regWrite x v r =
        idleWrite x { x with format := format, width := width, height := height, srcLen := srcLen } := by
  cases r
  case ctrl =>
    show (if startBit v then doStart x else x) = x ∨ (if startBit v then doStart x else x) = doStart x ∨ _
    split
    · exact .inr (.inl rfl)
    · exact .inl rfl
  case format => exact .inr (.inr ⟨v, x.width, x.height, x.srcLen, rfl⟩)
  case width => exact .inr (.inr ⟨x.format, v, x.height, x.srcLen, rfl⟩)
  case height => exact .inr (.inr ⟨x.format, x.width, v, x.srcLen, rfl⟩)
  case srcLen => exact .inr (.inr ⟨x.format, x.width, x.height, v, rfl⟩)
  case status | outCount | reserved => exact .inl rfl

@[simp] theorem regWrite_faults (x : Bcdec) (v : Word) (r : Reg) : (regWrite x v r).faults = x.faults := by
  rcases regWrite_cases x v r with h | h | ⟨_, _, _, _, h⟩ <;> rw [h]
  · exact doStart_faults x
  · exact idleWrite_faults rfl

@[simp] theorem checkJob_faults (cfg : Config) (k : JobKind) (x : Bcdec) : (checkJob cfg k x).faults = x.faults := by
  rcases checkJob_cases cfg k x with ⟨-, h⟩ | ⟨-, -, h⟩ | ⟨-, -, -, h⟩ | ⟨-, -, -, h⟩ <;> rw [h] <;> rfl

/-- No instruction that answers next changes FAULTS. -/
theorem Effect.faults_eq {cfg : Config} {i : Instr} {x y : Bcdec} (h : Effect cfg i x y) : y.faults = x.faults := by
  cases h with
  | check => exact checkJob_faults ..
  | raise => rfl
  | run _ _ _ _ hu => exact (advance_unitDone (kindUnit_onlyDst hu)).1.inputs.faults
  | reg => exact regWrite_faults ..
  | start => exact doStart_faults x
  | src | pal => exact idleWrite_faults rfl

/-- No change of an engine removes a mark (R29, R118). -/
theorem Change.mem_faults {s : State} {k : Nat} {x y : Bcdec} {m : Mark} (h : Change s k x y) (hm : m ∈ x.faults) :
    m ∈ y.faults := by
  cases h with
  | mark => exact mem_addMark.2 (.inl hm)
  | reset => exact hm
  | effect _ _ he => exact he.faults_eq ▸ hm

/-- A step keeps an engine at every index that has one (R115). -/
theorem step_insts_some {s t : State} {k : Nat} {x : Bcdec} (h : step s = .next t) (hx : s.insts[k]? = some x) :
    ∃ y, t.insts[k]? = some y := by
  obtain ⟨hk, -⟩ := List.getElem?_eq_some_iff.1 hx
  have hlen : t.insts.length = s.insts.length := by
    rcases (step_changes h).2 with ⟨hi, -⟩ | ⟨_, _, _, -, hi, -⟩ <;> simp [hi]
  exact ⟨_, List.getElem?_eq_getElem (hlen ▸ hk)⟩

/-- Settles O44: a step leaves an engine as it is or makes one change of it, and no change removes a mark. -/
theorem faultsOnlyGrow : Obligations.FaultsOnlyGrow := by
  intro s t k x m h hx hm
  obtain ⟨y, hy⟩ := step_insts_some h hx
  refine ⟨y, hy, ?_⟩
  rcases step_engine h hx hy with rfl | hc
  · exact hm
  · exact hc.mem_faults hm

end Sys2Proof.Machine
end

section
/-! The invariant of an engine that has no job, and of the state after reset (R30). -/

namespace Sys2Proof.Machine

/-- The part of an engine's invariant that its job has no say in: the buffers (R23, R24, R25) and FAULTS (R29). -/
structure StorageInv (cfg : Config) (x : Bcdec) : Prop where
  srcWf : Memory.wf x.src
  srcIn : ∀ c ∈ x.src, c.1 < cfg.srcCap
  palWf : Memory.wf x.pal
  palIn : ∀ c ∈ x.pal, c.1 < 256
  dstWf : Memory.wf x.dst
  dstIn : ∀ c ∈ x.dst, c.1 < cfg.dstCap
  faultsNodup : x.faults.Nodup

theorem Bcdec.Inv.storage {cfg : Config} {x : Bcdec} (h : x.Inv cfg) : StorageInv cfg x :=
  ⟨h.srcWf, h.srcIn, h.palWf, h.palIn, h.dstWf, h.dstIn, h.faultsNodup⟩

/-- While an engine is idle its invariant is that of its storage, STATUS and OUT_COUNT. -/
theorem StorageInv.inv_of_idle {cfg : Config} {x : Bcdec} (h : StorageInv cfg x) (hp : x.job.phase = .idle)
    (hb : x.status.busy = false) (hs : x.status.Legal) (he : x.status.error = true → x.outCount = 0)
    (ho : x.outCount.toNat ≤ cfg.dstCap) : x.Inv cfg where
  srcWf := h.srcWf
  srcIn := h.srcIn
  palWf := h.palWf
  palIn := h.palIn
  dstWf := h.dstWf
  dstIn := h.dstIn
  status := hs
  busyPhase := by simp [hb, hp]
  outBusy := by simp [hb]
  outError := he
  outLe := ho
  latched := fun hn => absurd hp hn
  running := fun hr => by simp [hp] at hr
  faultsNodup := h.faultsNodup

theorem Status.reset_legal : Status.reset.Legal := .inr (.inr (.inr ⟨rfl, rfl, rfl, rfl⟩))

/-- An engine meets the invariant after its reset, whatever it was before (R118). -/
theorem resetBcdec_inv {cfg : Config} {x : Bcdec} (h : x.faults.Nodup) : (resetBcdec x).Inv cfg :=
  have hstorage : StorageInv cfg (resetBcdec x) := ⟨by simp, by simp, by simp, by simp, by simp, by simp, h⟩
  hstorage.inv_of_idle rfl rfl Status.reset_legal (fun _ => rfl) (Nat.zero_le _)

theorem State.resetWith_inv {cfg : Config} (h : cfg.Valid) : (State.resetWith cfg).Inv where
  cfg := h
  count := List.length_replicate
  insts x hx := by
    obtain rfl : x = .reset := List.eq_of_mem_replicate hx
    exact resetBcdec_inv (x := .reset) List.nodup_nil

/-- Settles O9, by the invariant of a reset engine. -/
theorem resetMeetsInvariant : Obligations.ResetMeetsInvariant :=
  ⟨State.resetWith_inv ⟨by decide, by decide, by decide, by decide, by decide⟩, fun _ => State.resetWith_inv⟩

/-- ALPHA4 holds 17 * v without wrapping (R26). -/
theorem romAlpha4_toNat (v : BitVec 4) : (romAlpha4 v).toNat = 17 * v.toNat := by
  unfold romAlpha4
  rw [BitVec.toNat_ofNat]
  omega

/-- Settles O8: every engine after reset is `Bcdec.reset`, whose fields R30 gives. -/
theorem resetLeavesR30 : Obligations.ResetLeavesR30 := by
  intro cfg
  refine ⟨rfl, List.length_replicate, fun k x hx => ?_⟩
  obtain rfl : x = .reset := List.eq_of_mem_replicate (List.mem_of_getElem? hx)
  exact ⟨by decide, rfl, rfl, rfl, rfl, rfl, fun _ => rfl, fun _ => rfl, fun _ => rfl, rfl, rfl, rfl, rfl, romAlpha4_toNat⟩

end Sys2Proof.Machine
end

section
/-! Every step keeps the invariant: a lemma for each operation on an engine, then one for a step's change of it. -/

namespace Sys2Proof.Machine

/-! ### STATUS (R16) -/

theorem statusWbusy_legal {t : Status} (h : t.Legal) : (statusWbusy t).Legal := h

theorem statusStarted_legal (t : Status) : (statusStarted t).Legal := .inl ⟨rfl, rfl, rfl, rfl⟩

theorem statusOk_legal (t : Status) : (statusOk t).Legal := .inr (.inl ⟨rfl, rfl, rfl, rfl⟩)

theorem errorCode_legal (e : JobError) : errorCode e = 1 ∨ errorCode e = 2 ∨ errorCode e = 3 ∨ errorCode e = 6 := by
  cases e <;> decide

theorem statusFailed_legal (e : JobError) (t : Status) : (statusFailed e t).Legal :=
  .inr (.inr (.inl ⟨rfl, rfl, rfl, errorCode_legal e⟩))

/-! ### Host writes and START (R68, R70, R72, R75) -/

/-- What CHECK has found of a job is a matter of JOB alone. -/
theorem Running.of_job_eq {cfg : Config} {x y : Bcdec} (h : Running cfg x) (hj : y.job = x.job) : Running cfg y := by
  obtain ⟨⟩ := x
  obtain ⟨⟩ := y
  cases hj
  exact { h with }

section
variable {cfg : Config} {x : Bcdec} (h : x.Inv cfg)
include h

theorem Bcdec.Inv.phase_idle (hb : x.status.busy = false) : x.job.phase = .idle := by
  by_contra hp
  simp [h.busyPhase.2 hp] at hb

theorem addMark_inv (m : Mark) : (addMark m x).Inv cfg := by
  have hn := addMark_nodup (m := m) h.faultsNodup
  rw [addMark_eq]
  exact { h with faultsNodup := hn, running := fun hp => (h.running hp).of_job_eq rfl }

theorem setWbusy_inv : Bcdec.Inv cfg { x with status := statusWbusy x.status } :=
  { h with status := statusWbusy_legal h.status, running := fun hp => (h.running hp).of_job_eq rfl }

theorem idleWrite_inv {y : Bcdec} (hy : x.status.busy = false → y.Inv cfg) : (idleWrite x y).Inv cfg := by
  unfold idleWrite
  split
  · exact setWbusy_inv h
  · exact hy (Bool.eq_false_of_not_eq_true ‹_›)

theorem doStart_inv : (doStart x).Inv cfg := by
  unfold doStart
  split
  · exact setWbusy_inv h
  · exact { h with
      status := statusStarted_legal x.status
      busyPhase := by simp [statusStarted]
      outBusy := fun _ => rfl
      outError := fun _ => rfl
      outLe := Nat.zero_le _
      latched := fun _ => ⟨rfl, rfl, rfl, rfl⟩
      running := nofun }

theorem setRegisters_inv (hb : x.status.busy = false) (format width height srcLen : Word) :
    Bcdec.Inv cfg { x with format := format, width := width, height := height, srcLen := srcLen } :=
  { h with latched := fun hp => absurd (h.phase_idle hb) hp, running := fun hp => (h.running hp).of_job_eq rfl }

theorem regWrite_inv (v : Word) (r : Reg) : (regWrite x v r).Inv cfg := by
  rcases regWrite_cases x v r with hr | hr | ⟨_, _, _, _, hr⟩ <;> rw [hr]
  · exact h
  · exact doStart_inv h
  · exact idleWrite_inv h fun hb => setRegisters_inv h hb _ _ _ _

theorem writeSrc_inv {a : Nat} (v : Byte) (ha : a < cfg.srcCap) :
    Bcdec.Inv cfg { x with src := Memory.write x.src a v } :=
  { h with
    srcWf := Memory.wf_write _ _ h.srcWf
    srcIn := Memory.bound_write _ h.srcIn ha
    running := fun hp => (h.running hp).of_job_eq rfl }

theorem writePal_inv {j : Nat} (w : Word) (hj : j < 256) :
    Bcdec.Inv cfg { x with pal := Memory.write x.pal j w } :=
  { h with
    palWf := Memory.wf_write _ _ h.palWf
    palIn := Memory.bound_write _ h.palIn hj
    running := fun hp => (h.running hp).of_job_eq rfl }

end

/-! ### CHECK (R78) -/

/-- CHECK passes a job exactly where neither its dimensions nor its length is bad. -/
theorem checkPasses_iff {cfg : Config} {k : JobKind} {x : Bcdec} :
    CheckPasses cfg k x ↔ ¬ badDimensions cfg x ∧ ¬ badLength cfg k x := by
  constructor
  · rintro ⟨hw, hh, hf, hl, hr⟩
    exact ⟨by simp only [badDimensions]; omega, by simp only [badLength]; omega⟩
  · rintro ⟨hd, hl⟩
    simp only [badDimensions, badLength, not_or, not_lt] at hd hl
    exact ⟨hd.1, hd.2.1, hd.2.2, hl.1, hl.2⟩

/-- The pixels of a job with no negative dimension, as the signed product that CHECK bounds. -/
theorem jobPixels_cast {x : Bcdec} (hw : 0 ≤ x.job.w.toInt) (hh : 0 ≤ x.job.h.toInt) :
    (jobPixels x : Int) = x.job.w.toInt * x.job.h.toInt := by
  simp only [jobPixels, jobW, jobH, Nat.cast_mul, Int.toNat_of_nonneg hw, Int.toNat_of_nonneg hh]

theorem CheckPasses.jobPixels_le {cfg : Config} {k : JobKind} {x : Bcdec} (h : CheckPasses cfg k x) :
    jobPixels x ≤ cfg.dstCap := by
  have hp := jobPixels_cast h.wNonneg h.hNonneg
  have hf := h.fits
  omega

/-- The OUT_COUNT of a job that ends well (R80) is within DSTMEM. -/
theorem outCount_ofInt_le {cfg : Config} {x : Bcdec} (hw : 0 ≤ x.job.w.toInt) (hh : 0 ≤ x.job.h.toInt)
    (hf : jobPixels x ≤ cfg.dstCap) : (BitVec.ofInt 32 (x.job.w.toInt * x.job.h.toInt)).toNat ≤ cfg.dstCap := by
  rw [← jobPixels_cast hw hh, BitVec.ofInt_natCast, BitVec.toNat_ofNat]
  exact (Nat.mod_le _ _).trans hf

theorem raiseError_inv {cfg : Config} {x : Bcdec} (h : x.Inv cfg) (e : JobError) : (raiseError e x).Inv cfg :=
  have hstorage : StorageInv cfg (raiseError e x) := { h.storage with }
  hstorage.inv_of_idle rfl rfl (statusFailed_legal e _) (fun _ => rfl) (Nat.zero_le _)

theorem finishOk_inv {cfg : Config} {x : Bcdec} (h : StorageInv cfg x) (hw : 0 ≤ x.job.w.toInt)
    (hh : 0 ≤ x.job.h.toInt) (hf : jobPixels x ≤ cfg.dstCap) : (finishOk x).Inv cfg :=
  have hstorage : StorageInv cfg (finishOk x) := { h with }
  hstorage.inv_of_idle rfl rfl (statusOk_legal _) nofun (outCount_ofInt_le hw hh hf)

/-- CHECK hands RUN a job as `Running` says. -/
theorem CheckPasses.running {cfg : Config} {k : JobKind} {x : Bcdec} (h : CheckPasses cfg k x)
    (hk : kindOf x.job.fmt = .ok k) (hu : units k (jobW x) (jobH x) ≠ 0) :
    Running cfg { latchUnits k x with job := { (latchUnits k x).job with phase := .run } } where
  kind := hk
  wNonneg := h.wNonneg
  hNonneg := h.hNonneg
  fits := h.jobPixels_le
  len := h.len
  req := h.req
  total := rfl
  cur := Nat.pos_of_ne_zero hu

theorem checkJob_inv {cfg : Config} {k : JobKind} {x : Bcdec} (h : x.Inv cfg) (hp : x.job.phase = .check)
    (hk : kindOf x.job.fmt = .ok k) : (checkJob cfg k x).Inv cfg := by
  rcases checkJob_cases cfg k x with ⟨-, hc⟩ | ⟨-, -, hc⟩ | ⟨hd, hl, -, hc⟩ | ⟨hd, hl, hu, hc⟩ <;> rw [hc]
  · exact raiseError_inv h _
  · exact raiseError_inv h _
  · have hpass := checkPasses_iff.2 ⟨hd, hl⟩
    exact finishOk_inv { h.storage with } hpass.wNonneg hpass.hNonneg hpass.jobPixels_le
  · have hpass := checkPasses_iff.2 ⟨hd, hl⟩
    have hinHand : x.job.phase ≠ .idle := by simp [hp]
    exact { h with
      busyPhase := iff_of_true (h.busyPhase.2 hinHand) nofun
      latched := fun _ => h.latched hinHand
      running := fun _ => hpass.running hk hu }

/-! ### RUN (R79) -/

/-- A unit that is not the last leaves a running job running. -/
theorem UnitDone.running {cfg : Config} {x y : Bcdec} (h : UnitDone x y) (hr : Running cfg x)
    (hmore : x.job.cur + 1 ≠ x.job.total) : Running cfg y := by
  have hw : jobW y = jobW x := by unfold jobW; rw [h.inputs.w]
  have hh : jobH y = jobH x := by unfold jobH; rw [h.inputs.h]
  exact {
    kind := by rw [h.inputs.fmt, h.kind]; exact hr.kind
    wNonneg := by rw [h.inputs.w]; exact hr.wNonneg
    hNonneg := by rw [h.inputs.h]; exact hr.hNonneg
    fits := by unfold jobPixels; rw [hw, hh]; exact hr.fits
    len := by rw [h.inputs.len]; exact hr.len
    req := by rw [h.inputs.len, h.kind, hw, hh]; exact hr.req
    total := by rw [h.total, h.kind, hw, hh]; exact hr.total
    cur := by rw [h.cur, h.total]; exact Nat.lt_of_le_of_ne hr.cur hmore }

/-- A RUN step of a job keeps the invariant where its unit keeps DSTMEM canonical and within DST_CAP. -/
theorem UnitDone.inv {cfg : Config} {x y : Bcdec} (hd : UnitDone x y) (h : x.Inv cfg) (hp : x.job.phase = .run)
    (hwf : Memory.wf y.dst) (hin : ∀ c ∈ y.dst, c.1 < cfg.dstCap) : y.Inv cfg := by
  have hi := hd.inputs
  have hr := h.running hp
  have hstorage : StorageInv cfg y :=
    ⟨hi.src ▸ h.srcWf, hi.src ▸ h.srcIn, hi.pal ▸ h.palWf, hi.pal ▸ h.palIn, hwf, hin, hi.faults ▸ h.faultsNodup⟩
  by_cases hlast : x.job.cur + 1 = x.job.total
  · obtain ⟨hphase, hstatus, hout⟩ := hd.last hlast
    refine hstorage.inv_of_idle hphase (by rw [hstatus]) ?_ (fun he => by simp [hstatus] at he) ?_
    · rw [hstatus]; exact statusOk_legal x.status
    · rw [hout]; exact outCount_ofInt_le hr.wNonneg hr.hNonneg hr.fits
  · obtain ⟨hphase, hstatus, hout⟩ := hd.more hlast
    exact {
      hstorage with
      status := hstatus ▸ h.status
      busyPhase := by rw [hstatus, hphase]; exact h.busyPhase
      outBusy := by rw [hstatus, hout]; exact h.outBusy
      outError := by rw [hstatus, hout]; exact h.outError
      outLe := hout ▸ h.outLe
      latched := by
        rw [hphase, hi.fmt, hi.w, hi.h, hi.len, hi.format, hi.width, hi.height, hi.srcLen]
        exact h.latched
      running := fun _ => hd.running hr hlast }

theorem advance_kindUnit_inv {cfg : Config} {k : JobKind} {x z : Bcdec} (h : x.Inv cfg) (hp : x.job.phase = .run)
    (hk : x.job.kind = k) (hu : kindUnit k x = .ok z) : (advance z).Inv cfg := by
  obtain ⟨hdone, hdst⟩ := advance_unitDone (kindUnit_onlyDst hu)
  exact hdone.inv h hp (hdst ▸ kindUnit_wf hu h.dstWf) (hdst ▸ kindUnit_bound hu (h.running hp) hk h.dstIn)

/-! ### A step -/

/-- An effect keeps the invariant where the kind that its instruction names is the engine's own. -/
theorem Effect.inv {cfg : Config} {i : Instr} {x y : Bcdec} (he : Effect cfg i x y) (h : x.Inv cfg)
    (hkind : ∀ k, instrKind i = some k →
      (x.job.phase = .check → kindOf x.job.fmt = .ok k) ∧ (x.job.phase = .run → x.job.kind = k)) : y.Inv cfg := by
  cases he with
  | check k hi hp => exact checkJob_inv h hp ((hkind k hi).1 hp)
  | raise e => exact raiseError_inv h e
  | run k z hi hp hu => exact advance_kindUnit_inv h hp ((hkind k hi).2 hp) hu
  | reg off v r => exact regWrite_inv h v r
  | start => exact doStart_inv h
  | src a v _ ha => exact idleWrite_inv h fun _ => writeSrc_inv h _ ha
  | pal j w _ hj => exact idleWrite_inv h fun _ => writePal_inv h w hj

theorem Change.inv {s : State} {k : Nat} {x y : Bcdec} (hc : Change s k x y) (h : x.Inv s.cfg) : y.Inv s.cfg := by
  cases hc with
  | mark m => exact addMark_inv h m
  | reset => exact resetBcdec_inv h.faultsNodup
  | effect i _ he hi => exact he.inv h fun _ hk => fetched_kind hi hk

/-- Settles O52: a step leaves the engines as they are, or makes one change of one of them, which keeps its invariant. -/
theorem stepKeepsInvariant : Obligations.StepKeepsInvariant := by
  intro s t h hstep
  obtain ⟨hcfg, ⟨hinsts, -⟩ | ⟨k, x, y, hx, hinsts, hc⟩⟩ := step_changes hstep
  · exact ⟨hcfg ▸ h.cfg, by rw [hinsts, hcfg]; exact h.count, by rw [hinsts, hcfg]; exact h.insts⟩
  · refine ⟨hcfg ▸ h.cfg, by rw [hinsts, hcfg, List.length_set]; exact h.count, fun z hz => ?_⟩
    rw [hinsts] at hz
    rw [hcfg]
    rcases List.mem_or_eq_of_mem_set hz with hz | rfl
    · exact h.insts z hz
    · exact hc.inv (h.insts x (List.mem_of_getElem? hx))

end Sys2Proof.Machine
end

section
/-! The host transactions, one inversion each (R68 to R75): what a read returns, what a write puts on the selected
engine, and what is left of a write when that engine is BUSY (R38, R45). -/

namespace Sys2Proof.Machine

/-! ### Reads (R69, R71, R73, R74) -/

section
variable {s t : State} {a data : Word}

theorem exec_rd_next (h : exec (.rd a data) s = .next t) : ∃ v, t = reply s v := by
  obtain ⟨x, -, h⟩ := withSel_next h
  split at h
  · cases h
  · cases h; exact ⟨_, rfl⟩

theorem exec_rdsrc_next (h : exec (.rdsrc a data) s = .next t) : ∃ v, t = reply s v := by
  obtain ⟨x, -, h⟩ := withSel_next h
  split at h
  · cases h
  · split at h
    · cases h
    · cases h; exact ⟨_, rfl⟩

theorem exec_rdpal_next (h : exec (.rdpal a data) s = .next t) : ∃ v, t = reply s v := by
  obtain ⟨x, -, h⟩ := withSel_next h
  split at h
  · cases h
  · split at h
    · cases h
    · cases h; exact ⟨_, rfl⟩

theorem exec_rddst_next (h : exec (.rddst a data) s = .next t) : t = replyDraw s ∨ ∃ v, t = reply s v := by
  obtain ⟨x, -, h⟩ := withSel_next h
  split at h
  · cases h
  split at h
  · cases h; exact .inl rfl
  · split at h
    · cases h
    · cases h; exact .inr ⟨_, rfl⟩

end

/-- A read transaction replies with a value or with a draw, and does nothing else. -/
theorem exec_read_next {i : Instr} {s t : State}
    (hi : (∃ off d, i = .rd off d) ∨ (∃ a d, i = .rdsrc a d) ∨ (∃ a d, i = .rdpal a d) ∨ (∃ j d, i = .rddst j d))
    (h : exec i s = .next t) : t = replyDraw s ∨ ∃ v, t = reply s v := by
  rcases hi with ⟨_, _, rfl⟩ | ⟨_, _, rfl⟩ | ⟨_, _, rfl⟩ | ⟨_, _, rfl⟩
  · exact .inr (exec_rd_next h)
  · exact .inr (exec_rdsrc_next h)
  · exact .inr (exec_rdpal_next h)
  · exact exec_rddst_next h

/-- Settles O21: a read that answers next only replies. -/
theorem readsHaveNoSideEffect : Obligations.ReadsHaveNoSideEffect := by
  intro i s t hi h
  rcases exec_read_next hi h with rfl | ⟨v, rfl⟩
  · exact ⟨rfl, rfl, rfl, rfl, _, rfl⟩
  · exact ⟨rfl, rfl, rfl, rfl, v, rfl⟩

/-! ### Writes (R68, R70, R72, R75) -/

section
variable {s t : State} {x : Bcdec} (hx : Selected s x) {a v : Word}
include hx

theorem exec_wr_next (h : exec (.wr a v) s = .next t) : ∃ r, regOf a = some r ∧ t = putSel s (regWrite x v r) := by
  replace h := (withSel_eq hx _).symm.trans h
  split at h
  · cases h
  · cases h; exact ⟨_, ‹_›, rfl⟩

theorem exec_start_next {high : BitVec 31} (h : exec (.start high) s = .next t) : t = putSel s (doStart x) := by
  replace h := (withSel_eq hx _).symm.trans h
  cases h; rfl

theorem exec_wrsrc_next (h : exec (.wrsrc a v) s = .next t) :
    a.toNat < s.cfg.srcCap ∧
      t = putSel s (idleWrite x { x with src := Memory.write x.src a.toNat (srcByte v) }) := by
  replace h := (withSel_eq hx _).symm.trans h
  split at h
  · cases h
  · cases h; exact ⟨Nat.not_le.1 ‹_›, rfl⟩

theorem exec_wrpal_next (h : exec (.wrpal a v) s = .next t) :
    a.toNat < 256 ∧ t = putSel s (idleWrite x { x with pal := Memory.write x.pal a.toNat v }) := by
  replace h := (withSel_eq hx _).symm.trans h
  split at h
  · cases h
  · cases h; exact ⟨Nat.not_le.1 ‹_›, rfl⟩

end

/-! ### While BUSY (R45) -/

section
variable {x : Bcdec} (hb : x.status.busy = true)
include hb

theorem idleWrite_of_busy (y : Bcdec) : idleWrite x y = { x with status := statusWbusy x.status } := if_pos hb

theorem doStart_of_busy : doStart x = { x with status := statusWbusy x.status } := if_pos hb

theorem regWrite_of_busy (v : Word) (r : Reg) :
    regWrite x v r = x ∨ regWrite x v r = { x with status := statusWbusy x.status } := by
  rcases regWrite_cases x v r with h | h | ⟨_, _, _, _, h⟩
  · exact .inl h
  · exact .inr (h.trans (doStart_of_busy hb))
  · exact .inr (h.trans (idleWrite_of_busy hb _))

/-- A write transaction to a BUSY engine puts that engine back, with WBUSY set or as it was. -/
theorem exec_write_of_busy {i : Instr} {s t : State} (hx : Selected s x)
    (hi : (∃ off v, i = .wr off v) ∨ (∃ h, i = .start h) ∨ (∃ a d, i = .wrsrc a d) ∨ (∃ a d, i = .wrpal a d))
    (h : exec i s = .next t) : t = putSel s x ∨ t = putSel s { x with status := statusWbusy x.status } := by
  rcases hi with ⟨_, v, rfl⟩ | ⟨_, rfl⟩ | ⟨_, _, rfl⟩ | ⟨_, _, rfl⟩
  · obtain ⟨r, -, rfl⟩ := exec_wr_next hx h
    exact (regWrite_of_busy hb v r).imp (congrArg _) (congrArg _)
  · exact .inr ((exec_start_next hx h).trans (congrArg _ (doStart_of_busy hb)))
  · exact .inr ((exec_wrsrc_next hx h).2.trans (congrArg _ (idleWrite_of_busy hb _)))
  · exact .inr ((exec_wrpal_next hx h).2.trans (congrArg _ (idleWrite_of_busy hb _)))

end

/-- A transaction is a read, a write or of the reserved kind (R66). -/
theorem decodeTxn_cases (w : Txn) :
    ((∃ off d, decodeTxn w = .rd off d) ∨ (∃ a d, decodeTxn w = .rdsrc a d) ∨ (∃ a d, decodeTxn w = .rdpal a d) ∨
      (∃ j d, decodeTxn w = .rddst j d)) ∨
    ((∃ off v, decodeTxn w = .wr off v) ∨ (∃ h, decodeTxn w = .start h) ∨ (∃ a d, decodeTxn w = .wrsrc a d) ∨
      (∃ a d, decodeTxn w = .wrpal a d)) ∨
    ∃ addr d, decodeTxn w = .reservedKind7 addr d := by
  unfold decodeTxn
  split
  case h_1 => exact .inl (.inl ⟨_, _, rfl⟩)
  case h_2 =>
    unfold decodeWr
    split
    · exact .inr (.inl (.inr (.inl ⟨_, rfl⟩)))
    · exact .inr (.inl (.inl ⟨_, _, rfl⟩))
  case h_3 => exact .inr (.inl (.inr (.inr (.inl ⟨_, _, rfl⟩))))
  case h_4 => exact .inl (.inr (.inl ⟨_, _, rfl⟩))
  case h_5 => exact .inr (.inl (.inr (.inr (.inr ⟨_, _, rfl⟩))))
  case h_6 => exact .inl (.inr (.inr (.inl ⟨_, _, rfl⟩)))
  case h_7 => exact .inl (.inr (.inr (.inr ⟨_, _, rfl⟩)))
  case h_8 => exact .inr (.inr ⟨_, _, rfl⟩)

/-- Settles O23: a read changes no engine, a write to a BUSY engine at most its WBUSY, and kind 7 is refused. -/
theorem hostCannotTouchRunningJob : Obligations.HostCannotTouchRunningJob := by
  intro w s t x hx hb h
  rcases decodeTxn_cases w with hi | hi | ⟨_, _, hi⟩
  · obtain ⟨hinsts, -, -, hsel, -⟩ := readsHaveNoSideEffect _ s t hi h
    refine ⟨x, ?_, .inl rfl, fun j _ => by rw [hinsts]⟩
    unfold Selected
    rw [hinsts, hsel]
    exact hx
  · rcases exec_write_of_busy hb hx hi h with rfl | rfl
    · exact ⟨x, putSel_selected hx x, .inl rfl, fun j hj => putSel_other s x hj⟩
    · exact ⟨_, putSel_selected hx _, .inr rfl, fun j hj => putSel_other s _ hj⟩
  · rw [hi] at h
    cases h

end Sys2Proof.Machine
end

section
/-! The byte view of DSTMEM (R33). -/

namespace Sys2Proof.Machine

theorem dstByte_of_read {x : Bcdec} {j k : Nat} {v : Word} (h : Memory.read x.dst j = some v) (hk : k < 4) :
    dstByte x (4 * j + k) = some (v.extractLsb' (8 * k) 8) := by
  have hcell : (4 * j + k) / 4 = j := by omega
  have hplace : (4 * j + k) % 4 = k := by omega
  unfold dstByte
  rw [hcell, hplace, h, Option.map_some]

/-- A word is the little-endian number of its four bytes. -/
theorem word_toNat_eq_bytes (v : Word) :
    v.toNat = (v.extractLsb' (8 * 0) 8).toNat + 256 * (v.extractLsb' (8 * 1) 8).toNat +
      65536 * (v.extractLsb' (8 * 2) 8).toNat + 16777216 * (v.extractLsb' (8 * 3) 8).toNat := by
  simp only [BitVec.extractLsb'_toNat, Nat.shiftRight_eq_div_pow]
  omega

/-- Settles O40: the bytes of a cell are its word's, which is their little-endian number. -/
theorem dstByteView : Obligations.DstByteView := by
  intro x j v h
  exact ⟨_, _, _, _, dstByte_of_read (k := 0) h (by decide), dstByte_of_read h (by decide),
    dstByte_of_read h (by decide), dstByte_of_read h (by decide), word_toNat_eq_bytes v⟩

end Sys2Proof.Machine
end

section
/-! Reads of a run of SRCMEM cells, lowest first (R32, R34): they answer where the run is written, and else give the
model fault of its first unwritten cell. Such reads in a row are one such read, down to a block's decode. -/

namespace Sys2Proof.Machine

/-- `r` is the outcome of reading the `n` SRCMEM cells from `o` in rising order. -/
structure ReadsInOrder {α : Type} (x : Bcdec) (o n : Nat) (r : Except Fault α) : Prop where
  written : SrcWritten x o n → ∃ v, r = .ok v
  fault : ∀ a, FirstUnwritten x o n a → r = .error (.unwrittenSrc a)

/-- The first unwritten cell of a run lies in its front part, or that part is written and it lies in the rest. -/
theorem firstUnwritten_add {x : Bcdec} {o m n a : Nat} (h : FirstUnwritten x o (m + n) a) :
    FirstUnwritten x o m a ∨ (SrcWritten x o m ∧ FirstUnwritten x (o + m) n a) := by
  obtain ⟨hlo, hhi, hnone, hbelow⟩ := h
  by_cases ha : a < o + m
  · exact .inl ⟨hlo, ha, hnone, hbelow⟩
  · exact .inr ⟨fun b hb hbm => hbelow b hb (by omega), by omega, by omega, hnone, fun b hb => hbelow b (by omega)⟩

namespace ReadsInOrder
variable {α β : Type} {x : Bcdec} {o m n : Nat}

theorem ok (v : α) : ReadsInOrder x o 0 (.ok v) where
  written _ := ⟨v, rfl⟩
  fault _ := fun ⟨hlo, hhi, _⟩ => absurd hhi (Nat.not_lt.2 hlo)

theorem bind {r : Except Fault α} {f : α → Except Fault β} (hr : ReadsInOrder x o m r)
    (hf : ∀ v, ReadsInOrder x (o + m) n (f v)) : ReadsInOrder x o (m + n) (r >>= f) where
  written h := by
    obtain ⟨v, rfl⟩ := hr.written fun a hlo hhi => h a hlo (by omega)
    exact (hf v).written fun a hlo hhi => h a (by omega) (by omega)
  fault a h := by
    rcases firstUnwritten_add h with h | ⟨hw, h⟩
    · rw [hr.fault a h, error_bind]
    · obtain ⟨v, rfl⟩ := hr.written hw
      exact (hf v).fault a h

end ReadsInOrder

section
variable (x : Bcdec) (o : Nat)

theorem srcRead_readsInOrder : ReadsInOrder x o 1 (srcRead x o) where
  written h := by
    obtain ⟨b, hb⟩ := h o (Nat.le_refl o) (Nat.lt_succ_self o)
    exact ⟨b, srcRead_ok.2 hb⟩
  fault a h := by
    obtain ⟨hlo, hhi, hnone, -⟩ := h
    obtain rfl : a = o := by omega
    exact srcRead_error.2 ⟨hnone, rfl⟩

theorem srcBytes_readsInOrder (n : Nat) : ReadsInOrder x o n (srcBytes x o n) := by
  induction n generalizing o with
  | zero => exact .ok _
  | succ n ih =>
    rw [srcBytes_succ, Nat.add_comm]
    exact (srcRead_readsInOrder x o).bind fun _ => (ih (o + 1)).bind fun _ => .ok _

theorem srcLE_readsInOrder (n : Nat) : ReadsInOrder x o n (srcLE x o n) :=
  (srcBytes_readsInOrder x o n).bind fun _ => .ok _

theorem colorFields_readsInOrder : ReadsInOrder x o 8 (colorFields x o) :=
  (srcLE_readsInOrder x o 2).bind fun _ => (srcLE_readsInOrder x (o + 2) 2).bind fun _ =>
    (srcLE_readsInOrder x (o + 4) 4).bind fun _ => .ok _

theorem decodeBc1_readsInOrder : ReadsInOrder x o 8 (decodeBc1 x o) :=
  (colorFields_readsInOrder x o).bind fun _ => .ok _

theorem decodeBc2_readsInOrder : ReadsInOrder x o 16 (decodeBc2 x o) :=
  (srcLE_readsInOrder x o 8).bind fun _ => (colorFields_readsInOrder x (o + 8)).bind fun _ => .ok _

theorem decodeBc3_readsInOrder : ReadsInOrder x o 16 (decodeBc3 x o) :=
  (srcRead_readsInOrder x o).bind fun _ => (srcRead_readsInOrder x (o + 1)).bind fun _ =>
    (srcLE_readsInOrder x (o + 2) 6).bind fun _ => (colorFields_readsInOrder x (o + 8)).bind fun _ => .ok _

end

theorem bcUnit_error {bs : Nat} {d : Bcdec → Nat → Except Fault (Nat → Word)} {x : Bcdec} {f : Fault}
    (h : d x (x.job.cur * bs) = .error f) : bcUnit bs d x = .error f := by
  unfold bcUnit
  rw [h, error_bind]

/-- Settles O42: a block's decode reads the block's bytes in rising order. -/
theorem blockUnitFaults : Obligations.BlockUnitFaults := by
  intro s x adepth mips a hrun
  refine ⟨fun h => ?_, fun h => ⟨?_, ?_⟩⟩
  · exact engineStep_fault hrun (bcUnit_error ((decodeBc1_readsInOrder x _).fault a h))
  · exact engineStep_fault hrun (bcUnit_error ((decodeBc2_readsInOrder x _).fault a h))
  · exact engineStep_fault hrun (bcUnit_error ((decodeBc3_readsInOrder x _).fault a h))

end Sys2Proof.Machine
end

section
/-! The inputs of a running job are frozen (R45, R81): CHECK, a unit and an ignored host write keep them. -/

namespace Sys2Proof.Machine

theorem SameInputs.refl (x : Bcdec) : SameInputs x x := ⟨rfl, rfl, rfl, rfl, rfl, rfl, rfl, rfl, rfl, rfl, rfl⟩

theorem setWbusy_sameInputs (x : Bcdec) : SameInputs x { x with status := statusWbusy x.status } :=
  { SameInputs.refl x with }

theorem raiseError_sameInputs (e : JobError) (x : Bcdec) : SameInputs x (raiseError e x) :=
  { SameInputs.refl x with }

theorem checkJob_sameInputs (cfg : Config) (k : JobKind) (x : Bcdec) : SameInputs x (checkJob cfg k x) := by
  rcases checkJob_cases cfg k x with ⟨-, h⟩ | ⟨-, -, h⟩ | ⟨-, -, -, h⟩ | ⟨-, -, -, h⟩ <;> rw [h]
  · exact raiseError_sameInputs _ x
  · exact raiseError_sameInputs _ x
  · exact { SameInputs.refl x with }
  · exact { SameInputs.refl x with }

/-- No instruction changes the inputs of a BUSY engine. -/
theorem Effect.sameInputs_of_busy {cfg : Config} {i : Instr} {x y : Bcdec} (h : Effect cfg i x y)
    (hb : x.status.busy = true) : SameInputs x y := by
  cases h with
  | check => exact checkJob_sameInputs ..
  | raise e => exact raiseError_sameInputs e x
  | run _ _ _ _ hu => exact (advance_unitDone (kindUnit_onlyDst hu)).1.inputs
  | reg _ v r =>
    rcases regWrite_of_busy hb v r with h | h <;> rw [h]
    · exact .refl x
    · exact setWbusy_sameInputs x
  | start => rw [doStart_of_busy hb]; exact setWbusy_sameInputs x
  | src | pal => rw [idleWrite_of_busy hb]; exact setWbusy_sameInputs x

/-- No change of a BUSY engine but its reset changes its inputs; a mark (R29) goes to FAULTS. -/
theorem Change.sameInputs_of_busy {s : State} {k : Nat} {x y : Bcdec} (h : Change s k x y)
    (hb : x.status.busy = true) (hreset : ∀ ts, s.turns ≠ .reset k :: ts) :
    SameInputs x { y with faults := x.faults } := by
  cases h with
  | mark m => rw [addMark_eq]; exact .refl x
  | reset ts hts => exact absurd hts (hreset ts)
  | effect _ _ he => exact { he.sameInputs_of_busy hb with faults := rfl }

/-- Settles O54: a step leaves an engine as it is or makes one change of it, which is no reset here. -/
theorem busyInputsAreFrozen : Obligations.BusyInputsAreFrozen := by
  intro s t k x y h _ hx hb hy hreset
  have hsame : SameInputs x { y with faults := x.faults } := by
    rcases step_engine h hx hy with rfl | hc
    · exact .refl y
    · exact hc.sameInputs_of_busy hb hreset
  exact ⟨hsame.src, hsame.pal, hsame.format, hsame.width, hsame.height, hsame.srcLen, hsame.fmt, hsame.w, hsame.h,
    hsame.len⟩

end Sys2Proof.Machine
end

section
/-! The encoding of FORMAT words (R48 to R50): the fields that name each kind, the two illegal classes, and the round
trips of FORMAT words and of transactions (R66). -/

namespace Sys2Proof

/-! ### FORMAT words -/

/-- The fields of a FORMAT word that name the kind (R48): COMP and ACOMP for a block kind, COMP and ADEPTH for a
palette kind. -/
def NamesKind (w : Word) : JobKind → Prop
  | .bc1 => fmtComp w = 0x02 ∧ fmtAcomp w = 0x00
  | .bc2 => fmtComp w = 0x02 ∧ fmtAcomp w = 0x01
  | .bc3 => fmtComp w = 0x02 ∧ fmtAcomp w = 0x07
  | .pal0 => fmtComp w ≠ 0x02 ∧ fmtAdepth w = 0x00
  | .pal1 => fmtComp w ≠ 0x02 ∧ fmtAdepth w = 0x01
  | .pal4 => fmtComp w ≠ 0x02 ∧ fmtAdepth w = 0x04
  | .pal8 => fmtComp w ≠ 0x02 ∧ fmtAdepth w = 0x08

theorem kindOf_ok_iff {w : Word} {k : JobKind} : kindOf w = .ok k ↔ NamesKind w k := by
  constructor
  · intro h
    unfold kindOf at h
    split_ifs at h <;> cases h <;> exact ⟨‹_›, ‹_›⟩
  · intro h
    unfold kindOf
    cases k <;> obtain ⟨hcomp, hfield⟩ := h
    case bc1 | bc2 | bc3 => rw [if_pos hcomp, hfield]; rfl
    all_goals rw [if_neg hcomp, hfield]; rfl

theorem kindOf_unsupportedFormat_iff {w : Word} : kindOf w = .error .unsupportedFormat ↔
    fmtComp w = 0x02 ∧ fmtAcomp w ≠ 0x00 ∧ fmtAcomp w ≠ 0x01 ∧ fmtAcomp w ≠ 0x07 := by
  constructor
  · intro h
    unfold kindOf at h
    split_ifs at h <;> cases h
    exact ⟨‹_›, ‹_›, ‹_›, ‹_›⟩
  · rintro ⟨hcomp, h0, h1, h7⟩
    unfold kindOf
    rw [if_pos hcomp, if_neg h0, if_neg h1, if_neg h7]

theorem kindOf_unsupportedAlphaDepth_iff {w : Word} : kindOf w = .error .unsupportedAlphaDepth ↔
    fmtComp w ≠ 0x02 ∧ fmtAdepth w ≠ 0x00 ∧ fmtAdepth w ≠ 0x01 ∧ fmtAdepth w ≠ 0x04 ∧ fmtAdepth w ≠ 0x08 := by
  constructor
  · intro h
    unfold kindOf at h
    split_ifs at h <;> cases h
    exact ⟨‹_›, ‹_›, ‹_›, ‹_›, ‹_›⟩
  · rintro ⟨hcomp, h0, h1, h4, h8⟩
    unfold kindOf
    rw [if_neg hcomp, if_neg h0, if_neg h1, if_neg h4, if_neg h8]

theorem paletteComp_iff {comp : Byte} : paletteComp comp = true ↔ comp ≠ 0x02 := bne_iff_ne

theorem blockAcomp_eq_false_iff {acomp : Byte} :
    blockAcomp acomp = false ↔ acomp ≠ 0x00 ∧ acomp ≠ 0x01 ∧ acomp ≠ 0x07 := by
  simp [blockAcomp, and_assoc]

theorem paletteDepth_eq_false_iff {adepth : Byte} :
    paletteDepth adepth = false ↔ adepth ≠ 0x00 ∧ adepth ≠ 0x01 ∧ adepth ≠ 0x04 ∧ adepth ≠ 0x08 := by
  simp [paletteDepth, and_assoc]

section
variable {w : Word}

theorem decodeFormat_of_ok {k : JobKind} (h : kindOf w = .ok k) : decodeFormat w = kindInstr k w := by
  unfold decodeFormat
  rw [h]

theorem decodeFormat_of_unsupportedFormat (h : kindOf w = .error .unsupportedFormat) :
    decodeFormat w = .illegalFormat (fmtAdepth w) (fmtAcomp w) (fmtMips w) := by
  unfold decodeFormat
  rw [h]

theorem decodeFormat_of_unsupportedAlphaDepth (h : kindOf w = .error .unsupportedAlphaDepth) :
    decodeFormat w = .illegalAlphaDepth (fmtComp w) (fmtAdepth w) (fmtAcomp w) (fmtMips w) := by
  unfold decodeFormat
  rw [h]

end

/-- A FORMAT word is put together from its four fields (R17). -/
theorem formatWord_fields (w : Word) : formatWord (fmtComp w) (fmtAdepth w) (fmtAcomp w) (fmtMips w) = w :=
  format_ext (fmtComp_formatWord ..) (fmtAdepth_formatWord ..) (fmtAcomp_formatWord ..) (fmtMips_formatWord ..)

/-- A transaction is put together from its three fields (R66). -/
theorem txnWord_fields (t : Txn) : txnWord (txnKind t) (txnAddr t) (txnData t) = t :=
  txn_ext (txnKind_txnWord ..) (txnAddr_txnWord ..) (txnData_txnWord ..)

/-- A word that names a kind decodes to an instruction of that kind, whose word it is. -/
theorem kindInstr_roundTrip {w : Word} {k : JobKind} (h : NamesKind w k) :
    (kindInstr k w).wellFormed = true ∧ encode (kindInstr k w) = .format w := by
  cases k <;> obtain ⟨hcomp, hfield⟩ := h
  case bc1 | bc2 | bc3 =>
    refine ⟨rfl, ?_⟩
    rw [← formatWord_fields w, hcomp, hfield]
    simp [kindInstr, encode]
  all_goals
    refine ⟨paletteComp_iff.2 hcomp, ?_⟩
    rw [← formatWord_fields w, hfield]
    simp [kindInstr, encode]

theorem decodeFormat_roundTrip (w : Word) :
    (decodeFormat w).wellFormed = true ∧ encode (decodeFormat w) = .format w := by
  rcases hk : kindOf w with (_ | _) | k
  · obtain ⟨hcomp, hacomp⟩ := kindOf_unsupportedFormat_iff.1 hk
    rw [decodeFormat_of_unsupportedFormat hk]
    refine ⟨by simp [Instr.wellFormed, blockAcomp_eq_false_iff.2 hacomp], ?_⟩
    simp [encode, ← hcomp, formatWord_fields]
  · obtain ⟨hcomp, hadepth⟩ := kindOf_unsupportedAlphaDepth_iff.1 hk
    rw [decodeFormat_of_unsupportedAlphaDepth hk]
    refine ⟨by simp [Instr.wellFormed, paletteComp_iff.2 hcomp, paletteDepth_eq_false_iff.2 hadepth], ?_⟩
    simp [encode, formatWord_fields]
  · rw [decodeFormat_of_ok hk]
    exact kindInstr_roundTrip (kindOf_ok_iff.1 hk)

/-! ### Transactions -/

/-- A transaction with kind code `k` is `{k, addr, data}` (R66). -/
theorem txnWord_of_kind {t : Txn} (k : BitVec 3) (h : (txnKind t).toNat = k.toNat) :
    txnWord k (txnAddr t) (txnData t) = t := by
  rw [← BitVec.eq_of_toNat_eq h, txnWord_fields]

/-- The bits of the data word of `start` (R67). -/
theorem startData_bit (high : BitVec 31) (k : Nat) :
    (high ++ 1#1 : Word).getLsbD k = if k < 1 then (1#1).getLsbD k else high.getLsbD (k - 1) := by
  show (high ++ 1#1 : BitVec (31 + 1)).getLsbD k = _
  exact BitVec.getLsbD_append

theorem startData_high (high : BitVec 31) : (high ++ 1#1 : Word).extractLsb' 1 31 = high := by
  refine BitVec.eq_of_getLsbD_eq fun k hk => ?_
  rw [BitVec.getLsbD_extractLsb', startData_bit]
  simp [hk]

/-- A data word with bit 0 set is put together from its bits 31:1 and that bit. -/
theorem startData_of_bit {v : Word} (h : v.getLsbD 0 = true) : v.extractLsb' 1 31 ++ 1#1 = v := by
  refine BitVec.eq_of_getLsbD_eq fun k hk => ?_
  rw [startData_bit]
  split_ifs with hlow
  · obtain rfl : k = 0 := by omega
    exact h.symm
  · rw [BitVec.getLsbD_extractLsb', show 1 + (k - 1) = k by omega]
    simp [show k - 1 < 31 by omega]

theorem decodeWr_start (high : BitVec 31) : decodeWr 0 (high ++ 1#1) = .start high := by
  unfold decodeWr
  rw [if_pos ⟨rfl, startData_bit high 0⟩, startData_high]

/-- A transaction of kind 1 stands for `start` or for `wr` (R67, R75), and either has its address and data. -/
theorem decodeWr_roundTrip (off v : Word) :
    (decodeWr off v).wellFormed = true ∧ encode (decodeWr off v) = .txn (txnWord 1 off v) := by
  unfold decodeWr
  split_ifs with hstart
  · obtain ⟨rfl, hbit⟩ := hstart
    exact ⟨rfl, by rw [encode, startData_of_bit hbit]⟩
  · exact ⟨by simpa [Instr.wellFormed, imp_iff_not_or] using hstart, rfl⟩

/-- A transaction decodes by its kind code to an instruction with that code, whose address and data it keeps. -/
theorem decodeTxn_roundTrip (t : Txn) : (decodeTxn t).wellFormed = true ∧ encode (decodeTxn t) = .txn t := by
  have hlt : (txnKind t).toNat < 8 := (txnKind t).isLt
  unfold decodeTxn
  split
  case h_1 h => exact ⟨rfl, by rw [encode, txnWord_of_kind 0 h]⟩
  case h_2 h =>
    obtain ⟨hwf, henc⟩ := decodeWr_roundTrip (txnAddr t) (txnData t)
    exact ⟨hwf, by rw [henc, txnWord_of_kind 1 h]⟩
  case h_3 h => exact ⟨rfl, by rw [encode, txnWord_of_kind 2 h]⟩
  case h_4 h => exact ⟨rfl, by rw [encode, txnWord_of_kind 3 h]⟩
  case h_5 h => exact ⟨rfl, by rw [encode, txnWord_of_kind 4 h]⟩
  case h_6 h => exact ⟨rfl, by rw [encode, txnWord_of_kind 5 h]⟩
  case h_7 h => exact ⟨rfl, by rw [encode, txnWord_of_kind 6 h]⟩
  case h_8 =>
    have h : (txnKind t).toNat = 7 := by grind
    exact ⟨rfl, by rw [encode, txnWord_of_kind 7 h]⟩

/-- Settles O2: each decoder takes a word apart into fields, and the encoder puts the same fields together. -/
theorem decodeThenEncodeIsIdentity : Obligations.DecodeThenEncodeIsIdentity := by
  rintro (w | t)
  · exact decodeFormat_roundTrip w
  · exact decodeTxn_roundTrip t

/-! ### Decoding an encoded instruction -/

/-- The word of an instruction that names a kind names it too, and holds the operands in the fields the kind ignores. -/
theorem encode_of_instrKind {i : Instr} {k : JobKind} (hk : Machine.instrKind i = some k) (hwf : i.wellFormed = true) :
    ∃ w, encode i = .format w ∧ NamesKind w k ∧ kindInstr k w = i := by
  cases i <;> cases hk
  case bc1 | bc2 | bc3 => exact ⟨_, rfl, ⟨fmtComp_formatWord .., fmtAcomp_formatWord ..⟩, by simp [kindInstr]⟩
  all_goals
    exact ⟨_, rfl, ⟨by simpa using paletteComp_iff.1 hwf, fmtAdepth_formatWord ..⟩, by simp [kindInstr]⟩

theorem decodeFormat_illegalFormat {adepth acomp mips : Byte} (h : blockAcomp acomp = false) :
    decodeFormat (formatWord 0x02 adepth acomp mips) = .illegalFormat adepth acomp mips := by
  rw [decodeFormat_of_unsupportedFormat (kindOf_unsupportedFormat_iff.2 (by simpa using blockAcomp_eq_false_iff.1 h))]
  simp

theorem decodeFormat_illegalAlphaDepth {comp adepth acomp mips : Byte} (hcomp : paletteComp comp = true)
    (hadepth : paletteDepth adepth = false) :
    decodeFormat (formatWord comp adepth acomp mips) = .illegalAlphaDepth comp adepth acomp mips := by
  rw [decodeFormat_of_unsupportedAlphaDepth (kindOf_unsupportedAlphaDepth_iff.2
    (by simpa using ⟨paletteComp_iff.1 hcomp, paletteDepth_eq_false_iff.1 hadepth⟩))]
  simp

theorem decodeTxn_wr (off v : Word) : decodeTxn (txnWord 1 off v) = decodeWr off v := by
  simp [decodeTxn]

/-- Settles O1: the word of an instruction with a kind names that kind, an illegal word names none, and a transaction has
its kind code. -/
theorem encodeThenDecodeIsIdentity : Obligations.EncodeThenDecodeIsIdentity := by
  intro i hwf
  cases hk : Machine.instrKind i with
  | some k =>
    obtain ⟨w, hencode, hnames, hinstr⟩ := encode_of_instrKind hk hwf
    rw [hencode]
    exact (decodeFormat_of_ok (kindOf_ok_iff.2 hnames)).trans hinstr
  | none =>
    cases i
    case bc1 | bc2 | bc3 | pal0 | pal1 | pal4 | pal8 => cases hk
    case illegalFormat => exact decodeFormat_illegalFormat (by simpa [Instr.wellFormed] using hwf)
    case illegalAlphaDepth =>
      obtain ⟨hcomp, hadepth⟩ : _ ∧ _ := by simpa [Instr.wellFormed] using hwf
      exact decodeFormat_illegalAlphaDepth hcomp hadepth
    case wr off v =>
      have hbit : ¬ (off = 0 ∧ v.getLsbD 0 = true) := by
        simpa [Instr.wellFormed, imp_iff_not_or] using hwf
      exact (decodeTxn_wr off v).trans (if_neg hbit)
    case start high => exact (decodeTxn_wr 0 _).trans (decodeWr_start high)
    case rd | wrsrc | rdsrc | wrpal | rdpal | rddst | reservedKind7 => simp [encode, decode, decodeTxn]

/-! ### The kind by mask and match (R48) -/

section
variable (v w : Word)

@[simp] theorem fmtComp_and : fmtComp (v &&& w) = fmtComp v &&& fmtComp w := BitVec.extractLsb'_and
@[simp] theorem fmtAdepth_and : fmtAdepth (v &&& w) = fmtAdepth v &&& fmtAdepth w := BitVec.extractLsb'_and
@[simp] theorem fmtAcomp_and : fmtAcomp (v &&& w) = fmtAcomp v &&& fmtAcomp w := BitVec.extractLsb'_and
@[simp] theorem fmtMips_and : fmtMips (v &&& w) = fmtMips v &&& fmtMips w := BitVec.extractLsb'_and

end

@[simp] theorem byte_and_ones (b : Byte) : b &&& 0xFF#8 = b := BitVec.and_allOnes

/-- The mask of the block kinds keeps COMP and ACOMP. -/
theorem and_blockMask_eq_iff (w : Word) (comp acomp : Byte) :
    w &&& formatWord 0xFF 0 0xFF 0 = formatWord comp 0 acomp 0 ↔ fmtComp w = comp ∧ fmtAcomp w = acomp := by
  constructor
  · intro h
    exact ⟨by simpa using congrArg fmtComp h, by simpa using congrArg fmtAcomp h⟩
  · rintro ⟨rfl, rfl⟩
    exact format_ext (by simp) (by simp) (by simp) (by simp)

/-- The mask of the palette kinds keeps ADEPTH. -/
theorem and_paletteMask_eq_iff (w : Word) (adepth : Byte) :
    w &&& formatWord 0 0xFF 0 0 = formatWord 0 adepth 0 0 ↔ fmtAdepth w = adepth := by
  constructor
  · intro h
    simpa using congrArg fmtAdepth h
  · rintro rfl
    exact format_ext (by simp) (by simp) (by simp) (by simp)

/-- Settles O4: each mask keeps the fields that name the kind. -/
theorem kindByMaskAndMatch : Obligations.KindByMaskAndMatch := by
  intro w
  have hblock (comp acomp : Byte) := (and_blockMask_eq_iff w comp acomp).symm
  have hpalette (adepth : Byte) :=
    and_comm.trans (and_congr_left' (c := fmtComp w ≠ 0x02) (and_paletteMask_eq_iff w adepth).symm)
  exact ⟨kindOf_ok_iff.trans (hblock 0x02 0x00), kindOf_ok_iff.trans (hblock 0x02 0x01),
    kindOf_ok_iff.trans (hblock 0x02 0x07), kindOf_ok_iff.trans (hpalette 0x00), kindOf_ok_iff.trans (hpalette 0x01),
    kindOf_ok_iff.trans (hpalette 0x04), kindOf_ok_iff.trans (hpalette 0x08)⟩

end Sys2Proof
end

section
/-! What FORMAT words do: an illegal one ends its job (R49), and the fields a kind ignores change nothing (R50). -/

namespace Sys2Proof.Machine

/-- CHECK of an illegal FORMAT word (R49). -/
theorem engineRaise_check {e : JobError} {s : State} {x : Bcdec} (h : InCheck s x) :
    engineRaise e s = .next (putSel s (raiseError e x)) := by
  obtain ⟨hsel, hphase⟩ := h
  unfold engineRaise
  rw [withSel_eq hsel]
  simp [hphase]

theorem raiseError_jobEnded (e : JobError) (x : Bcdec) : JobEnded x (raiseError e x) true (errorCode e) 0 :=
  ⟨rfl, rfl, rfl⟩

/-- An illegal FORMAT word in CHECK ends the job with its error and leaves the inputs and DSTMEM (R49, R105). -/
theorem exec_raise_jobEnded {i : Instr} {e : JobError} {s : State} {x : Bcdec} (hi : exec i s = engineRaise e s)
    (hx : InCheck s x) :
    ∃ y, exec i s = .next (putSel s y) ∧ JobEnded x y true (errorCode e) 0 ∧ SameInputs x y ∧ y.dst = x.dst :=
  ⟨raiseError e x, hi.trans (engineRaise_check hx), raiseError_jobEnded e x, raiseError_sameInputs e x,
    raiseError_dst e x⟩

/-- Settles O5: `kindOf`'s two rejections, and what their instructions do in CHECK. -/
theorem illegalFormatWordsExactly : Obligations.IllegalFormatWordsExactly := by
  intro w
  refine ⟨kindOf_unsupportedFormat_iff, kindOf_unsupportedAlphaDepth_iff, fun s x hx => ⟨fun h => ?_, fun h => ?_⟩⟩
  · rw [decodeFormat_of_unsupportedFormat h]
    exact exec_raise_jobEnded (e := .unsupportedFormat) rfl hx
  · rw [decodeFormat_of_unsupportedAlphaDepth h]
    exact exec_raise_jobEnded (e := .unsupportedAlphaDepth) rfl hx

/-- A FORMAT word that names a kind runs as an engine step of that kind, whatever its other fields (R50). -/
theorem exec_decodeFormat_of_ok {w : Word} {k : JobKind} (h : kindOf w = .ok k) (s : State) :
    exec (decodeFormat w) s = engineStep k (kindUnit k) s := by
  rw [decodeFormat_of_ok h, exec_kindInstr]

/-- Settles O6: a block word's kind is a function of ACOMP, a palette word's of ADEPTH, and the kind says all that runs. -/
theorem unusedFieldsAreIgnored : Obligations.UnusedFieldsAreIgnored := by
  refine ⟨fun v w hv hw hacomp => ?_, fun v w hv hw hadepth => ?_, fun v w k s hv hw => ?_⟩
  · unfold kindOf
    rw [if_pos hv, if_pos hw, hacomp]
  · unfold kindOf
    rw [if_neg hv, if_neg hw, hadepth]
  · rw [exec_decodeFormat_of_ok hv, exec_decodeFormat_of_ok hw]

end Sys2Proof.Machine
end

section
/-! Where the cells of an image lie: the unit that covers each, and the source bytes that its unit reads (R52, R61,
R76, R77, R102). -/

namespace Sys2Proof.Machine

/-- The block that covers cell `j` of an image of width `w` (R52, R65). -/
def coverUnit (w j : Nat) : Nat := j / w / 4 * ceilDiv w 4 + j % w / 4

/-- A cell lies in a block's column and row exactly as its coordinates say. -/
theorem blockCell_eq_some_iff {w h bx by' p j : Nat} (hp : p < 16) :
    blockCell w h bx by' p = some j ↔
      j < w * h ∧ j / w / 4 = by' ∧ j % w / 4 = bx ∧ j / w % 4 * 4 + j % w % 4 = p := by
  constructor
  · intro hc
    have hlt := blockCell_lt hc
    unfold blockCell at hc
    split at hc
    · rename_i hin
      obtain ⟨hcol, hrow⟩ := hin
      have hw : 0 < w := by omega
      cases hc
      have hdiv : ((4 * by' + p / 4) * w + (4 * bx + p % 4)) / w = 4 * by' + p / 4 := by
        rw [Nat.mul_comm, Nat.mul_add_div hw, Nat.div_eq_of_lt hcol, Nat.add_zero]
      have hmod : ((4 * by' + p / 4) * w + (4 * bx + p % 4)) % w = 4 * bx + p % 4 := by
        rw [Nat.mul_add_mod_self_right, Nat.mod_eq_of_lt hcol]
      rw [hdiv, hmod]
      exact ⟨hlt, by omega, by omega, by omega⟩
    · cases hc
  · rintro ⟨hlt, rfl, rfl, rfl⟩
    have hw : 0 < w := Nat.pos_of_mul_pos_right (Nat.zero_lt_of_lt hlt)
    have hcol : 4 * (j % w / 4) + (j / w % 4 * 4 + j % w % 4) % 4 = j % w := by omega
    have hrow : 4 * (j / w / 4) + (j / w % 4 * 4 + j % w % 4) / 4 = j / w := by omega
    unfold blockCell
    rw [hcol, hrow, if_pos ⟨Nat.mod_lt j hw, Nat.div_lt_of_lt_mul hlt⟩, Nat.div_add_mod']

theorem column_lt_ceilDiv {w j : Nat} (hw : 0 < w) : j % w / 4 < ceilDiv w 4 := by
  have := Nat.mod_lt j hw
  unfold ceilDiv
  omega

/-- A block's number gives its column and row. -/
theorem coverUnit_eq_iff {w j u : Nat} (hw : 0 < w) :
    coverUnit w j = u ↔ j / w / 4 = u / ceilDiv w 4 ∧ j % w / 4 = u % ceilDiv w 4 := by
  have hcol := column_lt_ceilDiv (j := j) hw
  have hunique := Nat.div_mod_unique (a := u) (d := j / w / 4) (c := j % w / 4) (Nat.zero_lt_of_lt hcol)
  rw [eq_comm (a := j / w / 4), eq_comm (a := j % w / 4), hunique, and_iff_left hcol, coverUnit, Nat.mul_comm,
    Nat.add_comm]

theorem coverUnit_lt {w h j : Nat} (hj : j < w * h) : coverUnit w j < ceilDiv w 4 * ceilDiv h 4 := by
  have hw : 0 < w := Nat.pos_of_mul_pos_right (Nat.zero_lt_of_lt hj)
  have hcol := column_lt_ceilDiv (j := j) hw
  have hrow : j / w / 4 + 1 ≤ ceilDiv h 4 := by
    have := Nat.div_lt_of_lt_mul hj
    unfold ceilDiv
    omega
  calc coverUnit w j
    _ < j / w / 4 * ceilDiv w 4 + ceilDiv w 4 := Nat.add_lt_add_left hcol _
    _ = (j / w / 4 + 1) * ceilDiv w 4 := (Nat.succ_mul _ _).symm
    _ ≤ ceilDiv h 4 * ceilDiv w 4 := Nat.mul_le_mul_right _ hrow
    _ = ceilDiv w 4 * ceilDiv h 4 := Nat.mul_comm _ _

/-- The unit of a cell inside the image is one of the job's (R77). -/
theorem cellUnit_lt_units {k : JobKind} {x : Bcdec} {j : Nat} (hj : j < jobPixels x) :
    cellUnit k x j < units k (jobW x) (jobH x) := by
  cases k
  case bc1 | bc2 | bc3 => exact coverUnit_lt hj
  all_goals exact hj

/-- A unit's block lies below reqLen (R76). -/
theorem block_end_le_reqLen {k : JobKind} {w h u : Nat} (hk : k = .bc1 ∨ k = .bc2 ∨ k = .bc3) (hu : u < units k w h) :
    u * blockBytes k + blockBytes k ≤ reqLen k w h := by
  rw [← Nat.succ_mul]
  rcases hk with rfl | rfl | rfl <;> exact Nat.mul_le_mul_right _ hu

/-! ### The plane byte of a pixel lies below reqLen (R61, R62, R76) -/

section
variable {w h i : Nat} (hi : i < w * h)
include hi

theorem pal1_plane_lt_reqLen : w * h + i / 8 < reqLen .pal1 w h := by
  simp only [reqLen, alphaBytes, ceilDiv]
  omega

theorem pal4_plane_lt_reqLen : w * h + i / 2 < reqLen .pal4 w h := by
  simp only [reqLen, alphaBytes, ceilDiv]
  omega

theorem pal8_plane_lt_reqLen : w * h + i < reqLen .pal8 w h := by
  simp only [reqLen, alphaBytes]
  omega

theorem index_lt_reqLen {k : JobKind} (hk : k = .pal0 ∨ k = .pal1 ∨ k = .pal4 ∨ k = .pal8) : i < reqLen k w h := by
  rcases hk with rfl | rfl | rfl | rfl <;> exact Nat.lt_of_lt_of_le hi (Nat.le_add_right _ _)

end

end Sys2Proof.Machine
end

section
/-! The image of a job is a function of its inputs (R81): engines whose reads agree where a texel's unit reads have one
texel there. -/

namespace Sys2Proof.Machine

/-- The `n` SRCMEM cells from `o` read the same in `x` and `y`. -/
def SrcAgree (x y : Bcdec) (o n : Nat) : Prop :=
  ∀ a, o ≤ a → a < o + n → Memory.read x.src a = Memory.read y.src a

section
variable {x y : Bcdec} {o n : Nat} (h : SrcAgree x y o n)
include h

theorem SrcAgree.mono {o' n' : Nat} (hlo : o ≤ o') (hhi : o' + n' ≤ o + n) : SrcAgree x y o' n' :=
  fun a ha hn => h a (hlo.trans ha) (hn.trans_le hhi)

theorem srcRead_agree {a : Nat} (hlo : o ≤ a) (hhi : a < o + n) : srcRead x a = srcRead y a := by
  unfold srcRead
  rw [h a hlo hhi]

theorem srcBytes_agree : srcBytes x o n = srcBytes y o n := by
  induction n generalizing o with
  | zero => rfl
  | succ n ih =>
    rw [srcBytes_succ, srcBytes_succ, srcRead_agree h (Nat.le_refl o) (by omega),
      ih (h.mono (Nat.le_succ o) (by omega))]

theorem srcLE_agree {o' n' : Nat} (hlo : o ≤ o') (hhi : o' + n' ≤ o + n) : srcLE x o' n' = srcLE y o' n' := by
  unfold srcLE
  rw [srcBytes_agree (h.mono hlo hhi)]

theorem colorFields_agree {o' : Nat} (hlo : o ≤ o') (hhi : o' + 8 ≤ o + n) : colorFields x o' = colorFields y o' := by
  unfold colorFields
  rw [srcLE_agree h hlo (by omega), srcLE_agree h (o' := o' + 2) (by omega) (by omega),
    srcLE_agree h (o' := o' + 4) (by omega) (by omega)]

end

section
variable {x y : Bcdec} {o : Nat}

theorem decodeBc1_agree (h : SrcAgree x y o (blockBytes .bc1)) : decodeBc1 x o = decodeBc1 y o := by
  unfold decodeBc1
  rw [colorFields_agree h (Nat.le_refl o) (Nat.le_refl _)]

theorem decodeBc2_agree (h : SrcAgree x y o (blockBytes .bc2)) : decodeBc2 x o = decodeBc2 y o := by
  simp only [blockBytes] at h
  unfold decodeBc2
  rw [srcLE_agree h (Nat.le_refl o) (by omega), colorFields_agree h (Nat.le_add_right o 8) (by omega)]

theorem decodeBc3_agree (h : SrcAgree x y o (blockBytes .bc3)) : decodeBc3 x o = decodeBc3 y o := by
  simp only [blockBytes] at h
  unfold decodeBc3
  rw [srcRead_agree h (Nat.le_refl o) (by omega), srcRead_agree h (Nat.le_add_right o 1) (by omega),
    srcLE_agree h (Nat.le_add_right o 2) (by omega), colorFields_agree h (Nat.le_add_right o 8) (by omega)]

end

/-- The texel of cell `j` of a job of each kind, in the engine itself. -/
def kindTexel : JobKind → Bcdec → Nat → Except Fault Word
  | .bc1 => blockTexel (blockBytes .bc1) decodeBc1
  | .bc2 => blockTexel (blockBytes .bc2) decodeBc2
  | .bc3 => blockTexel (blockBytes .bc3) decodeBc3
  | .pal0 => palTexel alphaPal0
  | .pal1 => palTexel alphaPal1
  | .pal4 => palTexel alphaPal4
  | .pal8 => palTexel alphaPal8

/-- An engine that holds the inputs of an image and nothing else. -/
def inputsEngine (w h : Word) (src : Memory 8) (pal : Memory 32) : Bcdec :=
  { Bcdec.reset with src := src, pal := pal, job := { Job.reset with w := w, h := h } }

theorem imageTexel_eq (k : JobKind) (w h : Word) (src : Memory 8) (pal : Memory 32) (j : Nat) :
    imageTexel k w h src pal j = kindTexel k (inputsEngine w h src pal) j := by
  cases k <;> rfl

/-- Two jobs of kind `k` have the same size, and agree on the inputs that a job of that kind has (R81, R87). -/
structure InputsAgree (k : JobKind) (x y : Bcdec) : Prop where
  w : jobW x = jobW y
  h : jobH x = jobH y
  src : SrcAgree x y 0 (reqLen k (jobW x) (jobH x))
  pal : k = .pal0 ∨ k = .pal1 ∨ k = .pal4 ∨ k = .pal8 →
    ∀ i b, i < jobPixels x → Memory.read x.src i = some b → Memory.read x.pal b.toNat = Memory.read y.pal b.toNat

theorem InputsAgree.pixels {k : JobKind} {x y : Bcdec} (h : InputsAgree k x y) : jobPixels x = jobPixels y := by
  unfold jobPixels
  rw [h.w, h.h]

theorem blockTexel_agree {bs : Nat} {d : Bcdec → Nat → Except Fault (Nat → Word)} {x y : Bcdec} {j : Nat}
    (hw : jobW x = jobW y) (hd : d x (coverUnit (jobW x) j * bs) = d y (coverUnit (jobW x) j * bs)) :
    blockTexel bs d x j = blockTexel bs d y j := by
  unfold coverUnit at hd
  unfold blockTexel
  rw [← hw, hd]

theorem palTexel_agree {alphaAt : Bcdec → Nat → Except Fault Byte} {x y : Bcdec} {i : Nat}
    (hsrc : srcRead x i = srcRead y i) (halpha : alphaAt x i = alphaAt y i)
    (hpal : ∀ b, Memory.read x.src i = some b → Memory.read x.pal b.toNat = Memory.read y.pal b.toNat) :
    palTexel alphaAt x i = palTexel alphaAt y i := by
  unfold palTexel
  rw [← hsrc, ← halpha]
  cases hix : srcRead x i with
  | error f => rfl
  | ok ix =>
    have hentry : palRead x ix.toNat = palRead y ix.toNat := by
      unfold palRead
      rw [hpal ix (srcRead_ok.1 hix)]
    rw [ok_bind, ok_bind, hentry]

/-- Jobs that agree on their inputs have one image. -/
theorem InputsAgree.kindTexel_eq {k : JobKind} {x y : Bcdec} {j : Nat} (h : InputsAgree k x y)
    (hj : j < jobPixels x) : kindTexel k x j = kindTexel k y j := by
  have hblock (hk : k = .bc1 ∨ k = .bc2 ∨ k = .bc3) :
      SrcAgree x y (cellUnit k x j * blockBytes k) (blockBytes k) :=
    h.src.mono (Nat.zero_le _) (by simpa using block_end_le_reqLen hk (cellUnit_lt_units hj))
  have hread {a : Nat} (ha : a < reqLen k (jobW x) (jobH x)) : srcRead x a = srcRead y a :=
    srcRead_agree h.src (Nat.zero_le a) (by simpa using ha)
  have hpalette {alphaAt : Bcdec → Nat → Except Fault Byte} (hk : k = .pal0 ∨ k = .pal1 ∨ k = .pal4 ∨ k = .pal8)
      (halpha : alphaAt x j = alphaAt y j) : palTexel alphaAt x j = palTexel alphaAt y j :=
    palTexel_agree (hread (index_lt_reqLen hj hk)) halpha fun b => h.pal hk j b hj
  cases k
  case bc1 => exact blockTexel_agree h.w (decodeBc1_agree (hblock (by simp)))
  case bc2 => exact blockTexel_agree h.w (decodeBc2_agree (hblock (by simp)))
  case bc3 => exact blockTexel_agree h.w (decodeBc3_agree (hblock (by simp)))
  case pal0 => exact hpalette (by simp) rfl
  case pal1 =>
    refine hpalette (by simp) ?_
    unfold alphaPal1
    rw [← h.pixels, hread (a := jobPixels x + j / 8) (pal1_plane_lt_reqLen hj)]
  case pal4 =>
    refine hpalette (by simp) ?_
    unfold alphaPal4
    rw [← h.pixels, hread (a := jobPixels x + j / 2) (pal4_plane_lt_reqLen hj)]
  case pal8 =>
    refine hpalette (by simp) ?_
    unfold alphaPal8
    rw [← h.pixels, hread (a := jobPixels x + j) (pal8_plane_lt_reqLen hj)]

/-- The image of an engine's own inputs. -/
theorem imageTexel_self {k : JobKind} {x : Bcdec} {j : Nat} (hj : j < jobPixels x) :
    imageTexel k x.job.w x.job.h x.src x.pal j = kindTexel k x j := by
  have hagree : InputsAgree k x (inputsEngine x.job.w x.job.h x.src x.pal) :=
    ⟨rfl, rfl, fun _ _ _ => rfl, fun _ _ _ _ _ => rfl⟩
  rw [imageTexel_eq, hagree.kindTexel_eq hj]

/-- Settles O59: engines that hold either inputs and nothing else agree on all that a job reads. -/
theorem imageDependsOnInputsAlone : Obligations.ImageDependsOnInputsAlone := by
  intro k w h src src' pal pal' j hj hsrc hpal
  have hagree : InputsAgree k (inputsEngine w h src pal) (inputsEngine w h src' pal') :=
    ⟨rfl, rfl, fun a _ ha => hsrc a (by rwa [Nat.zero_add] at ha), hpal⟩
  rw [imageTexel_eq, imageTexel_eq, hagree.kindTexel_eq hj]

end Sys2Proof.Machine
end

section
/-! A running job holds its image (R79, R81): a unit writes the texels of its own cells, and no other change of a busy
engine touches what the image is made of. -/

namespace Sys2Proof.Machine

/-! ### The cells of a unit -/

section
variable {bs : Nat} {d : Bcdec → Nat → Except Fault (Nat → Word)} {x z : Bcdec} (h : bcUnit bs d x = .ok z)
include h

/-- A block unit leaves the cells of other blocks alone. -/
theorem bcUnit_read_miss {j : Nat} (hj : coverUnit (jobW x) j ≠ x.job.cur) :
    Memory.read z.dst j = Memory.read x.dst j := by
  obtain ⟨t, -, rfl⟩ := bcUnit_ok h
  refine placeBlock_miss fun p hp hc => hj ?_
  obtain ⟨hlt, hrow, hcol, -⟩ := (blockCell_eq_some_iff hp).1 hc
  exact (coverUnit_eq_iff (Nat.pos_of_mul_pos_right (Nat.zero_lt_of_lt hlt))).2 ⟨hrow, hcol⟩

/-- A block unit writes its texel to each of its cells inside the image. -/
theorem bcUnit_read_hit {j : Nat} (hlt : j < jobPixels x) (hj : coverUnit (jobW x) j = x.job.cur) :
    ∃ v, blockTexel bs d x j = .ok v ∧ Memory.read z.dst j = some v := by
  obtain ⟨t, ht, rfl⟩ := bcUnit_ok h
  obtain ⟨hrow, hcol⟩ := (coverUnit_eq_iff (Nat.pos_of_mul_pos_right (Nat.zero_lt_of_lt hlt))).1 hj
  have hp : j / jobW x % 4 * 4 + j % jobW x % 4 < 16 := by omega
  refine ⟨t _, ?_, placeBlock_hit hp ((blockCell_eq_some_iff hp).2 ⟨hlt, hrow, hcol, rfl⟩)⟩
  rw [← hj, coverUnit] at ht
  unfold blockTexel
  rw [ht, ok_bind]

end

section
variable {k : JobKind} {x z : Bcdec} (h : kindUnit k x = .ok z) {j : Nat}
include h

theorem kindUnit_read_miss (hj : cellUnit k x j ≠ x.job.cur) : Memory.read z.dst j = Memory.read x.dst j := by
  cases k
  case bc1 | bc2 | bc3 => exact bcUnit_read_miss h hj
  all_goals
    obtain ⟨v, -, rfl⟩ := palUnit_ok h
    exact Memory.read_write_other _ _ hj

theorem kindUnit_read_hit (hlt : j < jobPixels x) (hj : cellUnit k x j = x.job.cur) :
    ∃ v, kindTexel k x j = .ok v ∧ Memory.read z.dst j = some v := by
  cases k
  case bc1 | bc2 | bc3 => exact bcUnit_read_hit h hlt hj
  all_goals
    obtain ⟨v, hv, rfl⟩ := palUnit_ok h
    obtain rfl : j = x.job.cur := hj
    exact ⟨v, hv, Memory.read_write_same _ _ v⟩

end

/-! ### The cells behind the cursor -/

section
variable {x y : Bcdec} (h : SameInputs x y)
include h

theorem SameInputs.jobW : jobW y = jobW x := by
  unfold Machine.jobW
  rw [h.w]

theorem SameInputs.jobH : jobH y = jobH x := by
  unfold Machine.jobH
  rw [h.h]

theorem SameInputs.jobPixels : jobPixels y = jobPixels x := by
  unfold Machine.jobPixels
  rw [h.jobW, h.jobH]

theorem SameInputs.cellUnit (k : JobKind) (j : Nat) : cellUnit k y j = cellUnit k x j := by
  unfold Machine.cellUnit
  rw [h.jobW]

theorem SameInputs.imageTexel (k : JobKind) (j : Nat) :
    imageTexel k y.job.w y.job.h y.src y.pal j = imageTexel k x.job.w x.job.h x.src x.pal j := by
  rw [h.w, h.h, h.src, h.pal]

end

/-- The cells behind the cursor stay decoded through one unit (R79). -/
theorem DecodedBelow.advance {x z : Bcdec} (h : DecodedBelow x x.job.cur) (hu : kindUnit x.job.kind x = .ok z) :
    DecodedBelow (advance z) (x.job.cur + 1) := by
  obtain ⟨hdone, hdst⟩ := advance_unitDone (kindUnit_onlyDst hu)
  intro j hj hunit
  rw [hdone.inputs.jobPixels] at hj
  rw [hdone.kind, hdone.inputs.cellUnit] at hunit
  rw [hdone.kind, hdone.inputs.imageTexel, hdst]
  rcases Nat.lt_succ_iff_lt_or_eq.1 hunit with hbehind | hhere
  · rw [kindUnit_read_miss hu (Nat.ne_of_lt hbehind)]
    exact h j hj hbehind
  · rw [imageTexel_self hj]
    exact kindUnit_read_hit hu hj hhere

/-- With every unit behind the cursor the whole image is decoded. -/
theorem DecodedBelow.all {x : Bcdec} (h : DecodedBelow x (units x.job.kind (jobW x) (jobH x))) {j : Nat}
    (hj : j < jobPixels x) :
    ∃ v, imageTexel x.job.kind x.job.w x.job.h x.src x.pal j = .ok v ∧ Memory.read x.dst j = some v :=
  h j hj (cellUnit_lt_units hj)

/-! ### What a step does to a running job -/

/-- A change of a busy engine in RUN, but its reset, touches STATUS and FAULTS alone, or is a unit of its own kind. -/
theorem Change.of_run {s : State} {k : Nat} {x y : Bcdec} (h : Change s k x y) (hp : x.job.phase = .run)
    (hb : x.status.busy = true) (hreset : ∀ ts, s.turns ≠ .reset k :: ts) :
    y = { x with status := y.status, faults := y.faults } ∨
      ∃ z, kindUnit x.job.kind x = .ok z ∧ y = advance z := by
  cases h with
  | mark m => left; rw [addMark_eq]
  | reset ts hts => exact absurd hts (hreset ts)
  | effect i _ he hi =>
    cases he with
    | check _ _ hcheck | raise _ hcheck => simp [hp] at hcheck
    | run kd z hk _ hu =>
      obtain rfl := (fetched_kind hi hk).2 hp
      exact .inr ⟨z, hu, rfl⟩
    | reg _ v r => left; rcases regWrite_of_busy hb v r with h | h <;> rw [h]
    | start => left; rw [doStart_of_busy hb]
    | src | pal => left; rw [idleWrite_of_busy hb]

/-- Settles O58: a step leaves what the image is made of, or is a unit, after which one more unit is decoded. -/
theorem runningJobHoldsItsImage : Obligations.RunningJobHoldsItsImage := by
  intro s t k x y h hinv hx hy hp hreset hdec
  have hxinv := hinv.insts x (List.mem_of_getElem? hx)
  have hb : x.status.busy = true := hxinv.busyPhase.2 (by simp [hp])
  rcases step_engine h hx hy with rfl | hc
  · exact .inl ⟨hp, hdec⟩
  rcases hc.of_run hp hb hreset with hsame | ⟨z, hu, rfl⟩
  · rw [hsame]
    exact .inl ⟨hp, hdec⟩
  have hdone := (advance_unitDone (kindUnit_onlyDst hu)).1
  have hdec' := hdec.advance hu
  by_cases hlast : x.job.cur + 1 = x.job.total
  · obtain ⟨hphase, hstatus, -⟩ := hdone.last hlast
    rw [hlast, (hxinv.running hp).total, ← hdone.kind, ← hdone.inputs.jobW, ← hdone.inputs.jobH] at hdec'
    exact .inr ⟨hphase, by rw [hstatus], by rw [hstatus], fun j => hdec'.all⟩
  · obtain ⟨hphase, -, -⟩ := hdone.more hlast
    exact .inl ⟨hphase.trans hp, by rwa [hdone.cur]⟩

end Sys2Proof.Machine
end

section
/-! The host transactions, one by one: the registers by offset (R14, R68, R69), START (R75), and the reads and writes of
the buffers (R70 to R74). -/

namespace Sys2Proof.Machine

/-! ### Register offsets and the STATUS word -/

/-- A register is at its own offset and no other (R14). -/
theorem regOf_eq_some_iff {off : Word} {r : Reg} : regOf off = some r ↔ off = regOffset r := by
  constructor
  · intro h
    unfold regOf at h
    split at h <;> cases h <;> exact BitVec.eq_of_toNat_eq ‹_›
  · rintro rfl
    cases r <;> rfl

/-- Every register lies at a multiple of 4 below 0x20 (R14). -/
theorem regOf_eq_none {off : Word} (h : off.toNat % 4 ≠ 0 ∨ 0x20 ≤ off.toNat) : regOf off = none := by
  cases hr : regOf off with
  | none => rfl
  | some r =>
    obtain rfl := regOf_eq_some_iff.1 hr
    cases r <;> simp [regOffset] at h

theorem bit_getLsbD (b : Bool) {k : Nat} (hk : k < 32) (i : Nat) : (bit b k).getLsbD i = (b && decide (i = k)) := by
  cases b
  · simp [bit]
  · simp [bit, BitVec.getLsbD_twoPow, hk, eq_comm]

/-- STATUS as one word: ERRCODE in bits 15:8, the four flags in bits 3:0, the reserved bits 0 (R16). -/
theorem statusWord_eq_append (t : Status) :
    statusWord t = (0#16 ++ t.errcode ++ 0#4 ++ BitVec.ofBool t.wbusy ++ BitVec.ofBool t.error ++
      BitVec.ofBool t.done ++ BitVec.ofBool t.busy : BitVec 32) := by
  show _ = (0#16 ++ t.errcode ++ 0#4 ++ BitVec.ofBool t.wbusy ++ BitVec.ofBool t.error ++
    BitVec.ofBool t.done ++ BitVec.ofBool t.busy : BitVec (16 + 8 + 4 + 1 + 1 + 1 + 1))
  refine BitVec.eq_of_getLsbD_eq fun i hi => ?_
  simp only [statusWord, BitVec.getLsbD_or, BitVec.getLsbD_append]
  rw [bit_getLsbD _ (by decide), bit_getLsbD _ (by decide), bit_getLsbD _ (by decide), bit_getLsbD _ (by decide)]
  interval_cases i <;> simp

/-! ### While idle -/

section
variable {x : Bcdec} (hb : x.status.busy = false)
include hb

theorem idleWrite_of_idle (y : Bcdec) : idleWrite x y = y := if_neg (Bool.eq_false_iff.1 hb)

theorem doStart_of_idle : doStart x =
    { x with
      status := statusStarted x.status
      outCount := 0
      job := { x.job with phase := .check, fmt := x.format, w := x.width, h := x.height, len := x.srcLen } } :=
  if_neg (Bool.eq_false_iff.1 hb)

end

theorem regWrite_ctrl_start {v : Word} (hv : v.getLsbD 0 = true) (x : Bcdec) : regWrite x v .ctrl = doStart x :=
  if_pos hv

theorem regWrite_ctrl_other {v : Word} (hv : v.getLsbD 0 = false) (x : Bcdec) : regWrite x v .ctrl = x :=
  if_neg (Bool.eq_false_iff.1 hv)

/-! ### The outcome of each transaction, by its operands -/

section
variable {s : State} {x : Bcdec} (hx : Selected s x)
include hx

theorem exec_rd {off : Word} {r : Reg} (data : Word) (hr : regOf off = some r) :
    exec (.rd off data) s = .next (reply s (regRead x r)) :=
  (withSel_eq hx _).trans (by rw [hr])

theorem exec_rd_refused {off : Word} (data : Word) (hr : regOf off = none) :
    exec (.rd off data) s = .refused .regAccess :=
  (withSel_eq hx _).trans (by rw [hr])

theorem exec_wr {off v : Word} {r : Reg} {y : Bcdec} (hr : regOf off = some r) (hy : regWrite x v r = y) :
    exec (.wr off v) s = .next (putSel s y) :=
  (withSel_eq hx _).trans (by rw [hr, ← hy])

theorem exec_wr_refused {off v : Word} (hr : regOf off = none) : exec (.wr off v) s = .refused .regAccess :=
  (withSel_eq hx _).trans (by rw [hr])

theorem exec_start (high : BitVec 31) : exec (.start high) s = .next (putSel s (doStart x)) := withSel_eq hx _

section
variable {a : Word} (ha : a.toNat < s.cfg.srcCap)
include ha

theorem exec_wrsrc (v : Word) : exec (.wrsrc a v) s =
    .next (putSel s (idleWrite x { x with src := Memory.write x.src a.toNat (srcByte v) })) :=
  (withSel_eq hx _).trans (if_neg (Nat.not_le.2 ha))

theorem exec_rdsrc_written {b : Byte} (data : Word) (hm : Memory.read x.src a.toNat = some b) :
    exec (.rdsrc a data) s = .next (reply s (b.setWidth 32)) :=
  (withSel_eq hx _).trans ((if_neg (Nat.not_le.2 ha)).trans (by rw [srcRead_ok.2 hm]))

theorem exec_rdsrc_unwritten (data : Word) (hm : Memory.read x.src a.toNat = none) :
    exec (.rdsrc a data) s = .fault (.unwrittenSrc a.toNat) :=
  (withSel_eq hx _).trans ((if_neg (Nat.not_le.2 ha)).trans (by rw [srcRead_error.2 ⟨hm, rfl⟩]))

end

section
variable {i : Word} (hi : i.toNat < 256)
include hi

theorem exec_wrpal (w : Word) : exec (.wrpal i w) s =
    .next (putSel s (idleWrite x { x with pal := Memory.write x.pal i.toNat w })) :=
  (withSel_eq hx _).trans (if_neg (Nat.not_le.2 hi))

theorem exec_rdpal_written {v : Word} (data : Word) (hm : Memory.read x.pal i.toNat = some v) :
    exec (.rdpal i data) s = .next (reply s v) :=
  (withSel_eq hx _).trans ((if_neg (Nat.not_le.2 hi)).trans (by rw [palRead_ok.2 hm]))

theorem exec_rdpal_unwritten (data : Word) (hm : Memory.read x.pal i.toNat = none) :
    exec (.rdpal i data) s = .fault (.unwrittenPal i.toNat) :=
  (withSel_eq hx _).trans ((if_neg (Nat.not_le.2 hi)).trans (by rw [palRead_error.2 ⟨hm, rfl⟩]))

end

section
variable {j : Word} (hj : j.toNat < s.cfg.dstCap)
include hj

theorem exec_rddst_busy (data : Word) (hb : x.status.busy = true) : exec (.rddst j data) s = .next (replyDraw s) :=
  (withSel_eq hx _).trans ((if_neg (Nat.not_le.2 hj)).trans (if_pos hb))

theorem exec_rddst_written {v : Word} (data : Word) (hb : x.status.busy = false)
    (hm : Memory.read x.dst j.toNat = some v) : exec (.rddst j data) s = .next (reply s v) :=
  (withSel_eq hx _).trans ((if_neg (Nat.not_le.2 hj)).trans ((if_neg (Bool.eq_false_iff.1 hb)).trans (by rw [hm])))

theorem exec_rddst_unwritten (data : Word) (hb : x.status.busy = false) (hm : Memory.read x.dst j.toNat = none) :
    exec (.rddst j data) s = .fault (.unwrittenDst j.toNat) :=
  (withSel_eq hx _).trans ((if_neg (Nat.not_le.2 hj)).trans ((if_neg (Bool.eq_false_iff.1 hb)).trans (by rw [hm])))

end

end

/-- Bits 7:0 of a data word (R70). -/
theorem srcByte_eq_mod (v : Word) : srcByte v = BitVec.ofNat 8 (v.toNat % 256) := by
  apply BitVec.eq_of_toNat_eq
  simp [srcByte, BitVec.extractLsb'_toNat]

/-! ### The obligations -/

/-- Settles O12: each offset's register, whose value `rd` replies with. -/
theorem regReadReturns : Obligations.RegReadReturns := by
  intro s x data hx
  refine ⟨exec_rd hx data (r := .ctrl) rfl, ?_, exec_rd hx data (r := .format) rfl,
    exec_rd hx data (r := .width) rfl, exec_rd hx data (r := .height) rfl, exec_rd hx data (r := .srcLen) rfl,
    exec_rd hx data (r := .outCount) rfl, exec_rd hx data (r := .reserved) rfl,
    fun off hoff => exec_rd_refused hx data (regOf_eq_none hoff)⟩
  rw [← statusWord_eq_append]
  exact exec_rd hx data (r := .status) rfl

/-- Settles O13: each offset's register, and what `regWrite` makes of the engine there. -/
theorem regWriteStores : Obligations.RegWriteStores := by
  intro s x v hx
  have hnoEffect {off : Word} (r : Reg) (hr : regOf off = some r) (hw : regWrite x v r = x) :
      exec (.wr off v) s = .next s :=
    (exec_wr hx hr hw).trans (by rw [putSel_self hx])
  refine ⟨fun hb => ?_, fun hb off hoff => ?_, fun off hoff => ?_, fun hv => ?_, fun hv => ?_, fun off hoff => ?_⟩
  · have hidle := idleWrite_of_idle hb
    exact ⟨exec_wr hx (r := .format) rfl (hidle _), exec_wr hx (r := .width) rfl (hidle _),
      exec_wr hx (r := .height) rfl (hidle _), exec_wr hx (r := .srcLen) rfl (hidle _)⟩
  · have hbusy := idleWrite_of_busy hb
    rcases hoff with rfl | rfl | rfl | rfl
    · exact exec_wr hx (r := .format) rfl (hbusy _)
    · exact exec_wr hx (r := .width) rfl (hbusy _)
    · exact exec_wr hx (r := .height) rfl (hbusy _)
    · exact exec_wr hx (r := .srcLen) rfl (hbusy _)
  · rcases hoff with rfl | rfl | rfl
    · exact hnoEffect .status rfl rfl
    · exact hnoEffect .outCount rfl rfl
    · exact hnoEffect .reserved rfl rfl
  · exact hnoEffect .ctrl rfl (regWrite_ctrl_other hv x)
  · exact exec_wr hx (r := .ctrl) rfl (regWrite_ctrl_start hv x)
  · exact exec_wr_refused hx (regOf_eq_none hoff)

/-- Settles O14: both spellings of START run `doStart`. -/
theorem startLatchesJob : Obligations.StartLatchesJob := by
  intro s x high v hx hv
  have hstart := exec_start hx high
  refine ⟨?_, fun hb => ?_, fun hb => ?_⟩
  · exact (exec_wr hx (r := .ctrl) rfl (regWrite_ctrl_start hv x)).trans hstart.symm
  · exact hstart.trans (by rw [doStart_of_busy hb]; rfl)
  · exact hstart.trans (by rw [doStart_of_idle hb]; rfl)

/-- Settles O15: the byte stored is bits 7:0 of the data, and a buffer write changes one cell. -/
theorem srcWriteStoresByte : Obligations.SrcWriteStoresByte := by
  intro s x a v hx
  refine ⟨fun ha => (withSel_eq hx _).trans (if_pos ha), fun ha hb => ?_, fun ha hb => ?_⟩
  · exact (exec_wrsrc hx ha v).trans (by rw [idleWrite_of_busy hb]; rfl)
  · refine ⟨Memory.write x.src a.toNat (srcByte v), ?_, ?_, fun b => Memory.read_write_other _ _⟩
    · exact (exec_wrsrc hx ha v).trans (by rw [idleWrite_of_idle hb])
    · rw [Memory.read_write_same, srcByte_eq_mod]

/-- Settles O16: `rdsrc` replies with what `SrcRead` reads. -/
theorem srcReadReturnsByte : Obligations.SrcReadReturnsByte := by
  intro s x a data hx
  refine ⟨fun ha => (withSel_eq hx _).trans (if_pos ha), fun ha hm => exec_rdsrc_unwritten hx ha data hm,
    fun b ha hm => ?_⟩
  rw [BitVec.ofNat_toNat]
  exact exec_rdsrc_written hx ha data hm

/-- Settles O17: a buffer write stores the whole word and changes one entry. -/
theorem palWriteStoresEntry : Obligations.PalWriteStoresEntry := by
  intro s x i v hx
  refine ⟨fun hi => (withSel_eq hx _).trans (if_pos hi), fun hi hb => ?_, fun hi hb => ?_⟩
  · exact (exec_wrpal hx hi v).trans (by rw [idleWrite_of_busy hb]; rfl)
  · refine ⟨Memory.write x.pal i.toNat v, ?_, Memory.read_write_same _ _ v, fun j => Memory.read_write_other _ _⟩
    exact (exec_wrpal hx hi v).trans (by rw [idleWrite_of_idle hb])

/-- Settles O18: `rdpal` replies with what `PalRead` reads. -/
theorem palReadReturnsEntry : Obligations.PalReadReturnsEntry := by
  intro s x i data hx
  exact ⟨fun hi => (withSel_eq hx _).trans (if_pos hi), fun hi hm => exec_rdpal_unwritten hx hi data hm,
    fun v hi hm => exec_rdpal_written hx hi data hm⟩

/-- Settles O19: while BUSY the reply is a draw, while idle the cell. -/
theorem dstReadReturnsTexel : Obligations.DstReadReturnsTexel := by
  intro s x j data hx
  exact ⟨fun hj => (withSel_eq hx _).trans (if_pos hj), fun hj hb => ⟨_, exec_rddst_busy hx hj data hb⟩,
    fun hj hb hm => exec_rddst_unwritten hx hj data hb hm, fun v hj hb hm => exec_rddst_written hx hj data hb hm⟩

end Sys2Proof.Machine
end

section
/-! The frame of the write transactions (R16, R68, R70, R72, R75). -/

namespace Sys2Proof.Machine

theorem onlyEngine_putSel (s : State) (y : Bcdec) : OnlyEngine s.sel s (putSel s y) :=
  ⟨rfl, rfl, rfl, rfl, rfl, fun _ => putSel_other s y⟩

/-- What the write transaction `i` may change of the engine `x`, whose state after it is `y`. -/
structure WriteFrame (i : Instr) (x y : Bcdec) : Prop where
  dst : y.dst = x.dst
  faults : y.faults = x.faults
  kind : y.job.kind = x.job.kind
  total : y.job.total = x.job.total
  cur : y.job.cur = x.job.cur
  src : (∀ a d, i ≠ .wrsrc a d) → y.src = x.src
  srcCell : ∀ a d, i = .wrsrc a d → ∀ b, b ≠ a.toNat → Memory.read y.src b = Memory.read x.src b
  pal : (∀ a d, i ≠ .wrpal a d) → y.pal = x.pal
  palCell : ∀ a d, i = .wrpal a d → ∀ b, b ≠ a.toNat → Memory.read y.pal b = Memory.read x.pal b
  regs : (∀ off v, i ≠ .wr off v) →
    y.format = x.format ∧ y.width = x.width ∧ y.height = x.height ∧ y.srcLen = x.srcLen
  reg : ∀ off v, i = .wr off v → (off ≠ 0x08 → y.format = x.format) ∧ (off ≠ 0x0C → y.width = x.width) ∧
    (off ≠ 0x10 → y.height = x.height) ∧ (off ≠ 0x14 → y.srcLen = x.srcLen)
  start : ((∀ h, i ≠ .start h) ∧ (∀ v : Word, v.getLsbD 0 = true → i ≠ .wr 0x00 v)) →
    y.outCount = x.outCount ∧ y.job = x.job ∧ y.status.busy = x.status.busy ∧ y.status.done = x.status.done ∧
    y.status.error = x.status.error ∧ y.status.errcode = x.status.errcode

section
variable {x : Bcdec}

theorem WriteFrame.refl (i : Instr) (x : Bcdec) : WriteFrame i x x := by
  constructor <;> simp

theorem WriteFrame.setWbusy (i : Instr) (x : Bcdec) : WriteFrame i x { x with status := statusWbusy x.status } :=
  { WriteFrame.refl i x with }

theorem WriteFrame.idleWrite {i : Instr} {y : Bcdec} (h : WriteFrame i x y) : WriteFrame i x (idleWrite x y) := by
  unfold Machine.idleWrite
  split
  · exact .setWbusy i x
  · exact h

theorem WriteFrame.doStart {i : Instr} (hi : (∃ h, i = .start h) ∨ ∃ v : Word, v.getLsbD 0 = true ∧ i = .wr 0x00 v) :
    WriteFrame i x (doStart x) := by
  unfold Machine.doStart
  split
  · exact .setWbusy i x
  · refine { WriteFrame.refl i x with start := fun ⟨hstart, hwr⟩ => ?_ }
    rcases hi with ⟨high, rfl⟩ | ⟨v, hv, rfl⟩
    · exact absurd rfl (hstart high)
    · exact absurd rfl (hwr v hv)

theorem WriteFrame.regWrite {off v : Word} {r : Reg} (hr : regOf off = some r) :
    WriteFrame (.wr off v) x (regWrite x v r) := by
  obtain rfl := regOf_eq_some_iff.1 hr
  cases r
  case ctrl =>
    by_cases hv : v.getLsbD 0 = true
    · rw [regWrite_ctrl_start hv]
      exact .doStart (.inr ⟨v, hv, rfl⟩)
    · rw [regWrite_ctrl_other (Bool.eq_false_of_not_eq_true hv)]
      exact .refl _ x
  case status | outCount | reserved => exact .refl _ x
  all_goals
    refine WriteFrame.idleWrite { WriteFrame.refl _ x with regs := fun h => absurd rfl (h _ _), reg := ?_ }
    rintro off' v' ⟨⟩
    simp [regOffset]

theorem WriteFrame.wrsrc (a d : Word) :
    WriteFrame (.wrsrc a d) x { x with src := Memory.write x.src a.toNat (srcByte d) } :=
  { WriteFrame.refl _ x with
    src := fun h => absurd rfl (h a d)
    srcCell := by
      rintro a' d' ⟨⟩ b hb
      exact Memory.read_write_other _ _ hb }

theorem WriteFrame.wrpal (i w : Word) :
    WriteFrame (.wrpal i w) x { x with pal := Memory.write x.pal i.toNat w } :=
  { WriteFrame.refl _ x with
    pal := fun h => absurd rfl (h i w)
    palCell := by
      rintro i' w' ⟨⟩ b hb
      exact Memory.read_write_other _ _ hb }

end

/-- A write transaction puts on the selected engine what its frame allows. -/
theorem exec_write_frame {i : Instr} {s t : State} {x : Bcdec} (hx : Selected s x)
    (hi : (∃ off v, i = .wr off v) ∨ (∃ h, i = .start h) ∨ (∃ a d, i = .wrsrc a d) ∨ (∃ a d, i = .wrpal a d))
    (h : exec i s = .next t) : ∃ y, t = putSel s y ∧ WriteFrame i x y := by
  rcases hi with ⟨_, v, rfl⟩ | ⟨high, rfl⟩ | ⟨a, d, rfl⟩ | ⟨a, d, rfl⟩
  · obtain ⟨r, hr, ht⟩ := exec_wr_next hx h
    exact ⟨_, ht, .regWrite hr⟩
  · exact ⟨_, exec_start_next hx h, .doStart (.inl ⟨high, rfl⟩)⟩
  · exact ⟨_, (exec_wrsrc_next hx h).2, (WriteFrame.wrsrc a d).idleWrite⟩
  · exact ⟨_, (exec_wrpal_next hx h).2, (WriteFrame.wrpal a d).idleWrite⟩

/-- Settles O22: the frame of each write, which the selected engine alone has. -/
theorem hostWritesFrame : Obligations.HostWritesFrame := by
  intro i s t x hx hi h
  obtain ⟨y, rfl, hf⟩ := exec_write_frame hx hi h
  exact ⟨onlyEngine_putSel s y, y, putSel_selected hx y, hf.dst, hf.faults, hf.kind, hf.total, hf.cur, hf.src,
    hf.srcCell, hf.pal, hf.palCell, hf.regs, hf.reg, hf.start⟩

end Sys2Proof.Machine
end

section
/-! CHECK of a legal FORMAT word (R76 to R78, R80), and the bounds it gives to a running job. -/

namespace Sys2Proof.Machine

/-! ### The required length and the number of units -/

theorem ceilDiv_eq_zero_iff {a b : Nat} (hb : 0 < b) : ceilDiv a b = 0 ↔ a = 0 := by
  unfold ceilDiv
  rw [Nat.div_eq_zero_iff]
  omega

/-- A job has no unit exactly when it has no pixel (R77). -/
theorem units_eq_zero_iff (k : JobKind) (w h : Nat) : units k w h = 0 ↔ w * h = 0 := by
  have hblock : ceilDiv w 4 * ceilDiv h 4 = 0 ↔ w * h = 0 := by
    rw [Nat.mul_eq_zero, Nat.mul_eq_zero, ceilDiv_eq_zero_iff (by decide), ceilDiv_eq_zero_iff (by decide)]
  cases k
  case bc1 | bc2 | bc3 => exact hblock
  all_goals exact Iff.rfl

/-- Settles O25: the tables of R76 and R77 are `reqLen`'s and `units`'s equations. -/
theorem requiredLengthAndUnits : Obligations.RequiredLengthAndUnits := by
  intro w h
  refine ⟨rfl, rfl, rfl, rfl, rfl, rfl, (Nat.two_mul _).symm, fun k hk => ?_, fun k hk => ?_,
    fun k => units_eq_zero_iff k w h⟩
  · rcases hk with rfl | rfl | rfl <;> rfl
  · rcases hk with rfl | rfl | rfl | rfl <;> rfl

/-! ### The outcome of CHECK -/

/-- A FORMAT instruction that names a kind is an engine step of that kind. -/
theorem exec_of_instrKind {i : Instr} {k : JobKind} (h : instrKind i = some k) (s : State) :
    exec i s = engineStep k (kindUnit k) s := by
  cases i <;> cases h <;> rfl

@[simp] theorem checkJob_dst (cfg : Config) (k : JobKind) (x : Bcdec) : (checkJob cfg k x).dst = x.dst := by
  rcases checkJob_cases cfg k x with ⟨-, h⟩ | ⟨-, -, h⟩ | ⟨-, -, -, h⟩ | ⟨-, -, -, h⟩ <;> rw [h] <;> rfl

section
variable {cfg : Config} {k : JobKind} {x : Bcdec}

theorem checkJob_of_badDimensions (h : badDimensions cfg x) : checkJob cfg k x = raiseError .badDimensions x :=
  if_pos h

theorem checkJob_of_badLength (hd : ¬ badDimensions cfg x) (hl : badLength cfg k x) :
    checkJob cfg k x = raiseError .malformedHeader x :=
  (if_neg hd).trans (if_pos hl)

theorem CheckPasses.checkJob_eq (h : CheckPasses cfg k x) : checkJob cfg k x = beginRun (latchUnits k x) := by
  obtain ⟨hd, hl⟩ := checkPasses_iff.1 h
  exact (if_neg hd).trans (if_neg hl)

theorem CheckPasses.checkJob_eq_finishOk (h : CheckPasses cfg k x) (hu : units k (jobW x) (jobH x) = 0) :
    checkJob cfg k x = finishOk (latchUnits k x) :=
  h.checkJob_eq.trans (if_pos hu)

theorem CheckPasses.checkJob_eq_run (h : CheckPasses cfg k x) (hu : units k (jobW x) (jobH x) ≠ 0) :
    checkJob cfg k x = { latchUnits k x with job := { (latchUnits k x).job with phase := .run } } :=
  h.checkJob_eq.trans (if_neg hu)

/-- A job that passes CHECK has its kind, its number of units and a cursor at 0, and its units to do or none (R78). -/
theorem CheckPasses.latched (h : CheckPasses cfg k x) :
    (checkJob cfg k x).job.kind = k ∧ (checkJob cfg k x).job.total = units k (jobW x) (jobH x) ∧
    (checkJob cfg k x).job.cur = 0 ∧
    (units k (jobW x) (jobH x) = 0 →
      JobEnded x (checkJob cfg k x) false 0 (BitVec.ofInt 32 (x.job.w.toInt * x.job.h.toInt))) ∧
    (units k (jobW x) (jobH x) ≠ 0 → (checkJob cfg k x).job.phase = .run ∧ (checkJob cfg k x).status = x.status ∧
      (checkJob cfg k x).outCount = x.outCount) := by
  by_cases hu : units k (jobW x) (jobH x) = 0
  · rw [h.checkJob_eq_finishOk hu]
    exact ⟨rfl, rfl, rfl, fun _ => ⟨rfl, rfl, rfl⟩, fun hn => absurd hu hn⟩
  · rw [h.checkJob_eq_run hu]
    exact ⟨rfl, rfl, rfl, fun hz => absurd hz hu, fun _ => ⟨rfl, rfl, rfl⟩⟩

end

/-- Settles O24: the branches of CHECK, in the order of R78. -/
theorem checkOutcome : Obligations.CheckOutcome := by
  intro i k s x hi hx
  refine ⟨checkJob s.cfg k x, (exec_of_instrKind hi s).trans (engineStep_check hx), checkJob_sameInputs ..,
    checkJob_dst .., fun hd => ?_, fun w h hw hh hfits => ?_⟩
  · rw [checkJob_of_badDimensions hd]
    exact ⟨raiseError_jobEnded _ x, rfl⟩
  have hjw : jobW x = w := by unfold jobW; rw [hw, Int.toNat_natCast]
  have hjh : jobH x = h := by unfold jobH; rw [hh, Int.toNat_natCast]
  have hfits' : x.job.w.toInt * x.job.h.toInt ≤ s.cfg.dstCap := by rw [hw, hh]; exact_mod_cast hfits
  rw [← hjw, ← hjh]
  refine ⟨fun hl => ?_, fun hlen hreq => ?_⟩
  · rw [checkJob_of_badLength (by simp only [badDimensions]; omega) hl]
    exact ⟨raiseError_jobEnded _ x, rfl⟩
  · have hpass : CheckPasses s.cfg k x := ⟨by omega, by omega, hfits', hlen, hreq⟩
    obtain ⟨hkind, htotal, hcur, hnone, hsome⟩ := hpass.latched
    refine ⟨hkind, htotal, hcur, fun hu => ?_, hsome⟩
    have hpixels : x.job.w.toInt * x.job.h.toInt = 0 := by
      rw [← jobPixels_cast hpass.wNonneg hpass.hNonneg]
      exact_mod_cast (units_eq_zero_iff k _ _).1 hu
    simpa [hpixels] using hnone hu

/-! ### The bounds of a running job -/

/-- Settles O28: R78's bounds, by the cursor's bound and the layout of blocks and planes. -/
theorem engineIndicesInRange : Obligations.EngineIndicesInRange := by
  intro cfg x hr
  have hcur := hr.cur
  rw [hr.total] at hcur
  have hpixel (hk : x.job.kind = .pal0 ∨ x.job.kind = .pal1 ∨ x.job.kind = .pal4 ∨ x.job.kind = .pal8) :
      x.job.cur < jobPixels x := by
    rcases hk with hk | hk | hk | hk <;> rwa [hk] at hcur
  exact ⟨hr.req, hr.len, hr.fits, fun hk => ⟨block_end_le_reqLen hk hcur, fun _ _ => blockCell_lt⟩, hpixel,
    fun hk => pal1_plane_lt_reqLen (hpixel (by simp [hk])), fun hk => pal4_plane_lt_reqLen (hpixel (by simp [hk])),
    fun hk => pal8_plane_lt_reqLen (hpixel (by simp [hk]))⟩

/-! ### An engine's turn -/

theorem fetchEngine_of_instr {s : State} {k : Nat} {x : Bcdec} {i : Instr} (hx : s.insts[k]? = some x)
    (hi : engineInstr x = some i) : fetchEngine s k = .run i { s with sel := k } := by
  unfold fetchEngine
  rw [hx]
  simp only [hi]

/-- An engine's turn runs its instruction (R9). -/
theorem step_engine_turn {s : State} {k : Nat} {ts : List Turn} {x : Bcdec} {i : Instr} (hs : stuckCode s = none)
    (ht : s.turns = .engine k :: ts) (hx : s.insts[k]? = some x) (hi : engineInstr x = some i) :
    step s = settle { s with turns := ts, sel := k } (exec i { s with turns := ts, sel := k }) := by
  refine step_of_fetch_run ?_
  calc fetch s
    _ = fetchTurn s := fetch_of_stuckCode_none hs
    _ = fetchEngine { s with turns := ts } k := by
      unfold fetchTurn
      rw [ht]
    _ = .run i { s with turns := ts, sel := k } := fetchEngine_of_instr (s := { s with turns := ts }) hx hi

theorem engineInstr_check {x : Bcdec} (h : x.job.phase = .check) : engineInstr x = some (decodeFormat x.job.fmt) := by
  unfold engineInstr
  rw [h]

theorem engineInstr_run {x : Bcdec} (h : x.job.phase = .run) :
    engineInstr x = some (kindInstr x.job.kind x.job.fmt) := by
  unfold engineInstr
  rw [h]

/-- Settles O47: the phase gives the instruction, and a running job's kind is the one its FORMAT word names. -/
theorem engineTurnRunsFormatWord : Obligations.EngineTurnRunsFormatWord := by
  intro s k ts x hs ht hx
  exact ⟨fun hp => step_engine_turn hs ht hx (engineInstr_check hp),
    fun hp => step_engine_turn hs ht hx (engineInstr_run hp), fun _ hr => (decodeFormat_of_ok hr.kind).symm⟩

end Sys2Proof.Machine
end

section
/-! What of an engine only its own steps can change: DSTMEM (R31, R83) and ERROR (R82). -/

namespace Sys2Proof.Machine

@[simp] theorem doStart_dst (x : Bcdec) : (doStart x).dst = x.dst := by
  unfold doStart
  split <;> rfl

theorem idleWrite_dst {x y : Bcdec} (h : y.dst = x.dst) : (idleWrite x y).dst = x.dst := by
  unfold idleWrite
  split
  · rfl
  · exact h

@[simp] theorem regWrite_dst (x : Bcdec) (v : Word) (r : Reg) : (regWrite x v r).dst = x.dst := by
  rcases regWrite_cases x v r with h | h | ⟨_, _, _, _, h⟩ <;> rw [h]
  · exact doStart_dst x
  · exact idleWrite_dst rfl

/-- An instruction changes no cell of DSTMEM, or is a unit. -/
theorem Effect.dst_cases {cfg : Config} {i : Instr} {x y : Bcdec} (h : Effect cfg i x y) :
    y.dst = x.dst ∨
      ∃ k z, instrKind i = some k ∧ x.job.phase = .run ∧ kindUnit k x = .ok z ∧ y.dst = z.dst := by
  cases h with
  | check => exact .inl (checkJob_dst ..)
  | raise => exact .inl rfl
  | run k z hi hp hu => exact .inr ⟨k, z, hi, hp, hu, (advance_unitDone (kindUnit_onlyDst hu)).2⟩
  | reg => exact .inl (regWrite_dst ..)
  | start => exact .inl (doStart_dst x)
  | src | pal => exact .inl (idleWrite_dst rfl)

/-- Settles O55: of all changes of an engine only a reset and a unit touch DSTMEM, and a unit keeps to its image. -/
theorem onlyRunWritesDst : Obligations.OnlyRunWritesDst := by
  intro s t k x y j h hinv hx hy hne
  rcases step_engine h hx hy with rfl | hc
  · exact absurd rfl hne
  cases hc with
  | mark m =>
    rw [addMark_eq] at hne
    exact absurd rfl hne
  | reset ts hts => exact .inl ⟨ts, hts⟩
  | effect i _ he hi =>
    rcases he.dst_cases with hdst | ⟨kd, z, hk, hp, hu, hdst⟩ <;> rw [hdst] at hne
    · exact absurd rfl hne
    have hr := (hinv.insts x (List.mem_of_getElem? hx)).running hp
    have hlt : j < jobPixels x := by
      by_contra hge
      exact hne (kindUnit_miss hu hr ((fetched_kind hi hk).2 hp) (Nat.not_lt.1 hge))
    rcases hi with ⟨w, ts, -, rfl⟩ | ⟨hturn, -⟩
    · simp [instrKind_decodeTxn] at hk
    · exact .inr ⟨hturn, hp, hlt, hlt.trans_le hr.fits⟩

/-! ### ERROR -/

theorem doStart_error {x : Bcdec} (h : x.status.error = false) : (doStart x).status.error = false := by
  unfold doStart
  split
  · exact h
  · rfl

theorem idleWrite_error {x y : Bcdec} (h : x.status.error = false) (hy : y.status = x.status) :
    (idleWrite x y).status.error = false := by
  unfold idleWrite
  split
  · exact h
  · rw [hy, h]

theorem regWrite_error {x : Bcdec} (h : x.status.error = false) (v : Word) (r : Reg) :
    (regWrite x v r).status.error = false := by
  rcases regWrite_cases x v r with hr | hr | ⟨_, _, _, _, hr⟩ <;> rw [hr]
  · exact h
  · exact doStart_error h
  · exact idleWrite_error h rfl

theorem UnitDone.error {x y : Bcdec} (hd : UnitDone x y) (h : x.status.error = false) : y.status.error = false := by
  by_cases hlast : x.job.cur + 1 = x.job.total
  · obtain ⟨-, hstatus, -⟩ := hd.last hlast
    rw [hstatus]
  · obtain ⟨-, hstatus, -⟩ := hd.more hlast
    rw [hstatus, h]

/-- CHECK leaves ERROR clear, or raises. -/
theorem checkJob_error_cases {cfg : Config} {k : JobKind} {x : Bcdec} (h : x.status.error = false) :
    (checkJob cfg k x).status.error = false ∨ ∃ e, checkJob cfg k x = raiseError e x := by
  rcases checkJob_cases cfg k x with ⟨-, hc⟩ | ⟨-, -, hc⟩ | ⟨-, -, -, hc⟩ | ⟨-, -, -, hc⟩ <;> rw [hc]
  · exact .inr ⟨_, rfl⟩
  · exact .inr ⟨_, rfl⟩
  · exact .inl rfl
  · exact .inl h

/-- An instruction leaves ERROR clear, or is a CHECK that raises (R105). -/
theorem Effect.error_cases {cfg : Config} {i : Instr} {x y : Bcdec} (he : Effect cfg i x y)
    (h : x.status.error = false) :
    y.status.error = false ∨ (x.job.phase = .check ∧ ∃ e, y = raiseError e x) := by
  cases he with
  | check k _ hp => exact (checkJob_error_cases h).imp_right fun hraise => ⟨hp, hraise⟩
  | raise e hp => exact .inr ⟨hp, e, rfl⟩
  | run _ _ _ _ hu => exact .inl ((advance_unitDone (kindUnit_onlyDst hu)).1.error h)
  | reg _ v r => exact .inl (regWrite_error h v r)
  | start => exact .inl (doStart_error h)
  | src | pal => exact .inl (idleWrite_error h rfl)

/-- Settles O56: of all changes of an engine only a CHECK that raises sets ERROR. -/
theorem failedJobWroteNothing : Obligations.FailedJobWroteNothing := by
  intro s t k x y h hx hy herr herr'
  rcases step_engine h hx hy with rfl | hc
  · simp [herr] at herr'
  cases hc with
  | mark m =>
    rw [addMark_eq] at herr'
    simp [herr] at herr'
  | reset => cases herr'
  | effect i _ he =>
    rcases he.error_cases herr with hclear | ⟨hp, e, rfl⟩
    · simp [hclear] at herr'
    · exact ⟨hp, rfl, rfl, rfl, errorCode_legal e⟩

end Sys2Proof.Machine
end

section
/-! A job decodes its image (R81, R126): CHECK and one unit a turn, each reading only written inputs (R120). -/

namespace Sys2Proof.Machine

/-! ### Units whose inputs are written -/

theorem SrcWritten.mono {x : Bcdec} {o n o' n' : Nat} (h : SrcWritten x o n) (hlo : o ≤ o') (hhi : o' + n' ≤ o + n) :
    SrcWritten x o' n' :=
  fun a ha hn => h a (hlo.trans ha) (hn.trans_le hhi)

theorem InputsWritten.of_sameInputs {k : JobKind} {x y : Bcdec} (h : InputsWritten k x) (hs : SameInputs x y) :
    InputsWritten k y where
  src := by
    unfold SrcWritten
    rw [hs.src, hs.jobW, hs.jobH]
    exact h.src
  pal := by
    rw [hs.src, hs.pal, hs.jobPixels]
    exact h.pal

theorem bcUnit_ok_of_written {bs : Nat} {d : Bcdec → Nat → Except Fault (Nat → Word)} {x : Bcdec}
    (hd : ReadsInOrder x (x.job.cur * bs) bs (d x (x.job.cur * bs))) (h : SrcWritten x (x.job.cur * bs) bs) :
    ∃ z, bcUnit bs d x = .ok z := by
  obtain ⟨t, ht⟩ := hd.written h
  exact ⟨_, by unfold bcUnit; rw [ht, ok_bind]⟩

theorem palUnit_ok_of_written {alphaAt : Bcdec → Nat → Except Fault Byte} {x : Bcdec} {ix a : Byte} {e : Word}
    (hix : Memory.read x.src x.job.cur = some ix) (ha : alphaAt x x.job.cur = .ok a)
    (he : Memory.read x.pal ix.toNat = some e) : ∃ z, palUnit alphaAt x = .ok z := by
  have htexel : palTexel alphaAt x x.job.cur = .ok (a ++ e.extractLsb' 0 24) := by
    unfold palTexel
    rw [srcRead_ok.2 hix, ok_bind, ha, ok_bind, palRead_ok.2 he, ok_bind]
  exact ⟨_, by unfold palUnit; rw [htexel, ok_bind]⟩

/-- A unit of a job whose inputs are written meets no model fault. -/
theorem InputsWritten.kindUnit_ok {k : JobKind} {x : Bcdec} (h : InputsWritten k x)
    (hcur : x.job.cur < units k (jobW x) (jobH x)) : ∃ z, kindUnit k x = .ok z := by
  have hblock (hk : k = .bc1 ∨ k = .bc2 ∨ k = .bc3) : SrcWritten x (x.job.cur * blockBytes k) (blockBytes k) :=
    h.src.mono (Nat.zero_le _) (by simpa using block_end_le_reqLen hk hcur)
  have hread {a : Nat} (ha : a < reqLen k (jobW x) (jobH x)) : ∃ b, Memory.read x.src a = some b :=
    h.src a (Nat.zero_le a) (by simpa using ha)
  have hpalette {alphaAt : Bcdec → Nat → Except Fault Byte} (hk : k = .pal0 ∨ k = .pal1 ∨ k = .pal4 ∨ k = .pal8)
      (hi : x.job.cur < jobPixels x) (ha : ∃ a, alphaAt x x.job.cur = .ok a) : ∃ z, palUnit alphaAt x = .ok z := by
    obtain ⟨ix, hix⟩ := hread (index_lt_reqLen hi hk)
    obtain ⟨e, he⟩ := h.pal hk _ ix hi hix
    obtain ⟨a, ha⟩ := ha
    exact palUnit_ok_of_written hix ha he
  cases k
  case bc1 => exact bcUnit_ok_of_written (decodeBc1_readsInOrder x _) (hblock (by simp))
  case bc2 => exact bcUnit_ok_of_written (decodeBc2_readsInOrder x _) (hblock (by simp))
  case bc3 => exact bcUnit_ok_of_written (decodeBc3_readsInOrder x _) (hblock (by simp))
  case pal0 => exact hpalette (by simp) hcur ⟨_, rfl⟩
  case pal1 =>
    obtain ⟨b, hb⟩ := hread (a := jobPixels x + x.job.cur / 8) (pal1_plane_lt_reqLen hcur)
    exact hpalette (by simp) hcur ⟨_, by unfold alphaPal1; rw [srcRead_ok.2 hb, ok_bind]⟩
  case pal4 =>
    obtain ⟨b, hb⟩ := hread (a := jobPixels x + x.job.cur / 2) (pal4_plane_lt_reqLen hcur)
    exact hpalette (by simp) hcur ⟨_, by unfold alphaPal4; rw [srcRead_ok.2 hb, ok_bind]⟩
  case pal8 =>
    obtain ⟨b, hb⟩ := hread (a := jobPixels x + x.job.cur) (pal8_plane_lt_reqLen hcur)
    exact hpalette (by simp) hcur ⟨b, srcRead_ok.2 hb⟩

/-! ### How far a job is from its end -/

/-- A job of kind `kd` has this many units left: none once it has ended well with its image decoded, and in RUN those
from the cursor on, the cells of the others decoded. -/
inductive UnitsLeft (kd : JobKind) (x : Bcdec) : Nat → Prop where
  | finished (kind : x.job.kind = kd) (phase : x.job.phase = .idle)
      (status : x.status = { busy := false, done := true, error := false, wbusy := x.status.wbusy, errcode := 0 })
      (outCount : x.outCount.toNat = jobPixels x) (image : DecodedBelow x (units kd (jobW x) (jobH x))) :
      UnitsLeft kd x 0
  | running {n : Nat} (kind : x.job.kind = kd) (phase : x.job.phase = .run) (cur : x.job.cur + (n + 1) = x.job.total)
      (image : DecodedBelow x x.job.cur) : UnitsLeft kd x (n + 1)

theorem UnitsLeft.inRun {kd : JobKind} {x : Bcdec} {n : Nat} (h : UnitsLeft kd x (n + 1)) :
    x.job.kind = kd ∧ x.job.phase = .run ∧ x.job.cur + (n + 1) = x.job.total ∧ DecodedBelow x x.job.cur := by
  cases h with
  | running hkind hphase hcur himage => exact ⟨hkind, hphase, hcur, himage⟩

theorem decodedBelow_zero (x : Bcdec) : DecodedBelow x 0 := fun _ _ h => absurd h (Nat.not_lt_zero _)

/-- The OUT_COUNT of a job that ends well is its number of pixels, without wrapping (R4, R80). -/
theorem outCount_toNat {cfg : Config} {x : Bcdec} (hcfg : cfg.Valid) (hw : 0 ≤ x.job.w.toInt) (hh : 0 ≤ x.job.h.toInt)
    (hf : jobPixels x ≤ cfg.dstCap) : (BitVec.ofInt 32 (x.job.w.toInt * x.job.h.toInt)).toNat = jobPixels x := by
  have hhigh := hcfg.dstHigh
  rw [← jobPixels_cast hw hh, BitVec.ofInt_natCast, BitVec.toNat_ofNat]
  exact Nat.mod_eq_of_lt (by omega)

/-- A job that passes CHECK has all its units left. -/
theorem CheckPasses.unitsLeft {cfg : Config} {kd : JobKind} {x : Bcdec} (hcfg : cfg.Valid) (h : CheckPasses cfg kd x) :
    UnitsLeft kd (checkJob cfg kd x) (units kd (jobW x) (jobH x)) := by
  obtain ⟨hkind, htotal, hcur, hnone, hsome⟩ := h.latched
  have hs := checkJob_sameInputs cfg kd x
  cases hu : units kd (jobW x) (jobH x) with
  | zero =>
    obtain ⟨hphase, hstatus, hout⟩ := hnone hu
    refine .finished hkind hphase (by rw [hstatus]) ?_ ?_
    · rw [hout, hs.jobPixels, outCount_toNat hcfg h.wNonneg h.hNonneg h.jobPixels_le]
    · rw [hs.jobW, hs.jobH, hu]
      exact decodedBelow_zero _
  | succ n =>
    obtain ⟨hphase, -, -⟩ := hsome (by simp [hu])
    refine .running hkind hphase ?_ ?_
    · rw [hcur, htotal, hu, Nat.zero_add]
    · rw [hcur]
      exact decodedBelow_zero _

/-- A unit leaves one unit less (R79). -/
theorem UnitsLeft.advance {cfg : Config} {kd : JobKind} {x z : Bcdec} {n : Nat} (h : UnitsLeft kd x (n + 1))
    (hcfg : cfg.Valid) (hr : Running cfg x) (hu : kindUnit kd x = .ok z) : UnitsLeft kd (advance z) n := by
  obtain ⟨hkind, hphase, hcur, himage⟩ := h.inRun
  subst hkind
  have hdone := (advance_unitDone (kindUnit_onlyDst hu)).1
  have himage := himage.advance hu
  cases n with
  | zero =>
    obtain ⟨hphase, hstatus, hout⟩ := hdone.last hcur
    refine .finished hdone.kind hphase (by rw [hstatus]) ?_ ?_
    · rw [hout, hdone.inputs.jobPixels, outCount_toNat hcfg hr.wNonneg hr.hNonneg hr.fits]
    · rw [hdone.inputs.jobW, hdone.inputs.jobH, ← hr.total, ← hcur]
      exact himage
  | succ n =>
    obtain ⟨hphase', -, -⟩ := hdone.more (by omega)
    exact .running hdone.kind (hphase'.trans hphase) (by rw [hdone.cur, hdone.total]; omega) (by rwa [hdone.cur])

/-! ### What the steps of a job leave alone -/

theorem SameInputs.trans {x y z : Bcdec} (h : SameInputs x y) (g : SameInputs y z) : SameInputs x z where
  format := g.format.trans h.format
  width := g.width.trans h.width
  height := g.height.trans h.height
  srcLen := g.srcLen.trans h.srcLen
  src := g.src.trans h.src
  pal := g.pal.trans h.pal
  faults := g.faults.trans h.faults
  fmt := g.fmt.trans h.fmt
  w := g.w.trans h.w
  h := g.h.trans h.h
  len := g.len.trans h.len

/-- From `s` to `t` engine `k` went from `x` to `y` with its inputs, WBUSY and the cells outside its image as they were,
and so did every other engine. -/
structure JobFrame (k : Nat) (s t : State) (x y : Bcdec) : Prop where
  engine : t.insts[k]? = some y
  inputs : SameInputs x y
  wbusy : y.status.wbusy = x.status.wbusy
  outside : ∀ j, jobPixels x ≤ j → Memory.read y.dst j = Memory.read x.dst j
  others : ∀ i, i ≠ k → t.insts[i]? = s.insts[i]?

theorem JobFrame.refl {k : Nat} {s : State} {x : Bcdec} (hx : s.insts[k]? = some x) : JobFrame k s s x x :=
  ⟨hx, .refl x, rfl, fun _ _ => rfl, fun _ _ => rfl⟩

theorem JobFrame.trans {k : Nat} {s t u : State} {x y z : Bcdec} (h : JobFrame k s t x y) (g : JobFrame k t u y z) :
    JobFrame k s u x z where
  engine := g.engine
  inputs := h.inputs.trans g.inputs
  wbusy := g.wbusy.trans h.wbusy
  outside j hj := (g.outside j (h.inputs.jobPixels ▸ hj)).trans (h.outside j hj)
  others i hi := (g.others i hi).trans (h.others i hi)

theorem UnitDone.wbusy {x y : Bcdec} (h : UnitDone x y) : y.status.wbusy = x.status.wbusy := by
  by_cases hlast : x.job.cur + 1 = x.job.total
  · obtain ⟨-, hstatus, -⟩ := h.last hlast
    rw [hstatus]
  · obtain ⟨-, hstatus, -⟩ := h.more hlast
    rw [hstatus]

theorem checkJob_wbusy (cfg : Config) (k : JobKind) (x : Bcdec) :
    (checkJob cfg k x).status.wbusy = x.status.wbusy := by
  rcases checkJob_cases cfg k x with ⟨-, h⟩ | ⟨-, -, h⟩ | ⟨-, -, -, h⟩ | ⟨-, -, -, h⟩ <;> rw [h] <;> rfl

/-! ### A job's turns -/

/-- The engine put by a turn is framed as far as its own fields are. -/
theorem jobFrame_putSel {s : State} {k : Nat} {ts : List Turn} {x y : Bcdec} (hx : s.insts[k]? = some x)
    (hs : SameInputs x y) (hwbusy : y.status.wbusy = x.status.wbusy)
    (hdst : ∀ j, jobPixels x ≤ j → Memory.read y.dst j = Memory.read x.dst j) :
    JobFrame k s (putSel (turnState s k ts) y) x y :=
  ⟨putSel_selected (s := turnState s k ts) hx y, hs, hwbusy, hdst, fun _ => putSel_other (turnState s k ts) y⟩

section
variable {s : State} {k : Nat} {ts : List Turn} {x : Bcdec} (hinv : s.Inv) (ht : s.turns = .engine k :: ts)
  (hx : s.insts[k]? = some x)
include hinv ht hx

/-- An engine's turn whose instruction puts an engine in its place. -/
theorem step_engine_turn_next {i : Instr} {y : Bcdec} (hi : engineInstr x = some i)
    (he : exec i (turnState s k ts) = .next (putSel (turnState s k ts) y)) :
    step s = .next (putSel (turnState s k ts) y) := by
  have hs : stuckCode s = none := stuckCode_none fun z hz => legal_not_reserved (hinv.insts z hz).status
  refine (step_engine_turn hs ht hx hi).trans ?_
  show settle (turnState s k ts) (exec i (turnState s k ts)) = _
  rw [he]
  rfl

theorem step_check_turn {kd : JobKind} (hp : x.job.phase = .check) (hk : kindOf x.job.fmt = .ok kd) :
    step s = .next (putSel (turnState s k ts) (checkJob s.cfg kd x)) :=
  step_engine_turn_next hinv ht hx (engineInstr_check hp)
    ((exec_decodeFormat_of_ok hk _).trans (engineStep_check ⟨hx, hp⟩))

theorem step_unit_turn {z : Bcdec} (hp : x.job.phase = .run) (hu : kindUnit x.job.kind x = .ok z) :
    step s = .next (putSel (turnState s k ts) (advance z)) :=
  step_engine_turn_next hinv ht hx (engineInstr_run hp)
    ((exec_kindInstr _ _ _).trans (engineStep_run ⟨hx, hp⟩ hu))

end

/-- In the first `n` states of the run from `s` engine `k` has a job. -/
def BusyBefore (s : State) (k n : Nat) : Prop :=
  ∀ m, m < n → ∃ (u : State) (z : Bcdec), Host.Core.run Sys2Proof.core m s = .next u ∧ u.insts[k]? = some z ∧
    z.job.phase ≠ .idle

theorem BusyBefore.succ {s t : State} {k n : Nat} {x : Bcdec} (hx : s.insts[k]? = some x) (hp : x.job.phase ≠ .idle)
    (hstep : step s = .next t) (h : BusyBefore t k n) : BusyBefore s k (n + 1) := by
  intro m hm
  cases m with
  | zero => exact ⟨s, x, rfl, hx, hp⟩
  | succ m =>
    rw [run_succ hstep]
    exact h m (Nat.lt_of_succ_lt_succ hm)

/-- As many turns as a job has units left end it, and no fewer. -/
theorem run_units_left {kd : JobKind} {k : Nat} {rest : List Turn} {n : Nat} {s : State} {x : Bcdec} (hinv : s.Inv)
    (hx : s.insts[k]? = some x) (hleft : UnitsLeft kd x n) (hin : InputsWritten kd x)
    (ht : s.turns = List.replicate n (.engine k) ++ rest) :
    ∃ t y, Host.Core.run Sys2Proof.core n s = .next t ∧ t.turns = rest ∧ JobFrame k s t x y ∧ UnitsLeft kd y 0 ∧
      BusyBefore s k n := by
  induction n generalizing s x with
  | zero => exact ⟨s, x, rfl, ht, .refl hx, hleft, fun _ h => absurd h (Nat.not_lt_zero _)⟩
  | succ n ih =>
    obtain ⟨hkind, hp, -, -⟩ := hleft.inRun
    have hr := (hinv.insts x (List.mem_of_getElem? hx)).running hp
    obtain ⟨z, hu⟩ := hin.kindUnit_ok (hkind ▸ hr.total ▸ hr.cur)
    have hstep := step_unit_turn hinv ht hx hp (hkind ▸ hu)
    obtain ⟨hdone, hdst⟩ := advance_unitDone (kindUnit_onlyDst hu)
    have hframe := jobFrame_putSel (ts := List.replicate n (.engine k) ++ rest) hx hdone.inputs hdone.wbusy
      (hdst ▸ fun j => kindUnit_miss hu hr hkind)
    obtain ⟨t, y, hrun, hturns, hframe', hend, hbusy⟩ := ih (stepKeepsInvariant s _ hinv hstep) hframe.engine
      (hleft.advance hinv.cfg hr hu) (hin.of_sameInputs hdone.inputs) rfl
    exact ⟨t, y, (run_succ hstep).trans hrun, hturns, hframe.trans hframe', hend, .succ hx (by simp [hp]) hstep hbusy⟩

/-- Settles O57: CHECK leaves all units to do, and as many turns do them. -/
theorem jobDecodesImage : Obligations.JobDecodesImage := by
  intro s k kd x rest hinv hx hp hkind hpass hin ht
  rw [Nat.add_comm 1] at ht ⊢
  have hstep := step_check_turn hinv ht hx hp hkind
  have hs := checkJob_sameInputs s.cfg kd x
  have hframe := jobFrame_putSel (ts := List.replicate (units kd (jobW x) (jobH x)) (.engine k) ++ rest) hx hs
    (checkJob_wbusy ..) fun j _ => by rw [checkJob_dst]
  obtain ⟨t, y, hrun, hturns, hframe', hend, hbusy⟩ := run_units_left (stepKeepsInvariant s _ hinv hstep) hframe.engine
    (hpass.unitsLeft hinv.cfg) (hin.of_sameInputs hs) rfl
  obtain ⟨hengine, hinputs, hwbusy, houtside, hothers⟩ := hframe.trans hframe'
  obtain ⟨rfl, hphase, hstatus, hout, himage⟩ := hend
  refine ⟨t, y, (run_succ hstep).trans hrun, hturns, hengine, hinputs, hphase, hstatus.trans (by rw [hwbusy]),
    hout.trans hinputs.jobPixels, fun j hj => ?_, houtside, hothers, BusyBefore.succ hx (by simp [hp]) hstep hbusy⟩
  rw [← hinputs.imageTexel]
  exact himage.all (hinputs.jobPixels ▸ hj)

end Sys2Proof.Machine
end

section
/-! The palette units (R86 to R90): the alpha each kind reads, the texel of a pixel, and the model faults met on the way. -/

namespace Sys2Proof.Machine

/-! ### The alpha of a pixel, in numbers -/

theorem planeBit_toNat (b : Byte) (i : Nat) : (planeBit b i).toNat = b.toNat / 2 ^ (i % 8) % 2 := by
  rw [planeBit, BitVec.extractLsb'_toNat, Nat.shiftRight_eq_div_pow, pow_one]

theorem planeNibble_toNat (b : Byte) (i : Nat) : (planeNibble b i).toNat = b.toNat / 16 ^ (i % 2) % 16 := by
  rw [planeNibble, BitVec.extractLsb'_toNat, Nat.shiftRight_eq_div_pow, pow_mul]
  norm_num

theorem romAlpha1_eq (v : BitVec 1) : romAlpha1 v = if v.toNat = 1 then 0xFF#8 else 0x00#8 := by
  obtain rfl | rfl := BitVec.eq_zero_or_eq_one v <;> rfl

/-! ### The alpha each kind reads -/

section
variable {x : Bcdec} {i : Nat}

section
variable {b : Byte}

theorem alphaPal1_of_read (h : Memory.read x.src (jobPixels x + i / 8) = some b) :
    alphaPal1 x i = .ok (if b.toNat / 2 ^ (i % 8) % 2 = 1 then 0xFF#8 else 0x00#8) := by
  rw [alphaPal1, srcRead_ok.2 h, ok_bind, romAlpha1_eq, planeBit_toNat]

theorem alphaPal4_of_read (h : Memory.read x.src (jobPixels x + i / 2) = some b) :
    alphaPal4 x i = .ok (BitVec.ofNat 8 (17 * (b.toNat / 16 ^ (i % 2) % 16))) := by
  rw [alphaPal4, srcRead_ok.2 h, ok_bind, romAlpha4, planeNibble_toNat]

theorem alphaPal8_of_read (h : Memory.read x.src (jobPixels x + i) = some b) : alphaPal8 x i = .ok b :=
  srcRead_ok.2 h

end

theorem alphaPal1_unwritten (h : Memory.read x.src (jobPixels x + i / 8) = none) :
    alphaPal1 x i = .error (.unwrittenSrc (jobPixels x + i / 8)) := by
  rw [alphaPal1, srcRead_error.2 ⟨h, rfl⟩, error_bind]

theorem alphaPal4_unwritten (h : Memory.read x.src (jobPixels x + i / 2) = none) :
    alphaPal4 x i = .error (.unwrittenSrc (jobPixels x + i / 2)) := by
  rw [alphaPal4, srcRead_error.2 ⟨h, rfl⟩, error_bind]

theorem alphaPal8_unwritten (h : Memory.read x.src (jobPixels x + i) = none) :
    alphaPal8 x i = .error (.unwrittenSrc (jobPixels x + i)) :=
  srcRead_error.2 ⟨h, rfl⟩

end

/-! ### The texel of a pixel -/

section
variable {alphaAt : Bcdec → Nat → Except Fault Byte} {x : Bcdec} {i : Nat} {ix a : Byte}

theorem palTexel_of_read {e : Word} (hix : Memory.read x.src i = some ix) (ha : alphaAt x i = .ok a)
    (he : Memory.read x.pal ix.toNat = some e) : palTexel alphaAt x i = .ok (a ++ e.extractLsb' 0 24) := by
  rw [palTexel, srcRead_ok.2 hix, ok_bind, ha, ok_bind, palRead_ok.2 he, ok_bind]

theorem palTexel_index_unwritten (hix : Memory.read x.src i = none) :
    palTexel alphaAt x i = .error (.unwrittenSrc i) := by
  rw [palTexel, srcRead_error.2 ⟨hix, rfl⟩, error_bind]

theorem palTexel_alpha_error {f : Fault} (hix : Memory.read x.src i = some ix) (ha : alphaAt x i = .error f) :
    palTexel alphaAt x i = .error f := by
  rw [palTexel, srcRead_ok.2 hix, ok_bind, ha, error_bind]

theorem palTexel_entry_unwritten (hix : Memory.read x.src i = some ix) (ha : alphaAt x i = .ok a)
    (he : Memory.read x.pal ix.toNat = none) : palTexel alphaAt x i = .error (.unwrittenPal ix.toNat) := by
  rw [palTexel, srcRead_ok.2 hix, ok_bind, ha, ok_bind, palRead_error.2 ⟨he, rfl⟩, error_bind]

end

/-! ### A step of a palette job in RUN -/

section
variable {k : JobKind} {alphaAt : Bcdec → Nat → Except Fault Byte} {s : State} {x : Bcdec} (hrun : InRun s x)
include hrun

/-- The unit writes its texel to the pixel's cell alone, and ends as R79 says. -/
theorem engineStep_palUnit {v : Word} (hv : palTexel alphaAt x x.job.cur = .ok v) :
    ∃ y, engineStep k (palUnit alphaAt) s = .next (putSel s y) ∧ UnitDone x y ∧
      Memory.read y.dst x.job.cur = some v ∧
      ∀ j, j ≠ x.job.cur → Memory.read y.dst j = Memory.read x.dst j := by
  have hunit : palUnit alphaAt x = .ok (dstWrite x x.job.cur v) := by rw [palUnit, hv, ok_bind]
  obtain ⟨hdone, hdst⟩ := advance_unitDone (palUnit_onlyDst hunit)
  rw [dstWrite_dst] at hdst
  refine ⟨_, engineStep_run hrun hunit, hdone, ?_, fun j hj => ?_⟩ <;> rw [hdst]
  · exact Memory.read_write_same _ _ v
  · exact Memory.read_write_other _ v hj

theorem engineStep_palUnit_fault {f : Fault} (hf : palTexel alphaAt x x.job.cur = .error f) :
    engineStep k (palUnit alphaAt) s = .fault f :=
  engineStep_fault hrun (by rw [palUnit, hf, error_bind])

end

/-- `n` of R61, from a job's dimensions as numbers. -/
theorem jobPixels_of_dimensions {x : Bcdec} {w h : Nat} (hw : x.job.w.toInt = w) (hh : x.job.h.toInt = h) :
    jobPixels x = w * h := by
  rw [jobPixels, jobW, jobH, hw, hh, Int.toNat_natCast, Int.toNat_natCast]

/-! ### The obligations -/

/-- Settles O29: PAL0's alpha is opaque whatever is written. -/
theorem pal0DecodesPixel : Obligations.Pal0DecodesPixel := by
  intro s x comp acomp mips ix e hrun hix he
  exact engineStep_palUnit hrun (palTexel_of_read hix (alphaAt := alphaPal0) rfl he)

/-- Settles O30: PAL1's alpha is the ALPHA1 entry of the pixel's bit. -/
theorem pal1DecodesPixel : Obligations.Pal1DecodesPixel := by
  intro s x comp acomp mips ix b e w h hrun hw hh hix hb he
  rw [← jobPixels_of_dimensions hw hh] at hb
  exact engineStep_palUnit hrun (palTexel_of_read hix (alphaPal1_of_read hb) he)

/-- Settles O31: PAL4's alpha is the ALPHA4 entry of the pixel's nibble. -/
theorem pal4DecodesPixel : Obligations.Pal4DecodesPixel := by
  intro s x comp acomp mips ix b e w h hrun hw hh hix hb he
  rw [← jobPixels_of_dimensions hw hh] at hb
  exact engineStep_palUnit hrun (palTexel_of_read hix (alphaPal4_of_read hb) he)

/-- Settles O32: PAL8's alpha is the plane byte itself. -/
theorem pal8DecodesPixel : Obligations.Pal8DecodesPixel := by
  intro s x comp acomp mips ix b e w h hrun hw hh hix hb he
  rw [← jobPixels_of_dimensions hw hh] at hb
  exact engineStep_palUnit hrun (palTexel_of_read hix (alphaPal8_of_read hb) he)

/-- Settles O41: the index byte is read first, then the alpha, then the entry, and the first unwritten one is the fault. -/
theorem paletteUnitFaults : Obligations.PaletteUnitFaults := by
  intro s x comp acomp mips hrun
  refine ⟨fun hix => ?_, fun ix hix => ⟨fun h => ?_, fun h => ?_, fun h => ?_, fun he =>
    ⟨?_, fun b hb => ?_, fun b hb => ?_, fun b hb => ?_⟩⟩⟩
  · have hindex {k : JobKind} {alphaAt : Bcdec → Nat → Except Fault Byte} :
        engineStep k (palUnit alphaAt) s = .fault (.unwrittenSrc x.job.cur) :=
      engineStep_palUnit_fault hrun (palTexel_index_unwritten hix)
    exact ⟨hindex, hindex, hindex, hindex⟩
  · exact engineStep_palUnit_fault hrun (palTexel_alpha_error hix (alphaPal1_unwritten h))
  · exact engineStep_palUnit_fault hrun (palTexel_alpha_error hix (alphaPal4_unwritten h))
  · exact engineStep_palUnit_fault hrun (palTexel_alpha_error hix (alphaPal8_unwritten h))
  · exact engineStep_palUnit_fault hrun (palTexel_entry_unwritten hix (alphaAt := alphaPal0) rfl he)
  · exact engineStep_palUnit_fault hrun (palTexel_entry_unwritten hix (alphaPal1_of_read hb) he)
  · exact engineStep_palUnit_fault hrun (palTexel_entry_unwritten hix (alphaPal4_of_read hb) he)
  · exact engineStep_palUnit_fault hrun (palTexel_entry_unwritten hix (alphaPal8_of_read hb) he)

end Sys2Proof.Machine
end

section
/-! The colour half of a block (R92 to R96): the expansion of an endpoint in numbers, the colour table of each mode, and
the bytes of a texel word. -/

namespace Sys2Proof.Machine

/-! ### The expansion of an endpoint (R92) -/

theorem endpointF0_toNat (c : BitVec 16) : (endpointF0 c).toNat = c.toNat % 32 := by
  rw [endpointF0, BitVec.extractLsb'_toNat, Nat.shiftRight_zero]

theorem endpointF1_toNat (c : BitVec 16) : (endpointF1 c).toNat = c.toNat / 32 % 64 := by
  rw [endpointF1, BitVec.extractLsb'_toNat, Nat.shiftRight_eq_div_pow]

/-- F2 is the endpoint's top field, so nothing is left above it to cut off. -/
theorem endpointF2_toNat (c : BitVec 16) : (endpointF2 c).toNat = c.toNat / 2048 := by
  have hfield : c.toNat / 2048 < 32 := by omega
  rw [endpointF2, BitVec.extractLsb'_toNat, Nat.shiftRight_eq_div_pow, Nat.mod_eq_of_lt hfield]

/-- Bit replication is a sum: the copy of the high bits fits below the shifted field, and R92's mask takes nothing away. -/
theorem replicatedByte_toNat {v k j : Nat} (hlow : v / 2 ^ j < 2 ^ k) (hsum : 2 ^ k * v + v / 2 ^ j < 2 ^ 8) :
    (BitVec.ofNat 8 (((v <<< k) ||| (v >>> j)) &&& 0xFF)).toNat = 2 ^ k * v + v / 2 ^ j := by
  have hor : (v <<< k) ||| (v >>> j) = 2 ^ k * v + v / 2 ^ j := by
    rw [Nat.shiftRight_eq_div_pow, ← Nat.shiftLeft_add_eq_or_of_lt hlow, Nat.shiftLeft_eq, Nat.mul_comm]
  have hmask : (2 ^ k * v + v / 2 ^ j) &&& 0xFF = 2 ^ k * v + v / 2 ^ j := Nat.and_two_pow_sub_one_of_lt_two_pow hsum
  rw [hor, hmask, BitVec.toNat_ofNat, Nat.mod_eq_of_lt hsum]

theorem expand5_toNat (v : BitVec 5) : (expand5 v).toNat = 8 * v.toNat + v.toNat / 4 :=
  replicatedByte_toNat (k := 3) (j := 2) (by omega) (by omega)

theorem expand6_toNat (v : BitVec 6) : (expand6 v).toNat = 4 * v.toNat + v.toNat / 16 :=
  replicatedByte_toNat (k := 2) (j := 4) (by omega) (by omega)

theorem expand_x0_toNat (c : BitVec 16) : (expand c).x0.toNat = 8 * (c.toNat % 32) + c.toNat % 32 / 4 := by
  rw [expand, expand5_toNat, endpointF0_toNat]

theorem expand_x1_toNat (c : BitVec 16) :
    (expand c).x1.toNat = 4 * (c.toNat / 32 % 64) + c.toNat / 32 % 64 / 16 := by
  rw [expand, expand6_toNat, endpointF1_toNat]

theorem expand_x2_toNat (c : BitVec 16) : (expand c).x2.toNat = 8 * (c.toNat / 2048) + c.toNat / 2048 / 4 := by
  rw [expand, expand5_toNat, endpointF2_toNat]

/-! ### The colour table (R93 to R96) -/

theorem twoThirds_toNat (a b : Byte) : (twoThirds a b).toNat = (2 * a.toNat + b.toNat) / 3 := by
  rw [twoThirds, BitVec.toNat_ofNat, Nat.mod_eq_of_lt (by omega)]

theorem half_toNat (a b : Byte) : (half a b).toNat = (a.toNat + b.toNat) / 2 := by
  rw [half, BitVec.toNat_ofNat, Nat.mod_eq_of_lt (by omega)]

theorem half_self (a : Byte) : half a a = a :=
  BitVec.eq_of_toNat_eq (by rw [half_toNat]; omega)

theorem mixColour_half_self (c : Colour) : mixColour half c c = c := by
  simp only [mixColour, half_self]

/-- A mix of two colours is taken in each component. -/
theorem component_mixColour {f : Colour → Byte} (hf : f = Colour.x0 ∨ f = Colour.x1 ∨ f = Colour.x2)
    (g : Byte → Byte → Byte) (a b : Colour) : f (mixColour g a b) = g (f a) (f b) := by
  obtain rfl | rfl | rfl := hf <;> rfl

theorem colourTable_of_gt {c1 c2 : BitVec 16} (h : c2.toNat < c1.toNat) :
    colourTable c1 c2 =
      { p0 := expand c1, p1 := expand c2
        p2 := mixColour twoThirds (expand c1) (expand c2)
        p3 := mixColour twoThirds (expand c2) (expand c1) } :=
  if_pos (decide_eq_true h)

theorem colourTable_of_le {c1 c2 : BitVec 16} (h : c1.toNat ≤ c2.toNat) :
    colourTable c1 c2 =
      { p0 := expand c1, p1 := expand c2, p2 := mixColour half (expand c1) (expand c2), p3 := black } :=
  if_neg (by simpa [fourColour] using h)

/-! ### The texel word (R64) -/

theorem texelWord_bytes (a : Byte) (c : Colour) :
    (texelWord a c).extractLsb' 24 8 = a ∧ (texelWord a c).extractLsb' 16 8 = c.x2 ∧
      (texelWord a c).extractLsb' 8 8 = c.x1 ∧ (texelWord a c).extractLsb' 0 8 = c.x0 := by
  unfold texelWord
  refine ⟨?_, ?_, ?_, BitVec.extractLsb'_append_eq_right⟩
  · rw [BitVec.extractLsb'_append_eq_of_le (by decide), BitVec.extractLsb'_append_eq_of_le (by decide)]
    exact BitVec.extractLsb'_append_eq_left
  · rw [BitVec.extractLsb'_append_eq_of_le (by decide), BitVec.extractLsb'_append_eq_of_le (by decide)]
    exact BitVec.extractLsb'_append_eq_right
  · rw [BitVec.extractLsb'_append_eq_of_le (by decide)]
    exact BitVec.extractLsb'_append_eq_right

theorem texelWord_opaque_black : texelWord 0xFF black = 0xFF000000 := rfl

/-! ### The obligations -/

/-- Settles O36: each byte is `k * v + v div m` of its field's value `v`, and that sum grows with `v`. -/
theorem expandReplicatesBits : Obligations.ExpandReplicatesBits := by
  refine ⟨fun c => ⟨expand_x0_toNat c, expand_x1_toNat c, expand_x2_toNat c⟩, fun c d h => ?_, fun c d h => ?_,
    fun c d h => ?_⟩
  · rw [expand_x0_toNat, expand_x0_toNat]
    omega
  · rw [expand_x1_toNat, expand_x1_toNat]
    omega
  · rw [expand_x2_toNat, expand_x2_toNat]
    omega

/-- Settles O37: the two numerators sum to `3 * (E1 + E2)`, so the two truncations together lose 0 or 1. -/
theorem fourColourTable : Obligations.FourColourTable := by
  intro c1 c2 h
  rw [colourTable_of_gt h]
  refine ⟨rfl, rfl, fun f hf => ?_, rfl, rfl, texelWord_bytes⟩
  have hc3 : (f (mixColour twoThirds (expand c1) (expand c2))).toNat =
      (2 * (f (expand c1)).toNat + (f (expand c2)).toNat) / 3 := by
    rw [component_mixColour hf, twoThirds_toNat]
  have hc4 : (f (mixColour twoThirds (expand c2) (expand c1))).toNat =
      ((f (expand c1)).toNat + 2 * (f (expand c2)).toNat) / 3 := by
    rw [component_mixColour hf, twoThirds_toNat, Nat.add_comm]
  refine ⟨hc3, hc4, ?_, ?_, hc3, hc4⟩ <;> rw [hc3, hc4] <;> omega

/-- Settles O38: the fourth entry is black whatever the endpoints are, and equal endpoints are their own half. -/
theorem threeColourTable : Obligations.ThreeColourTable := by
  intro c1 c2 h
  rw [colourTable_of_le h]
  have hc3 {f : Colour → Byte} (hf : f = Colour.x0 ∨ f = Colour.x1 ∨ f = Colour.x2) :
      (f (mixColour half (expand c1) (expand c2))).toNat = ((f (expand c1)).toNat + (f (expand c2)).toNat) / 2 := by
    rw [component_mixColour hf, half_toNat]
  refine ⟨rfl, rfl, rfl, fun f hf => hc3 hf, fun heq => ?_, texelWord_opaque_black, rfl, rfl, fun f hf => hc3 hf, rfl,
    texelWord_bytes⟩
  rw [← heq, mixColour_half_self]

end Sys2Proof.Machine
end

section
/-! The scratch of a block unit (R28) in numbers: the bit fields of its words and the bytes they are read from
(R6, R55, R58, R60, R91). -/

namespace Sys2Proof.Machine

/-! ### Bit fields by index -/

/-- The field of `k` bits with index `p`, by division. -/
theorem extractLsb'_mul_eq_ofNat {n : Nat} (v : BitVec n) (k p : Nat) :
    v.extractLsb' (k * p) k = BitVec.ofNat k (v.toNat / (2 ^ k) ^ p) := by
  rw [BitVec.extractLsb', Nat.shiftRight_eq_div_pow, pow_mul]

theorem colorIndex_eq_ofNat (idx : BitVec 32) (p : Nat) : colorIndex idx p = BitVec.ofNat 2 (idx.toNat / 4 ^ p) :=
  extractLsb'_mul_eq_ofNat idx 2 p

theorem alphaIndex_eq_ofNat (i48 : BitVec 48) (p : Nat) : alphaIndex i48 p = BitVec.ofNat 3 (i48.toNat / 8 ^ p) :=
  extractLsb'_mul_eq_ofNat i48 3 p

theorem alphaNibble_eq_ofNat (a64 : BitVec 64) (p : Nat) : alphaNibble a64 p = BitVec.ofNat 4 (a64.toNat / 16 ^ p) :=
  extractLsb'_mul_eq_ofNat a64 4 p

/-! ### Little-endian words -/

/-- The lowest byte of a little-endian number is the lowest byte of its word (R6). -/
theorem ofNat_leNat_cons (n : Nat) (b : Byte) (bs : List Byte) :
    BitVec.ofNat (n + 8) (leNat (b :: bs)) = BitVec.ofNat n (leNat bs) ++ b := by
  have hlow : (b.toNat + 256 * leNat bs) % 2 ^ 8 = b.toNat := by omega
  have hhigh : (b.toNat + 256 * leNat bs) / 2 ^ 8 = leNat bs := by omega
  apply BitVec.eq_of_toNat_eq
  rw [BitVec.toNat_append, ← Nat.shiftLeft_add_eq_or_of_lt b.isLt, Nat.shiftLeft_eq, BitVec.toNat_ofNat,
    BitVec.toNat_ofNat, leNat, pow_add, Nat.mul_comm (2 ^ n), Nat.mod_mul, hlow, hhigh]
  omega

theorem ofNat_leNat_singleton (b : Byte) : BitVec.ofNat 8 (leNat [b]) = b :=
  BitVec.ofNat_toNat ..

section
variable (b0 b1 b2 b3 b4 b5 b6 b7 : Byte)

theorem ofNat_leNat_two : BitVec.ofNat 16 (leNat [b0, b1]) = b1 ++ b0 := by
  rw [ofNat_leNat_cons 8, ofNat_leNat_singleton]

theorem ofNat_leNat_four : BitVec.ofNat 32 (leNat [b0, b1, b2, b3]) = (b3 ++ b2 ++ b1 ++ b0 : BitVec 32) := by
  rw [ofNat_leNat_cons 24, ofNat_leNat_cons 16, ofNat_leNat_two]

theorem ofNat_leNat_six :
    BitVec.ofNat 48 (leNat [b0, b1, b2, b3, b4, b5]) = (b5 ++ b4 ++ b3 ++ b2 ++ b1 ++ b0 : BitVec 48) := by
  rw [ofNat_leNat_cons 40, ofNat_leNat_cons 32, ofNat_leNat_four]

theorem ofNat_leNat_eight : BitVec.ofNat 64 (leNat [b0, b1, b2, b3, b4, b5, b6, b7]) =
    (b7 ++ b6 ++ b5 ++ b4 ++ b3 ++ b2 ++ b1 ++ b0 : BitVec 64) := by
  rw [ofNat_leNat_cons 56, ofNat_leNat_cons 48, ofNat_leNat_six]

end

/-! ### The bytes of a block -/

theorem SrcHolds.of_append {x : Bcdec} {o : Nat} (as : List Byte) {bs : List Byte} (h : SrcHolds x o (as ++ bs)) :
    SrcHolds x o as ∧ SrcHolds x (o + as.length) bs := by
  refine ⟨fun k b hb => ?_, fun k b hb => ?_⟩
  · obtain ⟨hk, -⟩ := List.getElem?_eq_some_iff.1 hb
    exact h k b (by rwa [List.getElem?_append_left hk])
  · rw [Nat.add_assoc]
    exact h _ b (by rwa [List.getElem?_append_right (Nat.le_add_right ..), Nat.add_sub_cancel_left])

/-- Bytes that a list names are written. -/
theorem SrcHolds.written {x : Bcdec} {o : Nat} {bs : List Byte} (h : SrcHolds x o bs) : SrcWritten x o bs.length := by
  intro a hlo hhi
  have hread := h (a - o) _ (List.getElem?_eq_getElem (by omega))
  rw [Nat.add_sub_of_le hlo] at hread
  exact ⟨_, hread⟩

/-- The colour of pixel `p` of the colour block of eight bytes: the table entry of its index (R53, R97). -/
def blockColour (b0 b1 b2 b3 b4 b5 b6 b7 : Byte) (p : Nat) : Colour :=
  pickColour (colourTable (b1 ++ b0) (b3 ++ b2)) (BitVec.ofNat 2 ((b7 ++ b6 ++ b5 ++ b4 : BitVec 32).toNat / 4 ^ p))

section
variable {x : Bcdec} {o : Nat} {b0 b1 b2 b3 b4 b5 b6 b7 : Byte}

/-- The colour block of eight bytes (R53, R91). -/
theorem colorFields_of_holds (h : SrcHolds x o [b0, b1, b2, b3, b4, b5, b6, b7]) :
    colorFields x o = .ok { c1 := b1 ++ b0, c2 := b3 ++ b2, idx := b7 ++ b6 ++ b5 ++ b4 } := by
  obtain ⟨hc1, h⟩ := SrcHolds.of_append [b0, b1] h
  obtain ⟨hc2, hidx⟩ := SrcHolds.of_append [b2, b3] h
  have hread1 : srcLE x o 2 = .ok (leNat [b0, b1]) := srcLE_holds hc1
  have hread2 : srcLE x (o + 2) 2 = .ok (leNat [b2, b3]) := srcLE_holds hc2
  have hread3 : srcLE x (o + 4) 4 = .ok (leNat [b4, b5, b6, b7]) := srcLE_holds hidx
  rw [colorFields, hread1, ok_bind, hread2, ok_bind, hread3, ok_bind, ofNat_leNat_two, ofNat_leNat_two,
    ofNat_leNat_four]

theorem pixelColour_eq_blockColour (p : Nat) :
    pixelColour { c1 := b1 ++ b0, c2 := b3 ++ b2, idx := b7 ++ b6 ++ b5 ++ b4 } p =
      blockColour b0 b1 b2 b3 b4 b5 b6 b7 p := by
  rw [pixelColour, colorIndex_eq_ofNat, blockColour]

theorem decodeBc1_of_holds (h : SrcHolds x o [b0, b1, b2, b3, b4, b5, b6, b7]) :
    decodeBc1 x o = .ok fun p => texelWord 0xFF (blockColour b0 b1 b2 b3 b4 b5 b6 b7 p) := by
  simp only [decodeBc1, colorFields_of_holds h, ok_bind, pixelColour_eq_blockColour]

theorem romAlpha4_alphaNibble (a64 : BitVec 64) (p : Nat) :
    romAlpha4 (alphaNibble a64 p) = BitVec.ofNat 8 (17 * (a64.toNat / 16 ^ p % 16)) := by
  rw [romAlpha4, alphaNibble_eq_ofNat, BitVec.toNat_ofNat]

theorem decodeBc2_of_holds {a0 a1 a2 a3 a4 a5 a6 a7 : Byte}
    (h : SrcHolds x o [a0, a1, a2, a3, a4, a5, a6, a7, b0, b1, b2, b3, b4, b5, b6, b7]) :
    decodeBc2 x o = .ok fun p => texelWord
      (BitVec.ofNat 8 (17 * ((a7 ++ a6 ++ a5 ++ a4 ++ a3 ++ a2 ++ a1 ++ a0 : BitVec 64).toNat / 16 ^ p % 16)))
      (blockColour b0 b1 b2 b3 b4 b5 b6 b7 p) := by
  obtain ⟨halpha, hcolour⟩ := SrcHolds.of_append [a0, a1, a2, a3, a4, a5, a6, a7] h
  have hread : srcLE x o 8 = .ok (leNat [a0, a1, a2, a3, a4, a5, a6, a7]) := srcLE_holds halpha
  have hfields := colorFields_of_holds (o := o + 8) hcolour
  simp only [decodeBc2, hread, hfields, ok_bind, ofNat_leNat_eight, romAlpha4_alphaNibble, pixelColour_eq_blockColour]

theorem decodeBc3_of_holds {a0 a1 i0 i1 i2 i3 i4 i5 : Byte}
    (h : SrcHolds x o [a0, a1, i0, i1, i2, i3, i4, i5, b0, b1, b2, b3, b4, b5, b6, b7]) :
    decodeBc3 x o = .ok fun p => texelWord
      (alphaEntry a0 a1 (BitVec.ofNat 3 ((i5 ++ i4 ++ i3 ++ i2 ++ i1 ++ i0 : BitVec 48).toNat / 8 ^ p)))
      (blockColour b0 b1 b2 b3 b4 b5 b6 b7 p) := by
  have hread0 : srcRead x o = .ok a0 := srcRead_ok.2 (h 0 a0 rfl)
  have hread1 : srcRead x (o + 1) = .ok a1 := srcRead_ok.2 (h 1 a1 rfl)
  obtain ⟨-, h⟩ := SrcHolds.of_append [a0, a1] h
  obtain ⟨hindices, hcolour⟩ := SrcHolds.of_append [i0, i1, i2, i3, i4, i5] h
  have hread : srcLE x (o + 2) 6 = .ok (leNat [i0, i1, i2, i3, i4, i5]) := srcLE_holds hindices
  have hfields := colorFields_of_holds (o := o + 8) hcolour
  simp only [decodeBc3, hread0, hread1, hread, hfields, ok_bind, ofNat_leNat_six, alphaIndex_eq_ofNat,
    pixelColour_eq_blockColour]

end

end Sys2Proof.Machine
end

section
/-! The block units in RUN (R98, R99, R101, R102): where a decoded block's pixels go, and what stays. -/

namespace Sys2Proof.Machine

section
variable {w h bx by' p : Nat}

theorem blockCell_of_inside (hcol : 4 * bx + p % 4 < w) (hrow : 4 * by' + p / 4 < h) :
    blockCell w h bx by' p = some ((4 * by' + p / 4) * w + (4 * bx + p % 4)) :=
  if_pos ⟨hcol, hrow⟩

theorem blockCell_eq_some {j : Nat} (hc : blockCell w h bx by' p = some j) :
    4 * bx + p % 4 < w ∧ 4 * by' + p / 4 < h ∧ j = (4 * by' + p / 4) * w + (4 * bx + p % 4) := by
  unfold blockCell at hc
  split at hc
  · rename_i hin
    obtain ⟨hcol, hrow⟩ := hin
    cases hc
    exact ⟨hcol, hrow, rfl⟩
  · cases hc

end

/-- DSTMEM of `y` is that of `x` with the texels `t` of block (bx, by') placed in an image of `w` by `h` pixels: those
inside the image are in their cells, and no other cell differs (R102). -/
def BlockPlaced (w h bx by' : Nat) (t : Nat → Word) (x y : Bcdec) : Prop :=
  (∀ p, p < 16 → 4 * bx + p % 4 < w → 4 * by' + p / 4 < h →
    Memory.read y.dst ((4 * by' + p / 4) * w + (4 * bx + p % 4)) = some (t p)) ∧
  ∀ j, (∀ p, p < 16 → 4 * bx + p % 4 < w → 4 * by' + p / 4 < h → j ≠ (4 * by' + p / 4) * w + (4 * bx + p % 4)) →
    Memory.read y.dst j = Memory.read x.dst j

theorem placeBlock_placed (w h bx by' : Nat) (t : Nat → Word) (x : Bcdec) :
    BlockPlaced w h bx by' t x (placeBlock w h bx by' t x) := by
  refine ⟨fun p hp hcol hrow => placeBlock_hit hp (blockCell_of_inside hcol hrow), fun j hj => ?_⟩
  refine placeBlock_miss fun p hp hc => ?_
  obtain ⟨hcol, hrow, hcell⟩ := blockCell_eq_some hc
  exact hj p hp hcol hrow hcell

/-- What is placed is a matter of DSTMEM alone. -/
theorem BlockPlaced.of_dst_eq {w h bx by' : Nat} {t : Nat → Word} {x y z : Bcdec} (hz : BlockPlaced w h bx by' t x z)
    (hy : y.dst = z.dst) : BlockPlaced w h bx by' t x y := by
  rw [BlockPlaced, hy]
  exact hz

/-- A block unit places the texels it decodes, and it ends as R79 says. -/
theorem engineStep_bcUnit {k : JobKind} {bs : Nat} {d : Bcdec → Nat → Except Fault (Nat → Word)} {s : State}
    {x : Bcdec} {w h : Nat} {t : Nat → Word} (hrun : InRun s x) (hw : x.job.w.toInt = w) (hh : x.job.h.toInt = h)
    (ht : d x (x.job.cur * bs) = .ok t) :
    ∃ y, engineStep k (bcUnit bs d) s = .next (putSel s y) ∧ UnitDone x y ∧
      BlockPlaced w h (x.job.cur % ((w + 3) / 4)) (x.job.cur / ((w + 3) / 4)) t x y := by
  have hunit : bcUnit bs d x =
      .ok (placeBlock w h (x.job.cur % ((w + 3) / 4)) (x.job.cur / ((w + 3) / 4)) t x) := by
    rw [bcUnit, ht, ok_bind, jobW, jobH, hw, hh, Int.toNat_natCast, Int.toNat_natCast]
    rfl
  obtain ⟨hdone, hdst⟩ := advance_unitDone (bcUnit_onlyDst hunit)
  exact ⟨_, engineStep_run hrun hunit, hdone, (placeBlock_placed ..).of_dst_eq hdst⟩

/-- Settles O33: the placement of a unit, with BC1's texels. -/
theorem bc1DecodesBlock : Obligations.Bc1DecodesBlock := by
  intro s x adepth mips w h b0 b1 b2 b3 b4 b5 b6 b7 hrun hw hh hsrc
  exact engineStep_bcUnit hrun hw hh (decodeBc1_of_holds hsrc)

/-- Settles O34: the placement of a unit, with BC2's texels. -/
theorem bc2DecodesBlock : Obligations.Bc2DecodesBlock := by
  intro s x adepth mips w h a0 a1 a2 a3 a4 a5 a6 a7 b0 b1 b2 b3 b4 b5 b6 b7 hrun hw hh hsrc
  exact engineStep_bcUnit hrun hw hh (decodeBc2_of_holds hsrc)

/-- Settles O35: the placement of a unit, with BC3's texels. -/
theorem bc3DecodesBlock : Obligations.Bc3DecodesBlock := by
  intro s x adepth mips w h a0 a1 i0 i1 i2 i3 i4 i5 b0 b1 b2 b3 b4 b5 b6 b7 hrun hw hh hsrc
  exact engineStep_bcUnit hrun hw hh (decodeBc3_of_holds hsrc)

end Sys2Proof.Machine
end

section
/-! The BC3 alpha table (R100): each entry a weighted mean of the endpoints, in order along the ramp. -/

namespace Sys2Proof.Machine

/-- A weighted mean of two bytes is a byte, so it does not wrap. -/
theorem weightedMean_toNat (a b : Byte) {m k n : Nat} (hsum : m + k = n) (hn : 0 < n) :
    (BitVec.ofNat 8 ((m * a.toNat + k * b.toNat) / n)).toNat = (m * a.toNat + k * b.toNat) / n := by
  have hlt : (m * a.toNat + k * b.toNat) / n < 256 := by
    rw [Nat.div_lt_iff_lt_mul hn]
    calc m * a.toNat + k * b.toNat
      _ ≤ m * 255 + k * 255 :=
        Nat.add_le_add (Nat.mul_le_mul_left m (by omega)) (Nat.mul_le_mul_left k (by omega))
      _ < 256 * n := by omega
  rw [BitVec.toNat_ofNat, Nat.mod_eq_of_lt hlt]

section
variable {a1 a2 : Byte} {i : Nat}

theorem ramp6_toNat (hi : i < 6) : (ramp6 a1 a2 i).toNat = ((6 - i) * a1.toNat + (1 + i) * a2.toNat) / 7 :=
  weightedMean_toNat a1 a2 (by omega) (by decide)

theorem ramp4_toNat (hi : i < 4) : (ramp4 a1 a2 i).toNat = ((4 - i) * a1.toNat + (1 + i) * a2.toNat) / 5 :=
  weightedMean_toNat a1 a2 (by omega) (by decide)

/-- Entries 2 to 7 with `a1 > a2` are the 6-step ramp. -/
theorem alphaEntry_of_gt (h : a2.toNat < a1.toNat) (hi : i < 6) :
    alphaEntry a1 a2 (BitVec.ofNat 3 (i + 2)) = ramp6 a1 a2 i := by
  have hindex : (BitVec.ofNat 3 (i + 2)).toNat = i + 2 := Nat.mod_eq_of_lt (by omega)
  unfold alphaEntry
  rw [hindex]
  exact if_pos h

/-- Entries 2 to 5 with `a1 ≤ a2` are the 4-step ramp. -/
theorem alphaEntry_of_le (h : a1.toNat ≤ a2.toNat) (hi : i < 4) :
    alphaEntry a1 a2 (BitVec.ofNat 3 (i + 2)) = ramp4 a1 a2 i := by
  have hindex : (BitVec.ofNat 3 (i + 2)).toNat = i + 2 := Nat.mod_eq_of_lt (by omega)
  unfold alphaEntry
  rw [hindex]
  exact (if_neg (Nat.not_lt.2 h)).trans (if_pos hi)

theorem alphaEntry_of_le_last (h : a1.toNat ≤ a2.toNat) : alphaEntry a1 a2 6 = 0x00 ∧ alphaEntry a1 a2 7 = 0xFF :=
  ⟨if_neg (Nat.not_lt.2 h), if_neg (Nat.not_lt.2 h)⟩

end

/-- One step along the 6-step ramp takes `a - b` from the numerator. -/
theorem rampNumerator_succ {a b i : Nat} (h : b ≤ a) (hi : i < 6) :
    (6 - (i + 1)) * a + (1 + (i + 1)) * b + (a - b) = (6 - i) * a + (1 + i) * b := by
  interval_cases i <;> omega

/-- Settles O39: the numerators of neighbouring ramp entries differ by `a1 - a2`, and a difference of 7 or more lowers
the quotient. -/
theorem alphaTableEntries : Obligations.AlphaTableEntries := by
  intro a1 a2
  refine ⟨rfl, rfl, fun hgt => ?_, fun hle => ⟨fun i hi => ?_, alphaEntry_of_le_last hle⟩⟩
  · have hentry (i : Nat) (hi : i < 6) : (alphaEntry a1 a2 (BitVec.ofNat 3 (i + 2))).toNat =
        ((6 - i) * a1.toNat + (1 + i) * a2.toNat) / 7 := by
      rw [alphaEntry_of_gt hgt hi, ramp6_toNat hi]
    have hfirst : (alphaEntry a1 a2 2).toNat = _ := hentry 0 (by decide)
    have hlast : (alphaEntry a1 a2 7).toNat = _ := hentry 5 (by decide)
    refine ⟨hentry, by omega, fun i hi => ?_, by omega, fun hfar => ⟨by omega, fun i hi => ?_, by omega⟩⟩
    all_goals
      have hstep := rampNumerator_succ hgt.le (i := i) (by omega)
      rw [hentry i (by omega), hentry (i + 1) (by omega)]
      omega
  · rw [alphaEntry_of_le hle hi, ramp4_toNat hi]

end Sys2Proof.Machine
end

section
/-! A job of one block (R98, R103). -/

namespace Sys2Proof.Machine

/-- In an image of one block the texel of cell `p` is the block's pixel `p`. -/
theorem blockTexel_single {bs : Nat} {d : Bcdec → Nat → Except Fault (Nat → Word)} {x : Bcdec} {t : Nat → Word}
    {p : Nat} (hw : jobW x = 4) (hp : p < 16) (ht : d x 0 = .ok t) : blockTexel bs d x p = .ok (t p) := by
  have hunit : p / 4 / 4 * ceilDiv 4 4 + p % 4 / 4 = 0 := by
    simp only [ceilDiv]
    omega
  have hpixel : p / 4 % 4 * 4 + p % 4 % 4 = p := by omega
  rw [blockTexel, hw, hunit, hpixel, Nat.zero_mul, ht, ok_bind]

/-- Settles O60: a job decodes its image, which here is one block. -/
theorem singleBlockJob : Obligations.SingleBlockJob := by
  intro s k x rest b0 b1 b2 b3 b4 b5 b6 b7 hinv hx hp hkind hw hh hreq hlen hsrc hturns
  have hjw : jobW x = 4 := by rw [jobW, hw]; rfl
  have hjh : jobH x = 4 := by rw [jobH, hh]; rfl
  have hpixels : jobPixels x = 16 := by rw [jobPixels, hjw, hjh]
  have hunits : units .bc1 (jobW x) (jobH x) = 1 := by rw [hjw, hjh]; rfl
  have hbytes : reqLen .bc1 (jobW x) (jobH x) = 8 := by rw [hjw, hjh]; rfl
  have hfits : x.job.w.toInt * x.job.h.toInt ≤ s.cfg.dstCap := by
    rw [hw, hh]
    exact Int.ofNat_le.2 hinv.cfg.dstLow
  have hpass : CheckPasses s.cfg .bc1 x := ⟨by rw [hw]; decide, by rw [hh]; decide, hfits, hlen, hbytes ▸ hreq⟩
  have hin : InputsWritten .bc1 x := ⟨hbytes ▸ hsrc.written, by simp⟩
  obtain ⟨t, y, hrun, hrest, hy, -, hidle, -, hout, himage, houtside, -⟩ :=
    jobDecodesImage s k .bc1 x rest hinv hx hp hkind hpass hin (by rw [hunits]; exact hturns)
  rw [hunits] at hrun
  rw [hpixels] at hout himage houtside
  refine ⟨t, y, hrun, hrest, hy, hidle, BitVec.eq_of_toNat_eq hout, fun p hp => ?_, houtside⟩
  obtain ⟨v, hv, hread⟩ := himage p hp
  rw [imageTexel_self (hpixels ▸ hp)] at hv
  have htexel := hv.symm.trans (blockTexel_single hjw hp (decodeBc1_of_holds hsrc))
  exact hread.trans (congrArg some (Except.ok.inj htexel))

end Sys2Proof.Machine
end

section
/-! How CHECK ends a job with an error: which code it leaves (R104, R106), and what it leaves alone (R105). -/

namespace Sys2Proof.Machine

theorem errorCode_ne_zero (e : JobError) : errorCode e ≠ 0 := by
  cases e <;> decide

/-- A job in hand shows no error yet (R16). -/
theorem Bcdec.Inv.no_error_in_job {cfg : Config} {x : Bcdec} (h : x.Inv cfg) (hp : x.job.phase ≠ .idle) :
    x.status.error = false ∧ x.status.errcode = 0 := by
  have hbusy := h.busyPhase.2 hp
  rcases h.status with ⟨-, -, herror, hcode⟩ | ⟨hb, -⟩ | ⟨hb, -⟩ | ⟨hb, -⟩
  · exact ⟨herror, hcode⟩
  all_goals simp [hb] at hbusy

/-- Settles O26: an illegal word raises before any check, and CHECK of a kind tests dimensions before length. -/
theorem errorPriority : Obligations.ErrorPriority := by
  intro s x hx hinv
  have hraised (e : JobError) : (raiseError e x).status.error = true ↔ (raiseError e x).status.errcode ≠ 0 :=
    iff_of_true rfl (errorCode_ne_zero e)
  cases hk : kindOf x.job.fmt with
  | error e =>
    cases e with
    | unsupportedFormat =>
      rw [decodeFormat_of_unsupportedFormat hk]
      exact ⟨_, engineRaise_check hx, rfl, hraised .unsupportedFormat⟩
    | unsupportedAlphaDepth =>
      rw [decodeFormat_of_unsupportedAlphaDepth hk]
      exact ⟨_, engineRaise_check hx, rfl, hraised .unsupportedAlphaDepth⟩
  | ok k =>
    refine ⟨checkJob s.cfg k x, (exec_decodeFormat_of_ok hk s).trans (engineStep_check hx), ?_⟩
    rcases checkJob_cases s.cfg k x with ⟨hd, h⟩ | ⟨hd, hl, h⟩ | ⟨hd, hl, -, h⟩ | ⟨hd, hl, -, h⟩ <;> rw [h]
    · exact ⟨(if_pos hd).symm, hraised .badDimensions⟩
    · exact ⟨((if_neg hd).trans (if_pos hl)).symm, hraised .malformedHeader⟩
    · exact ⟨((if_neg hd).trans (if_neg hl)).symm, iff_of_false Bool.false_ne_true (fun hne => hne rfl)⟩
    · obtain ⟨-, hphase⟩ := hx
      obtain ⟨herror, hcode⟩ := hinv.no_error_in_job (by simp [hphase])
      refine ⟨hcode.trans ((if_neg hd).trans (if_neg hl)).symm, iff_of_false ?_ fun hne => hne hcode⟩
      exact Bool.eq_false_iff.1 herror

/-- Settles O27: both illegal instructions run `raise`, which writes STATUS, OUT_COUNT and the phase alone. -/
theorem illegalWordsRaise : Obligations.IllegalWordsRaise := by
  intro s x comp adepth acomp mips hx
  exact ⟨⟨raiseError .unsupportedFormat x, engineRaise_check hx, raiseError_jobEnded _ x, raiseError_sameInputs _ x,
      rfl, rfl, rfl, rfl⟩,
    ⟨raiseError .unsupportedAlphaDepth x, engineRaise_check hx, raiseError_jobEnded _ x, raiseError_sameInputs _ x,
      rfl, rfl, rfl, rfl⟩⟩

end Sys2Proof.Machine
end

section
/-! Model faults and refusals (R29, R108, R109), and the stuck state, which is neither (93 U13). -/

namespace Sys2Proof.Machine

/-- Settles O20: kind 7 has no other meaning, whatever the state. -/
theorem reservedKindRefused : Obligations.ReservedKindRefused := fun _ _ _ => rfl

/-- A model fault or a refusal that FAULTS records leaves its mark, and the run goes on. -/
theorem settle_of_recorded {u : State} {r : Result} {m : Mark}
    (h : (∃ f, r = .fault f ∧ f.recorded = true ∧ m = .fault f) ∨
      (∃ f, r = .refused f ∧ f.recorded = true ∧ m = .refusal f)) : settle u r = .next (markSel u m) := by
  rcases h with ⟨f, rfl, hf, rfl⟩ | ⟨f, rfl, hf, rfl⟩
  · exact if_pos hf
  · exact if_pos hf

/-- Settles O43: the turn's state differs from the step's in the turn and the selection, and the mark goes to the
selected engine. -/
theorem faultStepChangesOnlyFaults : Obligations.FaultStepChangesOnlyFaults := by
  intro s i u x m hf hx hm
  have hstep : step s = .next (putSel u (addMark m x)) := by
    rw [step_of_fetch_run hf, settle_of_recorded hm, markSel_selected hx]
  obtain ⟨k, _, ts, -, rfl, hturn⟩ := fetch_run hf
  refine ⟨rfl, rfl, rfl, rfl, ?_, _, _, hstep, onlyEngine_putSel _ _, putSel_selected hx _, addMark_eq m x,
    fun n => mem_addMark⟩
  rcases hturn with ⟨w, ht, -⟩ | ⟨ht | ⟨ht, rfl, -⟩, -⟩
  · exact .inr (.inr ⟨w, ht⟩)
  · exact .inr (.inl ht)
  · exact .inl ht

/-- A reserved code in an ERRCODE is found, though another engine may hold the one that is found. -/
theorem stuckCode_of_reserved {s : State} {x : Bcdec} (hx : x ∈ s.insts) (hc : reservedCode x.status.errcode = true) :
    ∃ c, stuckCode s = some c ∧ reservedCode c = true := by
  have hsome : (stuckCode s).isSome = true := List.find?_isSome.2 ⟨_, List.mem_map_of_mem hx, hc⟩
  obtain ⟨c, h⟩ := Option.isSome_iff_exists.1 hsome
  exact ⟨c, h, List.find?_some h⟩

theorem step_of_stuckCode {s : State} {c : Byte} (h : stuckCode s = some c) : step s = .fault (.reservedErrCode c) := by
  unfold step fetch
  rw [h]

/-- Settles O50: a legal STATUS holds no reserved code, and where one stands the step stops before any turn. -/
theorem reservedErrorCodeIsStuck : Obligations.ReservedErrorCodeIsStuck := by
  refine ⟨fun s hinv => stuckCode_none fun x hx => legal_not_reserved (hinv.insts x hx).status, fun s x hx hc => ?_⟩
  obtain ⟨c, hstuck, hreserved⟩ := stuckCode_of_reserved hx hc
  exact ⟨c, hreserved, step_of_stuckCode hstuck⟩

end Sys2Proof.Machine
end

section
/-! Idle engines: they take no step (R117), and keep what their last job left until the next START (R107, R121). -/

namespace Sys2Proof.Machine

/-! ### No step of an idle engine -/

theorem engineInstr_idle {x : Bcdec} (h : x.job.phase = .idle) : engineInstr x = none := by
  unfold engineInstr
  rw [h]

theorem fetchEngine_of_idle {s : State} {k : Nat} {x : Bcdec} (hx : s.insts[k]? = some x) (hp : x.job.phase = .idle) :
    fetchEngine s k = .rest s := by
  unfold fetchEngine
  rw [hx]
  simp only [engineInstr_idle hp]

/-- In a system with no job no engine is next. -/
theorem nextBusy_of_idle {s : State} (h : ∀ x ∈ s.insts, x.job.phase = .idle) : nextBusy s = none := by
  refine List.find?_eq_none.2 fun k _ => ?_
  unfold hasJob
  split
  · exact Bool.false_ne_true
  · simp [h _ (List.mem_of_getElem? ‹_›)]

/-- Settles O48: neither an idle engine's turn nor an idle system's step runs an instruction. -/
theorem idleHoldsState : Obligations.IdleHoldsState := by
  refine ⟨fun s k ts x hs ht hx hp => step_of_fetch_rest ?_, fun s hs ht hp => step_of_fetch_rest ?_⟩
  · rw [fetch_of_stuckCode_none hs]
    unfold fetchTurn
    rw [ht]
    exact fetchEngine_of_idle (s := { s with turns := ts }) hx hp
  · rw [fetch_of_stuckCode_none hs]
    unfold fetchTurn
    rw [ht]
    simp only [nextBusy_of_idle hp]

/-! ### What a job leaves -/

/-- The engine shows in `y` the outcome it showed in `x`: STATUS, OUT_COUNT and JOB, and the texels in DSTMEM. -/
structure OutcomeKept (x y : Bcdec) : Prop where
  dst : y.dst = x.dst
  status : y.status = x.status
  outCount : y.outCount = x.outCount
  job : y.job = x.job

theorem OutcomeKept.refl (x : Bcdec) : OutcomeKept x x := ⟨rfl, rfl, rfl, rfl⟩

theorem addMark_outcomeKept (m : Mark) (x : Bcdec) : OutcomeKept x (addMark m x) := by
  rw [addMark_eq]
  exact ⟨rfl, rfl, rfl, rfl⟩

/-- The instruction is START, in either spelling (R67, R75). -/
def IsStart (i : Instr) : Prop := (∃ high, i = .start high) ∨ ∃ v : Word, v.getLsbD 0 = true ∧ i = .wr 0x00 v

/-- A transaction's word spells START in one way. -/
theorem decodeTxn_start {w : Txn} (h : IsStart (decodeTxn w)) : ∃ high, decodeTxn w = .start high := by
  rcases h with h | ⟨v, hv, h⟩
  · exact h
  · have hwf := (decodeTxn_roundTrip w).1
    rw [h] at hwf
    change (!((0x00 : Word) == 0 && v.getLsbD 0)) = true at hwf
    rw [hv] at hwf
    cases hwf

section
variable {x : Bcdec} (hb : x.status.busy = false)
include hb

theorem idleWrite_outcomeKept {y : Bcdec} (h : OutcomeKept x y) : OutcomeKept x (idleWrite x y) := by
  rwa [idleWrite_of_idle hb]

/-- A register write to an idle engine keeps the outcome, or is START. -/
theorem regWrite_outcomeKept_or_start {off : Word} {r : Reg} (hr : regOf off = some r) (v : Word) :
    OutcomeKept x (regWrite x v r) ∨ (regWrite x v r = doStart x ∧ IsStart (.wr off v)) := by
  obtain rfl := regOf_eq_some_iff.1 hr
  cases r
  case ctrl =>
    cases hv : v.getLsbD 0
    · rw [regWrite_ctrl_other hv]
      exact .inl (.refl x)
    · exact .inr ⟨regWrite_ctrl_start hv x, .inr ⟨v, hv, rfl⟩⟩
  case format | width | height | srcLen => exact .inl (idleWrite_outcomeKept hb ⟨rfl, rfl, rfl, rfl⟩)
  case status | outCount | reserved => exact .inl (.refl x)

/-- An instruction keeps an idle engine's outcome, or is START: CHECK and RUN are not for it. -/
theorem Effect.outcomeKept_or_start {cfg : Config} {i : Instr} {y : Bcdec} (he : Effect cfg i x y)
    (hp : x.job.phase = .idle) : OutcomeKept x y ∨ (y = doStart x ∧ IsStart i) := by
  cases he with
  | check _ _ hc => cases hp.symm.trans hc
  | raise _ hc => cases hp.symm.trans hc
  | run _ _ _ hc => cases hp.symm.trans hc
  | reg off v r hi hr => exact hi ▸ regWrite_outcomeKept_or_start hb hr v
  | start high hi => exact .inr ⟨rfl, .inl ⟨high, hi⟩⟩
  | src | pal => exact .inl (idleWrite_outcomeKept hb ⟨rfl, rfl, rfl, rfl⟩)

/-- A change of an idle engine that is no reset keeps its outcome, or is the START of a host's turn. -/
theorem Change.outcomeKept_or_start {s : State} {k : Nat} {y : Bcdec} (hc : Change s k x y) (hp : x.job.phase = .idle)
    (hreset : ∀ ts, s.turns ≠ .reset k :: ts) :
    OutcomeKept x y ∨ (y = doStart x ∧ ∃ w ts, s.turns = .host k w :: ts ∧ ∃ high, decodeTxn w = .start high) := by
  cases hc with
  | mark m => exact .inl (addMark_outcomeKept m x)
  | reset ts ht => exact absurd ht (hreset ts)
  | effect i _ he hi =>
    rcases hi with ⟨w, ts, ht, rfl⟩ | ⟨-, hi⟩
    · exact (he.outcomeKept_or_start hb hp).imp_right fun ⟨hy, hstart⟩ => ⟨hy, w, ts, ht, decodeTxn_start hstart⟩
    · cases (engineInstr_idle hp).symm.trans hi

end

/-- Settles O53: of all changes of an idle engine only a reset and START touch the outcome, and START leaves DSTMEM. -/
theorem statusKeepsUntilStart : Obligations.StatusKeepsUntilStart := by
  intro s t k x y h hinv hx hy hb hreset
  have hp := (hinv.insts x (List.mem_of_getElem? hx)).phase_idle hb
  have hcases : OutcomeKept x y ∨
      (y = doStart x ∧ ∃ w ts, s.turns = .host k w :: ts ∧ ∃ high, decodeTxn w = .start high) := by
    rcases step_engine h hx hy with rfl | hc
    · exact .inl (.refl y)
    · exact hc.outcomeKept_or_start hb hp hreset
  rcases hcases with ⟨hdst, hstatus, hout, hjob⟩ | ⟨rfl, hturn⟩
  · exact ⟨hdst, .inl ⟨hstatus, hout, hjob⟩⟩
  · refine ⟨doStart_dst x, .inr ?_⟩
    rw [doStart_of_idle hb]
    exact ⟨rfl, rfl, hturn⟩

end Sys2Proof.Machine
end

section
/-! A step is one turn of one agent and touches no engine but that agent's (R41, R115). -/

namespace Sys2Proof.Machine

/-- The turn is one of the engine with index `k`: its host's, its own, or its reset. -/
def Turn.Names (u : Turn) (k : Nat) : Prop := u = .engine k ∨ u = .reset k ∨ ∃ w, u = .host k w

/-- The parameters and the engines of `s` and `t` are the same, but for the engine with index `k`. -/
structure SameBut (k : Nat) (s t : State) : Prop where
  cfg : t.cfg = s.cfg
  length : t.insts.length = s.insts.length
  others : ∀ j, j ≠ k → t.insts[j]? = s.insts[j]?

theorem sameBut_of_eq {s t : State} (k : Nat) (hcfg : t.cfg = s.cfg) (hinsts : t.insts = s.insts) : SameBut k s t :=
  ⟨hcfg, by rw [hinsts], fun _ _ => by rw [hinsts]⟩

theorem sameBut_of_set {s t : State} {k : Nat} {y : Bcdec} (hcfg : t.cfg = s.cfg) (hinsts : t.insts = s.insts.set k y) :
    SameBut k s t :=
  ⟨hcfg, by rw [hinsts, List.length_set], fun _ hj => by rw [hinsts, List.getElem?_set_ne hj.symm]⟩

/-- An instruction that is run and settled takes no turn and leaves every engine but the selected one. -/
theorem settle_exec_sameBut {i : Instr} {u t : State} {x : Bcdec} (hx : Selected u x)
    (h : settle u (exec i u) = .next t) : SameBut u.sel u t ∧ t.turns = u.turns := by
  rcases settle_next h with h | ⟨f, -, -, rfl⟩ | ⟨f, -, -, rfl⟩
  · obtain ⟨-, -, ⟨hinsts, hcfg, hturns, -⟩ | ⟨y, rfl, -⟩⟩ := exec_next h
    · exact ⟨sameBut_of_eq _ hcfg hinsts, hturns⟩
    · exact ⟨sameBut_of_set rfl rfl, rfl⟩
  all_goals
    rw [markSel_selected hx]
    exact ⟨sameBut_of_set rfl rfl, rfl⟩

/-- A step takes the turn in hand, or there is none, and leaves every engine but the one the turn names. -/
theorem step_turn {s t : State} (h : step s = .next t) :
    ∃ k, SameBut k s t ∧ ((s.turns = [] ∧ t.turns = []) ∨ ∃ u, s.turns = u :: t.turns ∧ u.Names k) := by
  rcases step_next h with hrest | ⟨i, u, hrun, -⟩
  · rcases fetch_rest hrest with ⟨ht, rfl⟩ | ⟨k, ts, ht, rfl⟩ | ⟨k, x, ts, ht, -, rfl⟩
    · exact ⟨0, sameBut_of_eq 0 rfl rfl, .inl ⟨ht, ht⟩⟩
    · exact ⟨k, sameBut_of_eq k rfl rfl, .inr ⟨_, ht, .inl rfl⟩⟩
    · exact ⟨k, sameBut_of_set rfl rfl, .inr ⟨_, ht, .inr (.inl rfl)⟩⟩
  · rw [step_of_fetch_run hrun] at h
    obtain ⟨k, x, ts, hx, rfl, hturn⟩ := fetch_run hrun
    obtain ⟨⟨hcfg, hlength, hothers⟩, hturns⟩ := settle_exec_sameBut (u := turnState s k ts) hx h
    rw [turnState_turns] at hturns
    refine ⟨k, ⟨hcfg, hlength, hothers⟩, ?_⟩
    rw [hturns]
    rcases hturn with ⟨w, ht, -⟩ | ⟨ht | ⟨ht, hts, -⟩, -⟩
    · exact .inr ⟨_, ht, .inr (.inr ⟨w, rfl⟩)⟩
    · exact .inr ⟨_, ht, .inl rfl⟩
    · exact .inl ⟨ht, hts⟩

/-- Settles O51: a step takes at most the turn in hand, which names the engine that may differ. -/
theorem stepTouchesOneEngine : Obligations.StepTouchesOneEngine := by
  intro s t h
  obtain ⟨k, ⟨hcfg, hlength, hothers⟩, ⟨hs, ht⟩ | ⟨u, hs, hnames⟩⟩ := step_turn h
  · exact ⟨hcfg, hlength, .inl (ht.trans hs.symm), k, hothers, fun u ts hcons => by simp [hs] at hcons⟩
  · refine ⟨hcfg, hlength, .inr ⟨u, hs⟩, k, hothers, fun v ts hcons => ?_⟩
    obtain ⟨rfl, -⟩ := List.cons.inj (hs.symm.trans hcons)
    exact hnames

end Sys2Proof.Machine
end

section
/-! Runs: what every step keeps holds at a run's end, so a mark stays in FAULTS to the end (R29, R128). -/

namespace Sys2Proof.Machine

/-- A run that answers next answers next at its first step. -/
theorem run_succ_next {n : Nat} {s t : State} (h : Host.Core.run Sys2Proof.core (n + 1) s = .next t) :
    ∃ u, step s = .next u ∧ Host.Core.run Sys2Proof.core n u = .next t := by
  cases hstep : step s with
  | next u => exact ⟨u, rfl, (run_succ hstep).symm.trans h⟩
  | fault | refused =>
    have hcore : Sys2Proof.core.step s = _ := hstep
    simp [Host.Core.run, hcore] at h

/-- What every step keeps, every run keeps. -/
theorem run_keeps {P : State → Prop} (hkeep : ∀ s t, P s → step s = .next t → P t) {n : Nat} {s t : State} (hs : P s)
    (h : Host.Core.run Sys2Proof.core n s = .next t) : P t := by
  induction n generalizing s with
  | zero =>
    cases h
    exact hs
  | succ n ih =>
    obtain ⟨u, hstep, hrun⟩ := run_succ_next h
    exact ih (hkeep s u hs hstep) hrun

/-- Engine `k` is there and its FAULTS hold `m`. -/
def Marked (k : Nat) (m : Mark) (s : State) : Prop := ∃ x, s.insts[k]? = some x ∧ m ∈ x.faults

theorem Marked.not_endsWell {k : Nat} {m : Mark} {s : State} (h : Marked k m s) : ¬ EndsWell s := by
  obtain ⟨x, hx, hm⟩ := h
  intro hend
  obtain ⟨-, hfaults⟩ := hend x (List.mem_of_getElem? hx)
  exact List.ne_nil_of_mem hm hfaults

/-- Settles O45: a mark stays through every step, and the end of a run that ends well has none. -/
theorem faultedRunNeverEndsWell : Obligations.FaultedRunNeverEndsWell := by
  intro n s t k x h hx hfaults
  obtain ⟨m, hm⟩ := List.exists_mem_of_ne_nil _ hfaults
  have hkeep (s t : State) (hs : Marked k m s) (hstep : step s = .next t) : Marked k m t := by
    obtain ⟨x, hx, hm⟩ := hs
    exact faultsOnlyGrow s t k x m hstep hx hm
  exact (run_keeps hkeep ⟨x, hx, hm⟩ h).not_endsWell

end Sys2Proof.Machine
end

section
/-! Reset during a run (R118), and the state it leaves: what a host reads there, and the job a START runs (R119). -/

namespace Sys2Proof.Machine

theorem step_reset_turn {s : State} {k : Nat} {ts : List Turn} {x : Bcdec} (hs : stuckCode s = none)
    (ht : s.turns = .reset k :: ts) (hx : s.insts[k]? = some x) :
    step s = .next { s with turns := ts, insts := s.insts.set k (resetBcdec x) } := by
  refine step_of_fetch_rest ?_
  rw [fetch_of_stuckCode_none hs]
  unfold fetchTurn fetchReset
  rw [ht]
  simp only [hx]

theorem statusWord_reset : statusWord .reset = 0 := by decide

/-- Settles O10: the turn puts `resetBcdec` of the engine in its place. -/
theorem resetTurnResetsOneEngine : Obligations.ResetTurnResetsOneEngine := by
  intro s k x ts hs ht hx
  obtain ⟨hk, -⟩ := List.getElem?_eq_some_iff.1 hx
  exact ⟨_, resetBcdec x, step_reset_turn hs ht hx, rfl, List.getElem?_set_self hk, statusWord_reset, rfl, rfl, rfl,
    rfl, rfl, fun _ => rfl, fun _ => rfl, fun _ => rfl, rfl, rfl, fun j hj => List.getElem?_set_ne hj.symm⟩

theorem regRead_reset (r : Reg) : regRead .reset r = 0 := by
  cases r <;> decide

/-- The job of a START right after reset passes CHECK as PAL0, with no unit to do. -/
theorem checkPasses_doStart_reset (cfg : Config) : CheckPasses cfg .pal0 (doStart .reset) :=
  ⟨by decide, by decide, Int.natCast_nonneg cfg.dstCap, Nat.zero_le cfg.srcCap, by decide⟩

/-- CHECK ends that job well at once (R78, R80). -/
theorem checkJob_doStart_reset (cfg : Config) :
    checkJob cfg .pal0 (doStart .reset) = finishOk (latchUnits .pal0 (doStart .reset)) :=
  (checkPasses_doStart_reset cfg).checkJob_eq_finishOk (by decide)

/-- The engine that a turn names is the one put in its place. -/
theorem putSel_turnState_engine {s : State} {k : Nat} {x : Bcdec} (hx : s.insts[k]? = some x) (ts : List Turn)
    (y : Bcdec) : (putSel (turnState s k ts) y).insts[k]? = some y :=
  putSel_selected (s := turnState s k ts) hx y

/-- A host's START turn puts the started engine in its place. -/
theorem step_start_turn {s : State} {k : Nat} {w : Txn} {high : BitVec 31} {ts : List Turn} {x : Bcdec} (hinv : s.Inv)
    (ht : s.turns = .host k w :: ts) (hx : s.insts[k]? = some x) (hw : decodeTxn w = .start high) :
    step s = .next (putSel (turnState s k ts) (doStart x)) := by
  obtain ⟨hstuck, -⟩ := reservedErrorCodeIsStuck
  have hexec : exec (.start high) (turnState s k ts) = .next (putSel (turnState s k ts) (doStart x)) :=
    exec_start (s := turnState s k ts) hx high
  calc step s
    _ = settle (turnState s k ts) (exec (decodeTxn w) (turnState s k ts)) :=
      hostTurnRunsTransaction s k w ts x (hstuck s hinv) ht hx
    _ = .next (putSel (turnState s k ts) (doStart x)) := by
      rw [hw, hexec]
      rfl

/-- START and then a turn of that engine run CHECK of the job that START latched (R75, R78). -/
theorem run_start_check {s : State} {k : Nat} {w : Txn} {high : BitVec 31} {ts : List Turn} {x : Bcdec} {kd : JobKind}
    (hinv : s.Inv) (ht : s.turns = .host k w :: .engine k :: ts) (hx : s.insts[k]? = some x)
    (hw : decodeTxn w = .start high) (hb : x.status.busy = false) (hkind : kindOf x.format = .ok kd) :
    ∃ t, Host.Core.run Sys2Proof.core 2 s = .next t ∧ t.insts[k]? = some (checkJob s.cfg kd (doStart x)) := by
  have hstart := step_start_turn hinv ht hx hw
  have hstarted := putSel_turnState_engine hx (.engine k :: ts) (doStart x)
  have hcheck := step_check_turn (kd := kd) (stepKeepsInvariant _ _ hinv hstart) rfl hstarted
    (by rw [doStart_of_idle hb]) (by rwa [doStart_of_idle hb])
  exact ⟨_, (run_succ hstart).trans (run_succ hcheck), putSel_turnState_engine hstarted ..⟩

theorem resetWith_selected {cfg : Config} (h : cfg.Valid) : Selected (State.resetWith cfg) .reset :=
  List.getElem?_replicate_of_lt h.inst

/-- Settles O11: every register of a reset engine reads 0, no cell of it is written, and a START's job there has no
unit. -/
theorem readsAfterReset : Obligations.ReadsAfterReset := by
  intro cfg hcfg
  have hx := resetWith_selected hcfg
  have hinv : State.Inv { State.resetWith cfg with turns := [.host 0 asmStart, .engine 0] } :=
    have h := State.resetWith_inv hcfg
    ⟨h.cfg, h.count, h.insts⟩
  have hstart : decodeTxn asmStart = .start 0 := by decide
  obtain ⟨t, hrun, ht⟩ := run_start_check (kd := .pal0) hinv rfl hx hstart rfl (by decide)
  rw [checkJob_doStart_reset] at ht
  refine ⟨fun r data => ?_, fun a data ha => exec_rdsrc_unwritten hx ha data rfl,
    fun i data hi => exec_rdpal_unwritten hx hi data rfl, fun j data hj => exec_rddst_unwritten hx hj data rfl rfl,
    t, _, hrun, ht, by decide, by decide, rfl, rfl, fun _ => rfl⟩
  rw [exec_rd hx data (regOf_eq_some_iff.2 rfl), regRead_reset]
  rfl

end Sys2Proof.Machine
end

section
/-! The turn of an engine that has a job once no turn is left (R126): the engines by their place, counting
round from the one selected last. -/

namespace Sys2Proof.Machine

/-! ### Counting round -/

/-- The engine `i` places after the one that follows the selected engine, counting round. -/
def engineAt (s : State) (i : Nat) : Nat := (s.sel + 1 + i) % s.insts.length

/-- The place of engine `k` in that count. -/
def placeOf (s : State) (k : Nat) : Nat :=
  (k + (s.insts.length - (s.sel + 1) % s.insts.length)) % s.insts.length

section
variable {s : State} {k : Nat} (hk : k < s.insts.length)
include hk

theorem placeOf_lt : placeOf s k < s.insts.length := Nat.mod_lt _ (Nat.zero_lt_of_lt hk)

theorem engineAt_placeOf : engineAt s (placeOf s k) = k := by
  have hc := Nat.mod_lt (s.sel + 1) (Nat.zero_lt_of_lt hk)
  unfold engineAt placeOf
  rw [Nat.add_mod_mod, ← Nat.mod_add_mod, Nat.add_left_comm, Nat.add_sub_cancel' hc.le, Nat.add_mod_right,
    Nat.mod_eq_of_lt hk]

theorem placeOf_engineAt : placeOf s (engineAt s k) = k := by
  have hc := Nat.mod_lt (s.sel + 1) (Nat.zero_lt_of_lt hk)
  unfold engineAt placeOf
  rw [Nat.mod_add_mod, Nat.add_assoc, ← Nat.mod_add_mod, Nat.add_left_comm, Nat.add_sub_cancel' hc.le,
    Nat.add_mod_right, Nat.mod_eq_of_lt hk]

end

/-! ### The next engine with a job -/

theorem hasJob_iff {s : State} {k : Nat} : hasJob s k = true ↔ ∃ x, s.insts[k]? = some x ∧ x.job.phase ≠ .idle := by
  unfold hasJob
  cases s.insts[k]? <;> simp

theorem nextBusy_eq (s : State) :
    nextBusy s = ((List.range s.insts.length).find? (hasJob s ∘ engineAt s)).map (engineAt s) :=
  List.find?_map ..

/-- Where an engine has a job, one is next, and it has a job and no later place. -/
theorem nextBusy_of_hasJob {s : State} {j : Nat} (hj : j < s.insts.length) (hjob : hasJob s j = true) :
    ∃ k, nextBusy s = some k ∧ hasJob s k = true ∧ placeOf s k ≤ placeOf s j := by
  have hplace : (hasJob s ∘ engineAt s) (placeOf s j) = true := by
    rw [Function.comp_apply, engineAt_placeOf hj, hjob]
  obtain ⟨i, hi⟩ := Option.isSome_iff_exists.1
    (List.find?_isSome.2 ⟨_, List.mem_range.2 (placeOf_lt hj), hplace⟩)
  obtain ⟨hfound, hmem, hfirst⟩ := List.find?_range_eq_some.1 hi
  refine ⟨engineAt s i, by rw [nextBusy_eq, hi]; rfl, hfound, ?_⟩
  rw [placeOf_engineAt (List.mem_range.1 hmem)]
  refine Nat.not_lt.1 fun hlt => ?_
  have hnone := hfirst _ hlt
  rw [hplace] at hnone
  cases hnone

theorem engineInstr_of_job {x : Bcdec} (h : x.job.phase ≠ .idle) : ∃ i, engineInstr x = some i := by
  cases hp : x.job.phase with
  | idle => exact absurd hp h
  | check => exact ⟨_, engineInstr_check hp⟩
  | run => exact ⟨_, engineInstr_run hp⟩

/-- With no turn left the next engine's instruction runs. -/
theorem step_nextBusy {s : State} {k : Nat} {x : Bcdec} {i : Instr} (hs : stuckCode s = none) (ht : s.turns = [])
    (hk : nextBusy s = some k) (hx : s.insts[k]? = some x) (hi : engineInstr x = some i) :
    step s = settle { s with sel := k } (exec i { s with sel := k }) := by
  refine step_of_fetch_run ?_
  calc fetch s
    _ = fetchTurn s := fetch_of_stuckCode_none hs
    _ = fetchEngine s k := by
      unfold fetchTurn
      rw [ht]
      simp only [hk]
    _ = .run i { s with sel := k } := fetchEngine_of_instr hx hi

/-- Settles O49: the engine that is next has the first place of those that have a job. -/
theorem busyEngineSteps : Obligations.BusyEngineSteps := by
  intro s j z hs ht hz hp
  obtain ⟨hj, -⟩ := List.getElem?_eq_some_iff.1 hz
  obtain ⟨k, hk, hjob, hle⟩ := nextBusy_of_hasJob hj (hasJob_iff.2 ⟨z, hz, hp⟩)
  obtain ⟨x, hx, hxp⟩ := hasJob_iff.1 hjob
  obtain ⟨i, hi⟩ := engineInstr_of_job hxp
  exact ⟨k, x, i, hx, hxp, hi, step_nextBusy hs ht hk hx hi, hle⟩

end Sys2Proof.Machine
end

section
/-! The words of the test vectors (95_test_vectors.md sections 2.1 and 3): a word and the instruction it stands for
determine each other, so each listed word is the one its instruction encodes to. -/

namespace Sys2Proof

/-- A word decodes to exactly the well-formed instruction that it is the word of. -/
theorem decode_eq_iff_encode_eq {e : Encoded} {i : Instr} : decode e = i ↔ i.wellFormed = true ∧ encode i = e := by
  constructor
  · rintro rfl
    exact decodeThenEncodeIsIdentity e
  · rintro ⟨hwf, rfl⟩
    exact encodeThenDecodeIsIdentity i hwf

/-- Settles O3: each instruction is well-formed, and its fields put together give the listed word. -/
theorem specWordsDecode : Obligations.SpecWordsDecode := by
  unfold Obligations.SpecWordsDecode
  simp only [decode_eq_iff_encode_eq]
  decide

end Sys2Proof
end
